-- ==== Sys2Proof/Word.lean ====
section
/-! DEFINITION. The word types of the block: the sample byte, the frame octet and the magnitude are 8 bits
(00_scope.md R4, 20_memory.md R30); an operation code is 4 bits (30_encoding.md R42). -/

namespace Sys2Proof

/-- An unsigned 8-bit sample, magnitude or frame octet. -/
abbrev Byte := BitVec 8

/-- A 4-bit operation code (30_encoding.md R42). -/
abbrev Code := BitVec 4

end Sys2Proof
end

