-- ==== Sys2Proof/Syntax.lean ====
section
/-! DEFINITION. The operation set of 30_encoding.md R42, one constructor per row of spec/opcode_table.json, with the
operands of R43. The spec calls them operations: the block runs no stored program (20_memory.md R40). -/

namespace Sys2Proof

/-- One operation of one agent. RESET's operands are naturals of any size, so that a record that
60_exceptions.md R90 makes illegal (`E = 256`, a seed offset of 16) is a term too and is refused by its meaning. -/
inductive Instr
  /-- `0x0`, CTL: the configuration record `(L, E, SEED_A, SEED_B)`. -/
  | reset (l e seedA seedB : Nat)
  /-- `0x1`, ACQ: the delivered bytes. -/
  | deliver (data : List Byte)
  /-- `0x2`, CTL. -/
  | cancel
  /-- `0x3`, WRK, phase `WAIT`. -/
  | take
  /-- `0x4`, WRK, phase `EXTRACT(k)`. -/
  | extract
  /-- `0x5`, WRK, phase `SEARCH(i)`. -/
  | search
  /-- `0x6`, WRK, phase `DECODE(p)`. -/
  | decode
  /-- `0x7`, WRK, phase `ASCAN(j)`. -/
  | ascan
  /-- `0x8`, WRK, phase `ARUN(j)` while the run continues. -/
  | arun
  /-- `0x9`, WRK, phase `ARUN(j)` once the run has stopped. -/
  | aend
  /-- `0xA`, WRK with SNK, phase `EMIT(j)`. -/
  | emit
deriving DecidableEq, Repr

/-- Why bytes are no operation record. The byte layout of a record is the model's own
(DESIGN CHOICE, notes/assumptions/9.md and 10.md). -/
inductive BadRecord
  /-- there is no code byte -/
  | empty
  /-- a byte that holds fewer than 8 bits (the code, the length bit) has one set above them -/
  | padding
  /-- the bytes end inside the operands -/
  | truncated
  /-- a natural operand is written with a superfluous last group -/
  | nonCanonical
deriving DecidableEq, Repr

end Sys2Proof
end

