-- ==== Sys2Proof/WellFormed.lean ====
section
/-! DEFINITION. Which operations a trace record can carry (30_encoding.md R43): `E` has 8 bits and each seed offset
4 bits there. `L` is a natural and `data` any byte sequence. Whether a record is LEGAL is not asked here: that is
60_exceptions.md R90 and 45_handoff.md R77, and belongs to the meanings. -/

namespace Sys2Proof

/-- The operands fit the fields of R43's record. -/
def Instr.wellFormed : Instr → Bool
  | .reset _ e seedA seedB => decide (e < 256) && decide (seedA < 16) && decide (seedB < 16)
  | .deliver _ | .cancel | .take | .extract | .search | .decode | .ascan | .arun | .aend | .emit => true

end Sys2Proof
end

