-- ==== Sys2Proof/Decode.lean ====
section
/-! DEFINITION. Operation records as bytes, both directions (30_encoding.md R42, R43, R52).

The spec gives a record's content and order: "its 4-bit code followed by its operands in the order listed". How that
is laid out in bytes is DESIGN CHOICE (notes/assumptions/9.md): the code byte holds the code in bits 3..0 and zeros
above; a natural (`L`, and the count of delivered bytes) is written in groups of 7 bits, least significant first, bit 7
set in every group but the last; `E` is one byte; `SEED_A ++ SEED_B` is one byte (00_scope.md R9: the first in the
high bits); the delivered bytes follow their count. These are the records of a schedule, an input: the record that EMIT
carries toward the sink is an output, and stands in the trace record (Machine/OperationRecord.lean,
notes/assumptions/24.md). -/

namespace Sys2Proof

/-- Why a byte list gives no operation. -/
inductive DecodeError
  /-- the code is one of `0xB` to `0xF`, which R52 item 2 reserves; the bytes after it are kept -/
  | reservedOp (code : Code) (rest : List Byte)
  /-- the bytes are no record -/
  | bad (why : BadRecord)
deriving DecidableEq, Repr

/-- Reads one natural and the bytes after it. -/
def decodeNat : List Byte → Except BadRecord (Nat × List Byte)
  | [] => .error .truncated
  | b :: bs =>
    if b.toNat < 128 then .ok (b.toNat, bs)
    else
      match decodeNat bs with
      | .error e => .error e
      | .ok (n, rest) => if n = 0 then .error .nonCanonical else .ok (b.toNat - 128 + 128 * n, rest)

/-- The operands of RESET, in R43's order. -/
def decodeReset (bs : List Byte) : Except DecodeError (Instr × List Byte) :=
  match decodeNat bs with
  | .error e => .error (.bad e)
  | .ok (l, e :: seeds :: rest) => .ok (.reset l e.toNat (seeds.toNat / 16) (seeds.toNat % 16), rest)
  | .ok _ => .error (.bad .truncated)

/-- The operand of DELIVER: a count and that many bytes. -/
def decodeDeliver (bs : List Byte) : Except DecodeError (Instr × List Byte) :=
  match decodeNat bs with
  | .error e => .error (.bad e)
  | .ok (count, rest) =>
    if rest.length < count then .error (.bad .truncated)
    else .ok (.deliver (rest.take count), rest.drop count)

/-- One operation from its 4-bit code and the bytes after the code byte: R42's table, then R52 item 2. -/
def decodeCode (code : Nat) (rest : List Byte) : Except DecodeError (Instr × List Byte) :=
  match code with
  | 0 => decodeReset rest
  | 1 => decodeDeliver rest
  | 2 => .ok (.cancel, rest)
  | 3 => .ok (.take, rest)
  | 4 => .ok (.extract, rest)
  | 5 => .ok (.search, rest)
  | 6 => .ok (.decode, rest)
  | 7 => .ok (.ascan, rest)
  | 8 => .ok (.arun, rest)
  | 9 => .ok (.aend, rest)
  | 10 => .ok (.emit, rest)
  | c => .error (.reservedOp (BitVec.ofNat 4 c) rest)

/-- The first operation record of a byte list, and the bytes after it. Total on any bytes. -/
def decode : List Byte → Except DecodeError (Instr × List Byte)
  | [] => .error (.bad .empty)
  | b :: rest => if b.toNat < 16 then decodeCode b.toNat rest else .error (.bad .padding)

/-- The 4-bit code of an operation (30_encoding.md R42). -/
def Instr.code : Instr → Code
  | .reset _ _ _ _ => 0x0
  | .deliver _ => 0x1
  | .cancel => 0x2
  | .take => 0x3
  | .extract => 0x4
  | .search => 0x5
  | .decode => 0x6
  | .ascan => 0x7
  | .arun => 0x8
  | .aend => 0x9
  | .emit => 0xA

/-- The groups of a natural; `fuel` bounds their number and is never the limit in `encodeNat`. -/
def encodeNatGroups : (fuel : Nat) → Nat → List Byte
  | 0, n => [BitVec.ofNat 8 n]
  | fuel + 1, n =>
    if n < 128 then [BitVec.ofNat 8 n]
    else BitVec.ofNat 8 (n % 128 + 128) :: encodeNatGroups fuel (n / 128)

/-- A natural as bytes. -/
def encodeNat (n : Nat) : List Byte := encodeNatGroups n n

/-- The operand bytes of an operation, in R43's order. -/
def encodeOperands : Instr → List Byte
  | .reset l e seedA seedB => encodeNat l ++ [BitVec.ofNat 8 e, BitVec.ofNat 8 (16 * seedA + seedB)]
  | .deliver data => encodeNat data.length ++ data
  | .cancel | .take | .extract | .search | .decode | .ascan | .arun | .aend | .emit => []

/-- The operation record of an operation: code, then the operands that come with it (R43). -/
def encode (i : Instr) : List Byte := i.code.setWidth 8 :: encodeOperands i

/-- The bytes of an instruction whose bits are `w` as spec/opcode_table.json numbers them, `nbits` of them given:
byte 0 holds bits 7..0. Three zero bytes follow, the longest operands an all-zero record has (RESET's). -/
def tableBytes (nbits w : Nat) : List Byte :=
  (List.range ((nbits + 7) / 8)).map (fun k => BitVec.ofNat 8 (w % 2 ^ nbits / 256 ^ k)) ++ [0, 0, 0]

/-- The operation the decoder reads from the table's word `w`, none where it refuses. -/
def decodeTableWord (nbits w : Nat) : Option Instr :=
  match decode (tableBytes nbits w) with
  | .ok (i, _) => some i
  | .error _ => none

end Sys2Proof
end

