-- ==== Sys2Proof/Config.lean ====
section
/-! DEFINITION. The configuration record of a session (00_scope.md R3, 10_state.md R12). It is supplied with RESET
and no other operation writes it. The spec leaves no value undefined that the block goes on with, so there is no
free value here. -/

namespace Sys2Proof

/-- The four parameters of a session, under the spec's names. They are naturals: the spec's arithmetic is exact
(00_scope.md R8), and the widths of R12 (`E` 8 bits, the seeds 4 bits) are the bounds of 60_exceptions.md R90. -/
structure Config where
  /-- SampleBuffer length in bytes. -/
  L : Nat
  /-- Error-tolerance threshold. -/
  E : Nat
  /-- Offset in the preamble window of the first seed sample, `SEED_A`. -/
  seedA : Nat
  /-- Offset in the preamble window of the second seed sample, `SEED_B`. -/
  seedB : Nat
deriving DecidableEq, Repr

end Sys2Proof
end

