-- ==== Sys2Proof/Machine/State.lean ====
section
/-! DEFINITION. The state of the block (10_state.md R11 to R29), the reasons a step can stop (60_exceptions.md R88),
and the state after RESET.

A field of type Option, and an index that a Memory does not list, hold "no value". That is the spec's own reset value
(R29: "A model represents an unspecified element as \"no value\"", R100: `<- no value`), not the want of one: R88 names
the fault its read raises, and R28 and R29 show that no reachable step reads one (notes/assumptions/2.md). -/

namespace Sys2Proof.Machine

/-- One of the two sample banks (10_state.md R13). `land` is a value of this type: `bank0` is its 0. -/
inductive BankSel
  | bank0
  | bank1
deriving DecidableEq, Repr

/-- The worker's phase with its cursor (10_state.md R17). -/
inductive Phase
  | wait
  | extract (k : Nat)
  | search (i : Nat)
  | decode (p : Nat)
  | ascan (j : Nat)
  | arun (j : Nat)
  | emit (j : Nat)
  | done
deriving DecidableEq, Repr

/-- A cell of the cell array as the rules speak of it (30_encoding.md R45). The array itself holds the 9-bit encodings,
so that a reserved one can be told. -/
inductive Cell
  | mag (v : Byte)
  | zero
  | one
  | invalid
  | consumed
deriving DecidableEq, Repr

/-- The answer of the pair classifier (43_manchester.md R64). -/
inductive Classified
  | one
  | zero
  | ambig
deriving DecidableEq, Repr

/-- A frame's length, 56 or 112 bits: no other exists (30_encoding.md R48). -/
inductive FrameLen
  | short
  | long
deriving DecidableEq, Repr

/-- The record `Frame(octets, len)` of the frame port (30_encoding.md R50). -/
structure FrameRecord where
  octets : List Byte
  len : FrameLen
deriving DecidableEq, Repr

/-- A trace event with its payload (60_exceptions.md R87). `runAtBufferEnd` carries the register `n` as it stands. -/
inductive Event
  | ambigTolerated (p err : Nat)
  | runAbort (p n count : Nat)
  | runAtBufferEnd (p : Nat) (n : Option Nat)
  | frameDrop (j dcnt : Nat) (flen : FrameLen)
  | bufferOverwrite
  | deliveryDropped
deriving DecidableEq, Repr

/-- A refusal recorded on the state (60_exceptions.md R89): the operation is refused, the mark is kept for the whole
run, and the run goes on (70_reset_and_hazards.md R100). Safe or unsafe: see notes/assumptions/3.md. -/
inductive RefusalMark
  /-- RESET with a record that R90 makes illegal -/
  | badConfig
  /-- any operation but RESET before the first RESET -/
  | notReset
  /-- DELIVER whose data is not exactly `L` bytes -/
  | deliverLength
  /-- a schedule record with a code `0xB` to `0xF` -/
  | reservedOp (code : Code)
deriving DecidableEq, Repr

/-- The model's faults, 60_exceptions.md R88. "A faulted state has no further step of any agent, not even RESET."
All four are safe: the run stops where the spec says the model stops, and no reachable step raises one. -/
inductive Fault
  /-- code 1, `UNWRITTEN_READ`: raised by any operation that reads an element holding no value. Safe. -/
  | unwrittenRead
  /-- code 2, `RESERVED_CELL`: raised by SEARCH, DECODE, ASCAN, ARUN, AEND on a cell with a reserved encoding. Safe. -/
  | reservedCell
  /-- code 3, `INDEX_RANGE`: raised by any operation that forms an index outside its space. Safe. -/
  | indexRange
  /-- code 4, `VAL_NOT_MAG`: raised by SEARCH and DECODE when `val` meets a cell that is not `MAG`. Safe. -/
  | valNotMag
deriving DecidableEq, Repr

/-- The model's own refusals: an input for which the spec gives no step at all. -/
inductive Refusal
  /-- Raised by exec for an instruction that has no meaning yet; no instruction of this model is left so. Safe. -/
  | notModelled (mnemonic : String)
  /-- Raised by a worker operation scheduled in a phase that is not its own (or ARUN for AEND and the reverse):
  30_encoding.md R42 gives it no step there, so a schedule that takes it is no run of the block. Safe
  (notes/assumptions/8.md). -/
  | notEnabled (mnemonic : String)
  /-- Raised by step when the schedule's bytes are no operation record. Safe (notes/assumptions/10.md). -/
  | malformedRecord (why : BadRecord)
deriving DecidableEq, Repr

/-- An address space with elements of `w` bits (20_memory.md R30): its written elements by index. An index that is not
listed has no value. `Memory 8` is a list of `Host.Cell`. -/
abbrev Memory (w : Nat) := List (Nat × BitVec w)

/-- The state. The first group is R11's list, element by element; the second is the model's own record of the run and
of the inputs still to come. -/
structure State where
  /-- The configuration; none before the first RESET (70_reset_and_hazards.md R101). -/
  cfg : Option Config
  bank0 : Memory 8
  bank1 : Memory 8
  /-- The landing bank; the work bank is always the other one (R14). -/
  land : BankSel
  /-- The readiness signal's count, 0 or 1 (R15, R81). -/
  pending : Bool
  /-- The exit flag (R16). -/
  exitf : Bool
  phase : Phase
  /-- The cell array, as 9-bit encodings (R19). -/
  cell : Memory 9
  start : Option Nat
  n : Option Nat
  ra : Option Byte
  rb : Option Byte
  err : Option Nat
  /-- The frame register, octets 0 to 13 (R23). -/
  frame : Memory 8
  dcnt : Option Nat
  flen : Option FrameLen
  /-- The refusal marks of the run, oldest first (60_exceptions.md R89). -/
  refusals : List RefusalMark
  /-- The trace of R87, oldest first. No step reads it. -/
  events : List Event
  /-- The records presented on the frame port, oldest first (70_reset_and_hazards.md R102). No step reads it. -/
  port : List FrameRecord
  /-- The schedule: the bytes of the operation records to come (notes/assumptions/5.md). -/
  script : List Byte
  /-- The sink's next answers: true accepts, false does not yet (notes/assumptions/6.md). -/
  sinkAnswers : List Bool
  /-- The sink's answer whenever `sinkAnswers` is used up. -/
  sinkThen : Bool
deriving DecidableEq, Repr

/-- Before the first RESET: no session, so no element has a value that an operation could reach
(70_reset_and_hazards.md R101; notes/assumptions/13.md). -/
def State.powerOn : State where
  cfg := none
  bank0 := []
  bank1 := []
  land := .bank0
  pending := false
  exitf := false
  phase := .wait
  cell := []
  start := none
  n := none
  ra := none
  rb := none
  err := none
  frame := []
  dcnt := none
  flen := none
  refusals := []
  events := []
  port := []
  script := []
  sinkAnswers := []
  sinkThen := true

/-- The machine right after RESET (R29, R100), for the record `RESET(L=480, E=5, SEED=8,9)` of R100's own example:
the spec leaves the record to the environment (DESIGN CHOICE, notes/assumptions/1.md). -/
def State.reset : State := { State.powerOn with cfg := some { L := 480, E := 5, seedA := 8, seedB := 9 } }

end Sys2Proof.Machine
end

