-- ==== Sys2Proof/Machine/Operands.lean ====
section
/-! DEFINITION. The operand formats and the pure functions over them: the parameters (00_scope.md R3, R4), the cell
encoding and its predicates (30_encoding.md R45, R46), the labels of phases, faults and events (10_state.md R17,
60_exceptions.md R87, R88), the magnitude (41_magnitude.md R54) and the pair classifier (43_manchester.md R64). -/

namespace Sys2Proof

/-- `N = L / 2`, the number of magnitudes and cells (R3). -/
def Config.N (c : Config) : Nat := c.L / 2

/-- Whether a configuration record is legal (60_exceptions.md R90). -/
def Config.legal (c : Config) : Bool :=
  decide (2 ≤ c.L) && decide (c.L % 2 = 0) && decide (c.E ≤ 255) && decide (c.seedA ≤ 15) && decide (c.seedB ≤ 15)

/-- The worker's operations, as against the environment's (30_encoding.md R42, agent column). -/
def Instr.isWorker : Instr → Bool
  | .reset _ _ _ _ | .deliver _ | .cancel => false
  | .take | .extract | .search | .decode | .ascan | .arun | .aend | .emit => true

namespace Machine

/-! ### Constants of R4 -/

/-- `PRE_LEN`: the preamble window's length. -/
def preLen : Nat := 16

/-- Whether an offset of the window is in `HIGH_OFFS = {0, 2, 7, 9}`; the other twelve are `LOW_OFFS`
(42_preamble.md R57). -/
def isHighOff (o : Nat) : Bool := o == 0 || o == 2 || o == 7 || o == 9

/-- `FRAME_OCTETS`. -/
def frameOctets : Nat := 14

/-- A frame length in bits: `LONG_LEN` and `SHORT_LEN`. -/
def FrameLen.bits : FrameLen → Nat
  | .short => 56
  | .long => 112

/-! ### Labels -/

/-- The other bank: `1 - land` (10_state.md R14). -/
def BankSel.other : BankSel → BankSel
  | .bank0 => .bank1
  | .bank1 => .bank0

/-- A bank's number. -/
def BankSel.index : BankSel → BitVec 1
  | .bank0 => 0
  | .bank1 => 1

/-- The 3-bit code of a phase's tag (10_state.md R17). -/
def Phase.code : Phase → BitVec 3
  | .wait => 0
  | .extract _ => 1
  | .search _ => 2
  | .decode _ => 3
  | .ascan _ => 4
  | .arun _ => 5
  | .emit _ => 6
  | .done => 7

/-- The code of a fault (60_exceptions.md R88). -/
def Fault.code : Fault → Nat
  | .unwrittenRead => 1
  | .reservedCell => 2
  | .indexRange => 3
  | .valNotMag => 4

/-- The code of a trace event (60_exceptions.md R87). -/
def Event.code : Event → Nat
  | .ambigTolerated _ _ => 1
  | .runAbort _ _ _ => 2
  | .runAtBufferEnd _ _ => 3
  | .frameDrop _ _ _ => 4
  | .bufferOverwrite => 5
  | .deliveryDropped => 6

/-! ### Cells (R45, R46) -/

/-- The 9-bit encoding of a cell. -/
def Cell.bits : Cell → BitVec 9
  | .mag v => v.setWidth 9
  | .zero => 0b1_0000_0000
  | .one => 0b1_0000_0001
  | .invalid => 0b1_0000_0010
  | .consumed => 0b1_0000_0011

/-- The cell a 9-bit value encodes; none for the reserved encodings of R52 item 1. -/
def Cell.ofBits (w : BitVec 9) : Option Cell :=
  if w.toNat < 256 then some (.mag (BitVec.ofNat 8 w.toNat))
  else if w.toNat = 256 then some .zero
  else if w.toNat = 257 then some .one
  else if w.toNat = 258 then some .invalid
  else if w.toNat = 259 then some .consumed
  else none

/-- `isMag(c)`. -/
def Cell.isMag : Cell → Bool
  | .mag _ => true
  | .zero | .one | .invalid | .consumed => false

/-- `isBit(c)`. -/
def Cell.isBit : Cell → Bool
  | .zero | .one => true
  | .mag _ | .invalid | .consumed => false

/-- `val(c)`: no value but of a `MAG` cell (R46), a fault otherwise (60_exceptions.md R88). -/
def Cell.val : Cell → Except Fault Byte
  | .mag v => .ok v
  | .zero | .one | .invalid | .consumed => .error .valNotMag

/-- `bitval(c) = 1`; the rules apply it to bit cells only. -/
def Cell.isOne : Cell → Bool
  | .one => true
  | .mag _ | .zero | .invalid | .consumed => false

/-- `mkbit(b)`. -/
def Cell.mkbit : Bool → Cell
  | true => .one
  | false => .zero

/-! ### Magnitude (R54) and classifier (R64) -/

/-- `mag(I, Q) = min(|I - 128| + |Q - 128|, 255)`, the sum in exact integers (00_scope.md R8). -/
def mag (i q : Byte) : Byte :=
  BitVec.ofNat 8 (min (((i.toNat : Int) - 128).natAbs + ((q.toNat : Int) - 128).natAbs) 255)

/-- `cls(a, b, c, d)`: the reference pair `(a, b)`, the current pair `(c, d)`. -/
def cls (a b c d : Byte) : Classified :=
  let bp := decide (a > b)
  let bc := decide (c > d)
  if bc && bp && decide (c > b) && decide (d < a) then .one
  else if bc && !bp && decide (c > a) && decide (d < b) then .one
  else if !bc && bp && decide (c < a) && decide (d > b) then .zero
  else if !bc && !bp && decide (c < b) && decide (d > a) then .zero
  else .ambig

/-! ### Frame bits (00_scope.md R9) -/

/-- The mask of `fbit t` within its octet: bit `7 - (t mod 8)`. -/
def fbitMask (t : Nat) : Byte := 1#8 <<< (7 - t % 8)

end Machine

end Sys2Proof
end

