-- ==== Sys2Proof/Machine/Ops.lean ====
section
/-! DEFINITION. The named operations over the address spaces (20_memory.md R30), over the registers, and over the
outcome of a step: a read that faults (60_exceptions.md R88), a refusal that marks the state (R89), a trace event (R87). -/

namespace Sys2Proof.Machine

/-- What a step answers. -/
abbrev Result := Host.Outcome State Fault Refusal

/-! ### Address spaces -/

/-- The element at index `k`, none if none is written. -/
def Memory.read {w : Nat} : Memory w → Nat → Option (BitVec w)
  | [], _ => none
  | (a, v) :: m, k => if a = k then some v else Memory.read m k

/-- Writes `x` at index `k`, keeping the indexes rising. -/
def Memory.write {w : Nat} : Memory w → Nat → BitVec w → Memory w
  | [], k, x => [(k, x)]
  | (a, v) :: m, k, x =>
    if k < a then (k, x) :: (a, v) :: m
    else if k = a then (k, x) :: m
    else (a, v) :: Memory.write m k x

/-- Writes a list of values at consecutive indexes from `k` (`MemWrite(space, k, n, v)`). -/
def Memory.writeList {w : Nat} : Memory w → Nat → List (BitVec w) → Memory w
  | m, _, [] => m
  | m, k, x :: xs => Memory.writeList (Memory.write m k x) (k + 1) xs

/-- Every listed index is at least `k` and the indexes rise strictly. -/
def Memory.wfFrom {w : Nat} : Nat → Memory w → Bool
  | _, [] => true
  | k, (a, _) :: m => decide (k ≤ a) && Memory.wfFrom (a + 1) m

/-- The canonical form: indexes strictly rising. An unlisted index reads as no value, so no listed one does. -/
def Memory.wf {w : Nat} (m : Memory w) : Bool := Memory.wfFrom 0 m

/-- Reads index `k` of a space with `size` elements; the two faults of R88 that a read can raise. The stop on an element
with no value is the spec's: R29 ("that read should fault"), R88 code 1, 93_implementation_defined.md I7. -/
def readAt {w : Nat} (size : Nat) (m : Memory w) (k : Nat) : Except Fault (BitVec w) :=
  if k < size then
    match m.read k with
    | some v => .ok v
    | none => .error .unwrittenRead
  else .error .indexRange

/-- Reads `count` consecutive elements from index `k` (`MemRead(space, k, count)`). -/
def readRange {w : Nat} (size : Nat) (m : Memory w) : (k count : Nat) → Except Fault (List (BitVec w))
  | _, 0 => .ok []
  | k, count + 1 =>
    match readAt size m k with
    | .error f => .error f
    | .ok v =>
      match readRange size m (k + 1) count with
      | .error f => .error f
      | .ok vs => .ok (v :: vs)

/-- Writes index `k` of a space with `size` elements. -/
def writeAt {w : Nat} (size : Nat) (m : Memory w) (k : Nat) (x : BitVec w) : Except Fault (Memory w) :=
  if k < size then .ok (m.write k x) else .error .indexRange

/-- Writes `x` at `count` consecutive indexes from `k`. -/
def fillAt {w : Nat} (size : Nat) (m : Memory w) (k count : Nat) (x : BitVec w) : Except Fault (Memory w) :=
  if k + count ≤ size then .ok (m.writeList k (List.replicate count x)) else .error .indexRange

/-- Reads a register that may hold no value; the spec stops the model there (R29, R88 code 1, 93_implementation_defined.md
I7, which lists these registers). -/
def readReg {α : Type} : Option α → Except Fault α
  | some v => .ok v
  | none => .error .unwrittenRead

/-! ### Sequencing -/

/-- Goes on with a value read, or raises the fault of the read (`raise Fault(reason)`, 00_scope.md R10). -/
def readThen {α : Type} (x : Except Fault α) (k : α → Result) : Result :=
  match x with
  | .ok a => k a
  | .error f => .fault f

/-- Records a refusal: the mark is set, nothing else changes, the run goes on (60_exceptions.md R89). -/
def refuse (m : RefusalMark) (s : State) : Result := .next { s with refusals := s.refusals ++ [m] }

/-- Appends an event to the trace (R87). -/
def State.record (s : State) (e : Event) : State := { s with events := s.events ++ [e] }

/-- Runs an operation within the session's configuration; before the first RESET it is refused `NOT_RESET`
(70_reset_and_hazards.md R101). -/
def session (s : State) (k : Config → Result) : Result :=
  match s.cfg with
  | some c => k c
  | none => refuse .notReset s

/-! ### Banks -/

/-- `bank[b]`. -/
def State.bank (s : State) : BankSel → Memory 8
  | .bank0 => s.bank0
  | .bank1 => s.bank1

/-- Replaces `bank[b]`. -/
def State.setBank (s : State) (b : BankSel) (m : Memory 8) : State :=
  match b with
  | .bank0 => { s with bank0 := m }
  | .bank1 => { s with bank1 := m }

/-- `bank[1 - land]`, the bank the worker owns (10_state.md R13, R14). -/
def State.workBank (s : State) : Memory 8 := s.bank s.land.other

/-- `bank[land]`, the bank deliveries write. -/
def State.landBank (s : State) : Memory 8 := s.bank s.land

/-- A byte of the work bank. -/
def readWork (c : Config) (s : State) (k : Nat) : Except Fault Byte := readAt c.L s.workBank k

/-! ### Cells -/

/-- Decodes the 9 bits read from the cell array; a reserved encoding faults (30_encoding.md R52 item 1). -/
def cellOfBits (w : BitVec 9) : Except Fault Cell :=
  match Cell.ofBits w with
  | some x => .ok x
  | none => .error .reservedCell

/-- `cell[k]`. -/
def readCell (c : Config) (s : State) (k : Nat) : Except Fault Cell :=
  match readAt c.N s.cell k with
  | .error f => .error f
  | .ok w => cellOfBits w

/-- `val(cell[k])`. -/
def readVal (c : Config) (s : State) (k : Nat) : Except Fault Byte :=
  match readCell c s k with
  | .error f => .error f
  | .ok x => x.val

/-- `cell[k] <- x`. -/
def writeCell (c : Config) (s : State) (k : Nat) (x : Cell) : Except Fault State :=
  match writeAt c.N s.cell k x.bits with
  | .error f => .error f
  | .ok m => .ok { s with cell := m }

/-- `cell[k .. k+count-1] <- x`. -/
def fillCells (c : Config) (s : State) (k count : Nat) (x : Cell) : Except Fault State :=
  match fillAt c.N s.cell k count x.bits with
  | .error f => .error f
  | .ok m => .ok { s with cell := m }

/-! ### Frame register -/

/-- `frame[o]`. -/
def readOctet (s : State) (o : Nat) : Except Fault Byte := readAt frameOctets s.frame o

/-- `frame[o] <- v`. -/
def writeOctet (s : State) (o : Nat) (v : Byte) : Except Fault State :=
  match writeAt frameOctets s.frame o v with
  | .error f => .error f
  | .ok m => .ok { s with frame := m }

/-- Sets `fbit t`, most significant bit of octet 0 first (20_memory.md R33). -/
def setFbit (s : State) (t : Nat) : Except Fault State :=
  match readOctet s (t / 8) with
  | .error f => .error f
  | .ok v => writeOctet s (t / 8) (v ||| fbitMask t)

/-- The record `Frame(octets, len)` that the frame port shows at EMIT: the octets and the resolved length
(30_encoding.md R50). -/
def State.presented (s : State) : Except Fault FrameRecord :=
  match readRange frameOctets s.frame 0 frameOctets with
  | .error f => .error f
  | .ok octets =>
    match readReg s.flen with
    | .error f => .error f
    | .ok len => .ok { octets := octets, len := len }

/-- All 14 octets cleared. -/
def clearedFrame (m : Memory 8) : Memory 8 := m.writeList 0 (List.replicate frameOctets 0#8)

/-! ### A taken exception's counterpart

The block has no trap, no saved state and no vector (60_exceptions.md R86). `refuse` and `readThen` above are all that
an error condition does to the model. -/

end Sys2Proof.Machine
end

