-- ==== Sys2Proof/Machine/Flags.lean ====
section
/-! DEFINITION. The one-bit conditions of the block: the readiness signal and the exit flag (10_state.md R15, R16,
45_handoff.md R77, R79), the sink's acceptance (44_frame.md R74), the end-of-run test of the assembler (R72, R73) and
the tolerance test of the decoder (43_manchester.md R66). -/

namespace Sys2Proof.Machine

/-- A waiting worker wakes: `pending = 1 or exitf = 1` (R79, 60_exceptions.md R92). -/
def State.wakes (s : State) : Bool := s.pending || s.exitf

/-- Raises the readiness signal from 0, or records that an untaken buffer was replaced (R77). -/
def State.signalReady (s : State) : State :=
  if s.pending then s.record .bufferOverwrite else { s with pending := true }

/-- The sink accepts a record now. -/
def State.sinkAccepts (s : State) : Bool :=
  match s.sinkAnswers with
  | [] => s.sinkThen
  | b :: _ => b

/-- The sink has given its current answer. -/
def State.sinkAsked (s : State) : State := { s with sinkAnswers := s.sinkAnswers.tail }

/-- The assembler's run continues at `j`: `j < N and isBit(cell[j]) and dcnt < flen` (R72), read left to right. -/
def runContinues (c : Config) (s : State) (j : Nat) : Except Fault Bool :=
  if j < c.N then
    match readCell c s j with
    | .error f => .error f
    | .ok x =>
      if x.isBit then
        match readReg s.dcnt, readReg s.flen with
        | .ok d, .ok len => .ok (decide (d < len.bits))
        | .error f, _ => .error f
        | _, .error f => .error f
      else .ok false
  else .ok false

/-- One more ambiguity would raise the error counter above `E` (R66, R67). -/
def overTolerance (c : Config) (err : Nat) : Bool := decide (err + 1 > c.E)

/-- `flen` after the eighth bit, from `frame[0][7]` (R72, 30_encoding.md R48). -/
def lenOfOctet0 (o : Byte) : FrameLen := if o.getLsbD 7 then .long else .short

/-- The frame has enough bits: `dcnt >= flen - 1` (R73). -/
def enoughBits (dcnt : Nat) (len : FrameLen) : Bool := decide (dcnt ≥ len.bits - 1)

end Sys2Proof.Machine
end

