-- ==== Sys2Proof/Machine/Assembler.lean ====
section
/-! DEFINITION. FrameAssembler (44_frame.md). -/

namespace Sys2Proof.Machine

/-- ASCAN (R71): the first bit cell starts an assembly; past the last cell the buffer is finished. -/
def execAscan (s : State) : Result :=
  session s fun c =>
    match s.phase with
    | .ascan j =>
      if j ≥ c.N then .next { s with phase := .wait }
      else
        readThen (readCell c s j) fun x =>
        if x.isBit then
          .next { s with frame := clearedFrame s.frame, dcnt := some 0, flen := some .long, phase := .arun j }
        else .next { s with phase := .ascan (j + 1) }
    | _ => .refused (.notEnabled "ASCAN")

/-- The length resolution of R72, on the step that collects the eighth bit. -/
def resolveLen (d : Nat) (s : State) : Except Fault State :=
  if d = 7 then
    match readOctet s 0 with
    | .error f => .error f
    | .ok o => .ok { s with flen := some (lenOfOctet0 o) }
  else .ok s

/-- The body of ARUN (R72), once the run is known to continue. -/
def collectBit (c : Config) (j : Nat) (s : State) : Result :=
  readThen (readCell c s j) fun x =>
  readThen (readReg s.dcnt) fun d =>
  readThen (if x.isOne then setFbit s d else .ok s) fun t =>
  readThen (resolveLen d t) fun u =>
  .next { u with dcnt := some (d + 1), phase := .arun (j + 1) }

/-- ARUN (R72), enabled only while the run continues. -/
def execArun (s : State) : Result :=
  session s fun c =>
    match s.phase with
    | .arun j =>
      readThen (runContinues c s j) fun go =>
      if go then collectBit c j s else .refused (.notEnabled "ARUN")
    | _ => .refused (.notEnabled "ARUN")

/-- The body of AEND (R73), once the run is known to have stopped. -/
def endRun (j : Nat) (s : State) : Result :=
  readThen (readReg s.dcnt) fun d =>
  readThen (readReg s.flen) fun len =>
  if enoughBits d len then .next { s with phase := .emit j }
  else .next ({ s with phase := .ascan (j + 1) }.record (.frameDrop j d len))

/-- AEND (R73), enabled exactly when ARUN is not. -/
def execAend (s : State) : Result :=
  session s fun c =>
    match s.phase with
    | .arun j =>
      readThen (runContinues c s j) fun go =>
      if go then .refused (.notEnabled "AEND") else endRun j s
    | _ => .refused (.notEnabled "AEND")

/-- EMIT (R74), jointly with the sink. While the sink does not accept, the worker stays in `EMIT(j)` holding its frame
(60_exceptions.md R91, notes/assumptions/7.md). -/
def execEmit (s : State) : Result :=
  session s fun _ =>
    match s.phase with
    | .emit j =>
      if s.sinkAccepts then
        readThen s.presented fun f =>
        .next { s.sinkAsked with port := s.port ++ [f], phase := .ascan (j + 1) }
      else .next s.sinkAsked
    | _ => .refused (.notEnabled "EMIT")

end Sys2Proof.Machine
end

