-- ==== Sys2Proof/Machine/Handoff.lean ====
section
/-! DEFINITION. BufferHandoff (45_handoff.md) and RESET (70_reset_and_hazards.md R100): the environment's operations and
the worker's wait and wake. -/

namespace Sys2Proof.Machine

/-- RESET (R100). A record that R90 makes illegal is refused `BAD_CONFIG`. Marks, trace, port and the inputs to come
are no elements of R11 and stay. -/
def execReset (l e seedA seedB : Nat) (s : State) : Result :=
  let c : Config := { L := l, E := e, seedA := seedA, seedB := seedB }
  if c.legal then
    .next { s with
      cfg := some c
      land := .bank0
      pending := false
      exitf := false
      phase := .wait
      bank0 := []
      bank1 := []
      cell := []
      start := none
      n := none
      ra := none
      rb := none
      err := none
      frame := []
      dcnt := none
      flen := none }
  else refuse .badConfig s

/-- DELIVER (R77): the length refusal comes before the cancel drop, the drop before any write
(60_exceptions.md R93 item 6). -/
def execDeliver (data : List Byte) (s : State) : Result :=
  session s fun c =>
    if data.length ≠ c.L then refuse .deliverLength s
    else if s.exitf then .next (s.record .deliveryDropped)
    else .next (s.setBank s.land (s.landBank.writeList 0 data)).signalReady

/-- CANCEL (R78). -/
def execCancel (s : State) : Result :=
  session s fun _ => .next { s with exitf := true }

/-- TAKE (R79); the exit wins over a pending buffer (60_exceptions.md R93 item 2). While nothing wakes it the worker
stays suspended in WAIT and nothing changes (R92, notes/assumptions/7.md). -/
def execTake (s : State) : Result :=
  session s fun _ =>
    match s.phase with
    | .wait =>
      if s.exitf then .next { s with phase := .done }
      else if s.pending then .next { s with land := s.land.other, pending := false, phase := .extract 0 }
      else .next s
    | _ => .refused (.notEnabled "TAKE")

end Sys2Proof.Machine
end

