-- ==== Sys2Proof/Machine/Magnitude.lean ====
section
/-! DEFINITION. MagnitudeExtractor (41_magnitude.md). -/

namespace Sys2Proof.Machine

/-- EXTRACT (R55): pair `k` of the work bank becomes cell `k`; after the last pair a preamble search begins. -/
def execExtract (s : State) : Result :=
  session s fun c =>
    match s.phase with
    | .extract k =>
      if k < c.N then
        readThen (readWork c s (2 * k)) fun i =>
        readThen (readWork c s (2 * k + 1)) fun q =>
        readThen (writeCell c s k (.mag (mag i q))) fun t =>
        .next { t with phase := .extract (k + 1) }
      else .next { s with err := some 0, phase := .search 0 }
    | _ => .refused (.notEnabled "EXTRACT")

end Sys2Proof.Machine
end

