-- ==== Sys2Proof/Machine/Manchester.lean ====
section
/-! DEFINITION. ManchesterDecoder (43_manchester.md). -/

namespace Sys2Proof.Machine

/-- `abort(p)` (R67): the output position is marked, the failing pair stays. -/
def decodeAbort (c : Config) (p err : Nat) (s : State) : Result :=
  readThen (readReg s.start) fun st =>
  readThen (readReg s.n) fun m =>
  readThen (writeCell c s (st + m) .invalid) fun t =>
  .next ({ t with err := some 0, phase := .search p }.record (.runAbort p m (err + 1)))

/-- The last lines of R66: the pair is consumed and the bit written at the output position, in this order, so that the
bit of the run's first pair overwrites the mark just made. -/
def decodeBit (c : Config) (p : Nat) (bit : Bool) (s : State) : Result :=
  readThen (readReg s.start) fun st =>
  readThen (readReg s.n) fun m =>
  readThen (writeCell c s p .consumed) fun t =>
  readThen (writeCell c t (p + 1) .consumed) fun u =>
  readThen (writeCell c u (st + m) (Cell.mkbit bit)) fun v =>
  .next { v with n := some (m + 1), phase := .decode (p + 2) }

/-- An ambiguous pair (R66, R67): the abort test comes before the substitution (60_exceptions.md R93 item 3). -/
def decodeAmbig (c : Config) (p : Nat) (s : State) : Result :=
  readThen (readReg s.err) fun e =>
  if overTolerance c e then decodeAbort c p e s
  else decodeBit c p false ({ s with err := some (e + 1), ra := some 0, rb := some 255 }.record (.ambigTolerated p (e + 1)))

/-- A pair that decodes: it becomes the reference pair (R66). -/
def decodeClear (c : Config) (p : Nat) (bit : Bool) (x y : Byte) (s : State) : Result :=
  decodeBit c p bit { s with ra := some x, rb := some y }

/-- DECODE (R66): the buffer-end test comes before the classification (60_exceptions.md R93 item 3). -/
def execDecode (s : State) : Result :=
  session s fun c =>
    match s.phase with
    | .decode p =>
      if p + 1 ≥ c.N then
        .next ({ s with err := some 0, phase := .search p }.record (.runAtBufferEnd p s.n))
      else
        readThen (readVal c s p) fun x =>
        readThen (readVal c s (p + 1)) fun y =>
        readThen (readReg s.ra) fun a =>
        readThen (readReg s.rb) fun b =>
        match cls a b x y with
        | .ambig => decodeAmbig c p s
        | .one => decodeClear c p true x y s
        | .zero => decodeClear c p false x y s
    | _ => .refused (.notEnabled "DECODE")

end Sys2Proof.Machine
end

