-- ==== Sys2Proof/Machine/Preamble.lean ====
section
/-! DEFINITION. PreambleDetector (42_preamble.md). -/

namespace Sys2Proof.Machine

/-- The running low-floor after the sample at offset `o`: only a low offset raises it. -/
def lowFloor (o lo : Nat) (v : Byte) : Nat := if isHighOff o then lo else max lo v.toNat

/-- The running high-ceiling after the sample at offset `o`: only a high offset lowers it. -/
def highCeiling (o hi : Nat) (v : Byte) : Nat := if isHighOff o then min hi v.toNat else hi

/-- The scan of R58 over the remaining offsets, with its running low-floor and high-ceiling and its early exit. -/
def preScan (c : Config) (s : State) (i : Nat) : (offs : List Nat) → (lo hi : Nat) → Except Fault Bool
  | [], _, _ => .ok true
  | o :: offs, lo, hi =>
    match readCell c s (i + o) with
    | .error f => .error f
    | .ok (.mag v) =>
      if highCeiling o hi v ≤ lowFloor o lo v then .ok false
      else preScan c s i offs (lowFloor o lo v) (highCeiling o hi v)
    | .ok .zero | .ok .one | .ok .invalid | .ok .consumed => .ok false

/-- `pre(i)` (R58). -/
def pre (c : Config) (s : State) (i : Nat) : Except Fault Bool := preScan c s i (List.range preLen) 0 255

/-- `match(i)` (R62): the seeds are read before the window is marked. -/
def searchMatch (c : Config) (i : Nat) (s : State) : Result :=
  readThen (readVal c s (i + c.seedA)) fun a =>
  readThen (readVal c s (i + c.seedB)) fun b =>
  readThen (fillCells c s i preLen .consumed) fun t =>
  .next { t with ra := some a, rb := some b, start := some (i + 16), n := some 0, phase := .decode (i + 16) }

/-- SEARCH (R61): the window-fit test comes before the match (60_exceptions.md R93 item 4). -/
def execSearch (s : State) : Result :=
  session s fun c =>
    match s.phase with
    | .search i =>
      if i + 16 > c.N then .next { s with phase := .ascan 0 }
      else
        readThen (pre c s i) fun found =>
        if found then searchMatch c i s else .next { s with phase := .search (i + 1) }
    | _ => .refused (.notEnabled "SEARCH")

end Sys2Proof.Machine
end

