-- ==== Sys2Proof/Machine/Dispatch.lean ====
section
/-! DEFINITION. The meaning of every operation of 30_encoding.md R42, one arm each. -/

namespace Sys2Proof.Machine

def exec (i : Instr) (s : State) : Host.Outcome State Fault Refusal :=
  match i with
  | .reset l e seedA seedB => Sys2Proof.Machine.execReset l e seedA seedB s
  | .deliver data => Sys2Proof.Machine.execDeliver data s
  | .cancel => Sys2Proof.Machine.execCancel s
  | .take => Sys2Proof.Machine.execTake s
  | .extract => Sys2Proof.Machine.execExtract s
  | .search => Sys2Proof.Machine.execSearch s
  | .decode => Sys2Proof.Machine.execDecode s
  | .ascan => Sys2Proof.Machine.execAscan s
  | .arun => Sys2Proof.Machine.execArun s
  | .aend => Sys2Proof.Machine.execAend s
  | .emit => Sys2Proof.Machine.execEmit s

end Sys2Proof.Machine
end

