-- ==== Sys2Proof/Machine/Fetch.lean ====
section
/-! DEFINITION. Which operation runs next. The spec interleaves its agents freely (00_scope.md R5, 60_exceptions.md R93
item 1); the choice is data of State (DESIGN CHOICE, notes/assumptions/5.md): the schedule's next record while there is
one, and the worker's own enabled operation once the environment is silent. -/

namespace Sys2Proof.Machine

/-- The operation the worker takes in its phase (30_encoding.md R42: at most one is enabled), none in `DONE` and none
before the first RESET. In `WAIT` it is TAKE and in `EMIT` it is EMIT, whose meanings wait while they must. -/
def workerOp (s : State) : Except Fault (Option Instr) :=
  match s.cfg with
  | none => .ok none
  | some c =>
    match s.phase with
    | .wait => .ok (some .take)
    | .extract _ => .ok (some .extract)
    | .search _ => .ok (some .search)
    | .decode _ => .ok (some .decode)
    | .ascan _ => .ok (some .ascan)
    | .arun j =>
      match runContinues c s j with
      | .error f => .error f
      | .ok go => .ok (some (if go then .arun else .aend))
    | .emit _ => .ok (some .emit)
    | .done => .ok none

/-- A step of the worker alone; with no operation of its own (`DONE`, or no session) nothing changes. -/
def stepWorker (s : State) : Result :=
  readThen (workerOp s) fun op =>
  match op with
  | some i => exec i s
  | none => .next s

/-- A step of the schedule: its next record is taken off and performed. A reserved code is refused `RESERVED_OP`
(60_exceptions.md R89) and its code byte taken off. -/
def stepScript (s : State) : Result :=
  match decode s.script with
  | .ok (i, rest) => exec i { s with script := rest }
  | .error (.reservedOp code rest) => refuse (.reservedOp code) { s with script := rest }
  | .error (.bad why) => .refused (.malformedRecord why)

end Sys2Proof.Machine
end

