-- ==== Sys2Proof/Machine/Load.lean ====
section
/-! DEFINITION. How an operation comes to be the next one. The block has no program memory: an operation record is put
at the head of the schedule, and a worker operation can only be taken where R42's "enabled when" column holds, so the
worker is put there (DESIGN CHOICE, notes/assumptions/18.md). An operation that is already enabled needs nothing, and
neither does any operation of the environment. -/

namespace Sys2Proof.Machine

/-- TAKE: the worker waits and a buffer is pending, unless the exit flag wakes it anyway. -/
def readyTake (s : State) : State :=
  match s.phase with
  | .wait => if s.wakes then s else { s with pending := true }
  | _ => { s with phase := .wait, pending := true }

/-- EXTRACT at the end of its pass, where it reads no sample. -/
def readyExtract (c : Config) (s : State) : State :=
  match s.phase with
  | .extract _ => s
  | _ => { s with phase := .extract c.N }

/-- SEARCH at the end of its pass, where no window remains. -/
def readySearch (c : Config) (s : State) : State :=
  match s.phase with
  | .search _ => s
  | _ => { s with phase := .search c.N }

/-- DECODE at the buffer end, where no pair remains. -/
def readyDecode (c : Config) (s : State) : State :=
  match s.phase with
  | .decode _ => s
  | _ => { s with phase := .decode c.N }

/-- ASCAN past the last cell. -/
def readyAscan (c : Config) (s : State) : State :=
  match s.phase with
  | .ascan _ => s
  | _ => { s with phase := .ascan c.N }

/-- ARUN: an assembly just started (R71) on a bit cell at 0. -/
def readyArun (c : Config) (s : State) : State :=
  let fresh : State := { s with
    phase := .arun 0
    cell := s.cell.write 0 Cell.zero.bits
    frame := clearedFrame s.frame
    dcnt := some 0
    flen := some .long }
  match s.phase with
  | .arun j =>
    match runContinues c s j with
    | .ok true => s
    | _ => fresh
  | _ => fresh

/-- AEND: an assembly just started (R71) at the end of the cells. -/
def readyAend (c : Config) (s : State) : State :=
  let fresh : State := { s with
    phase := .arun c.N
    frame := clearedFrame s.frame
    dcnt := some 0
    flen := some .long }
  match s.phase with
  | .arun j =>
    match runContinues c s j with
    | .ok false => s
    | _ => fresh
  | _ => fresh

/-- EMIT: a cleared frame waits and the sink accepts. -/
def readyEmit (c : Config) (s : State) : State :=
  match s.phase with
  | .emit _ => if s.sinkAccepts then s else { s with sinkAnswers := true :: s.sinkAnswers }
  | _ =>
    let t : State := { s with
      phase := .emit c.N
      frame := clearedFrame s.frame
      dcnt := some 112
      flen := some .long }
    if s.sinkAccepts then t else { t with sinkAnswers := true :: s.sinkAnswers }

/-- Puts the worker where `i` is enabled. -/
def State.ready (s : State) (i : Instr) : State :=
  match s.cfg with
  | none => s
  | some c =>
    match i with
    | .reset _ _ _ _ | .deliver _ | .cancel => s
    | .take => readyTake s
    | .extract => readyExtract c s
    | .search => readySearch c s
    | .decode => readyDecode c s
    | .ascan => readyAscan c s
    | .arun => readyArun c s
    | .aend => readyAend c s
    | .emit => readyEmit c s

end Sys2Proof.Machine
end

