-- ==== Sys2Proof/Machine/Step.lean ====
section
/-! DEFINITION. One step of the machine, and how an instruction comes to be its next one. -/

namespace Sys2Proof.Machine

/-- One step: the schedule's next record, or, when the schedule is used up, the worker's own step. -/
def step (s : State) : Host.Outcome State Fault Refusal :=
  match s.script with
  | [] => stepWorker s
  | _ :: _ => stepScript s

/-- `s` with the operation record of the table's word `w` as its whole schedule, and the worker where that operation is
enabled. The bytes that the decoder leaves over (zeros) are not kept; bytes it refuses are kept whole. -/
def State.withFetchWord (s : State) (nbits w : Nat) : State :=
  match decode (tableBytes nbits w) with
  | .ok (i, rest) =>
    { s.ready i with script := (tableBytes nbits w).take ((tableBytes nbits w).length - rest.length) }
  | .error _ => { s with script := tableBytes nbits w }

end Sys2Proof.Machine
end

