-- ==== Sys2Proof/Machine/FramePort.lean ====
section
/-! DEFINITION. What the sink can read off a frame record (30_encoding.md R47 to R51). The block reads none of it but
`fbit 0` (R49); the raw line is a sink-side reference (R51). -/

namespace Sys2Proof.Machine

/-- Octet `o` of a record; a record of the block has 14. -/
def FrameRecord.octet (f : FrameRecord) (o : Nat) : Byte := f.octets.getD o 0

/-- `fbit t = frame[t div 8][7 - (t mod 8)]` (00_scope.md R9). -/
def FrameRecord.fbit (f : FrameRecord) (t : Nat) : Bool := (f.octet (t / 8)).getLsbD (7 - t % 8)

/-- `df(f) = f[0][7:3]`. -/
def FrameRecord.df (f : FrameRecord) : BitVec 5 := (f.octet 0).extractLsb' 3 5

/-- `ca(f) = f[0][2:0]`. -/
def FrameRecord.ca (f : FrameRecord) : BitVec 3 := (f.octet 0).extractLsb' 0 3

/-- `icao(f) = f[1] ++ f[2] ++ f[3]`, big-endian (20_memory.md R33). -/
def FrameRecord.icao (f : FrameRecord) : BitVec 24 := f.octet 1 ++ f.octet 2 ++ f.octet 3

/-- `pi(f) = f[11] ++ f[12] ++ f[13]`, meaningful only when the length is 112. -/
def FrameRecord.pi (f : FrameRecord) : BitVec 24 := f.octet 11 ++ f.octet 12 ++ f.octet 13

/-- `tc(f) = f[4][7:3]`. PRESUMED: the spec marks the position as general knowledge (notes/assumptions/20.md). -/
def FrameRecord.tc (f : FrameRecord) : BitVec 5 := (f.octet 4).extractLsb' 3 5

/-- `st(f) = f[4][2:0]`. PRESUMED, as `tc`. -/
def FrameRecord.st (f : FrameRecord) : BitVec 3 := (f.octet 4).extractLsb' 0 3

/-- The `len` bit of the record: 0 for 56 and 1 for 112 (R50). -/
def FrameLen.bit : FrameLen → BitVec 1
  | .short => 0
  | .long => 1

/-- The record as a 113-bit word, `frame[0] ++ … ++ frame[13] ++ len` (R50). -/
def FrameRecord.word (f : FrameRecord) : BitVec 113 :=
  f.octet 0 ++ f.octet 1 ++ f.octet 2 ++ f.octet 3 ++ f.octet 4 ++ f.octet 5 ++ f.octet 6 ++ f.octet 7 ++
    f.octet 8 ++ f.octet 9 ++ f.octet 10 ++ f.octet 11 ++ f.octet 12 ++ f.octet 13 ++ f.len.bit

/-- The ASCII code of one upper-case hex digit. -/
def hexDigit (x : Nat) : Byte := if x < 10 then BitVec.ofNat 8 (0x30 + x) else BitVec.ofNat 8 (0x41 + (x - 10))

/-- `HEX(x)`: the high nibble, then the low one. -/
def hexPair (x : Byte) : List Byte := [hexDigit (x.toNat / 16), hexDigit (x.toNat % 16)]

/-- The raw line `*` hex `;` CR LF of a record, as ASCII bytes (R51). -/
def FrameRecord.rawLine (f : FrameRecord) : List Byte :=
  [0x2A] ++ ((List.range (f.len.bits / 8)).map fun o => hexPair (f.octet o)).flatten ++ [0x3B, 0x0D, 0x0A]

end Sys2Proof.Machine
end

