-- ==== Sys2Proof/Machine/OperationRecord.lean ====
section
/-! DEFINITION. An operation as a record of a trace (30_encoding.md R43): its code, then its operands, among them what
EMIT carries toward the sink. A schedule (Decode.lean) holds the operations to come, so its record of EMIT is the code
alone; a trace holds the operations performed, so its record of EMIT holds the frame record as well. The bytes of a
frame record are DESIGN CHOICE (notes/assumptions/24.md): the 14 octets in order, then a byte whose bit 0 is the length
bit of R50. -/

namespace Sys2Proof.Machine

/-- An operation performed, with the record of R50 that it carried toward the sink; only EMIT carries one. -/
structure TraceRecord where
  op : Instr
  carried : Option FrameRecord
deriving DecidableEq, Repr

/-- EMIT carries a record of 14 octets and no other operation carries one; the operands fit R43's fields. -/
def TraceRecord.wellFormed (r : TraceRecord) : Bool :=
  r.op.wellFormed &&
    match r.carried with
    | some f => decide (r.op = .emit) && decide (f.octets.length = frameOctets)
    | none => decide (r.op ≠ .emit)

/-! ### Bytes -/

/-- A frame record as bytes. -/
def FrameRecord.bytes (f : FrameRecord) : List Byte := f.octets ++ [f.len.bit.setWidth 8]

/-- The length a length byte stands for, none if a bit above the length bit is set. -/
def frameLenOfByte (b : Byte) : Option FrameLen :=
  if b = 0 then some .short else if b = 1 then some .long else none

/-- A frame record and the bytes after it. -/
def decodeFrameRecord (bs : List Byte) : Except DecodeError (FrameRecord × List Byte) :=
  match bs.drop frameOctets with
  | [] => .error (.bad .truncated)
  | b :: rest =>
    match frameLenOfByte b with
    | some len => .ok ({ octets := bs.take frameOctets, len := len }, rest)
    | none => .error (.bad .padding)

/-- A trace record as bytes: the operation's record, then what it carried. -/
def TraceRecord.bytes (r : TraceRecord) : List Byte :=
  encode r.op ++
    match r.carried with
    | some f => f.bytes
    | none => []

/-- The first trace record of a byte list, and the bytes after it. A reserved code is refused here too
(30_encoding.md R52 item 2). -/
def decodeTraceRecord (bs : List Byte) : Except DecodeError (TraceRecord × List Byte) :=
  match decode bs with
  | .error e => .error e
  | .ok (i, rest) =>
    if i = .emit then
      match decodeFrameRecord rest with
      | .error e => .error e
      | .ok (f, rest') => .ok ({ op := i, carried := some f }, rest')
    else .ok ({ op := i, carried := none }, rest)

/-! ### The trace of a run -/

/-- What an operation carries toward the sink. -/
def carriedBy (i : Instr) (s : State) : Option FrameRecord :=
  match i with
  | .emit => s.presented.toOption
  | .reset _ _ _ _ | .deliver _ | .cancel | .take | .extract | .search | .decode | .ascan | .arun | .aend => none

/-- Whether an operation that answers a next state is performed by it: it is neither refused with a mark
(60_exceptions.md R89) nor waited for (TAKE with nothing to wake it, EMIT before a sink that does not accept:
30_encoding.md R42, notes/assumptions/7.md). -/
def performs (i : Instr) (s : State) : Bool :=
  match i, s.cfg with
  | .reset l e seedA seedB, _ => Config.legal { L := l, E := e, seedA := seedA, seedB := seedB }
  | .deliver data, some c => decide (data.length = c.L)
  | .take, some _ => s.wakes
  | .emit, some _ => s.sinkAccepts
  | .cancel, some _ | .extract, some _ | .search, some _ | .decode, some _ | .ascan, some _ | .arun, some _
  | .aend, some _ => true
  | .deliver _, none | .cancel, none | .take, none | .extract, none | .search, none | .decode, none | .ascan, none
  | .arun, none | .aend, none | .emit, none => false

/-- The trace records of operations in a row, up to the first that answers no next state. -/
def traceOf : List Instr → State → List TraceRecord
  | [], _ => []
  | i :: is, s =>
    match exec i s with
    | .next t => (if performs i s then [{ op := i, carried := carriedBy i s }] else []) ++ traceOf is t
    | .fault _ | .refused _ => []

end Sys2Proof.Machine
end

