-- ==== Sys2Proof/Machine/Stimulus.lean ====
section
/-! DEFINITION. The stimulus notation of 30_encoding.md R53, as terms: the byte expressions it expands and the
statements it runs. The text of a line is not parsed, and EXPECT lines are assertions of a test, no operations. -/

namespace Sys2Proof.Machine

/-- `IQ(m)`: the sample pair for magnitude `m`, `0 ≤ m ≤ 255`. -/
def stimIQ (m : Nat) : List Byte :=
  if m ≤ 254 then [BitVec.ofNat 8 (128 + m - m / 2), BitVec.ofNat 8 (128 + m / 2)] else [0, 255]

/-- `MAGS(m0, m1, …)`. -/
def stimMags (ms : List Nat) : List Byte := (ms.map stimIQ).flatten

/-- `REP(m, count)`. -/
def stimRep (m count : Nat) : List Byte := stimMags (List.replicate count m)

/-- `PRE(h, l)`. -/
def stimPre (h l : Nat) : List Byte := stimMags [h, l, h, l, l, l, l, h, l, h, l, l, l, l, l, l]

/-- `MANB(bits, h, l)`. -/
def stimManb (bits : List Bool) (h l : Nat) : List Byte :=
  (bits.map fun b => if b then stimIQ h ++ stimIQ l else stimIQ l ++ stimIQ h).flatten

/-- The bits of a byte, most significant first. -/
def byteBits (x : Byte) : List Bool := (List.range 8).map fun t => x.getLsbD (7 - t)

/-- `MAN(hex, h, l)`, the hex digits given as octets. -/
def stimMan (octets : List Byte) (h l : Nat) : List Byte := stimManb (octets.map byteBits).flatten h l

/-- A statement of the notation that acts on the block. -/
inductive Stimulus
  | reset (l e seedA seedB : Nat)
  | deliver (data : List Byte)
  | cancel
  /-- `STEP`: one enabled worker step -/
  | step
  /-- `RUN`: worker steps until the phase is `WAIT` or `DONE`, the sink accepting at every EMIT of it -/
  | run
deriving DecidableEq, Repr

/-- The worker's steps of a `RUN`, at most `fuel` of them. -/
def runWorker : (fuel : Nat) → State → Result
  | 0, s => .next s
  | fuel + 1, s =>
    match stepWorker s with
    | .next t => if t.phase = .wait ∨ t.phase = .done then .next t else runWorker fuel t
    | .fault f => .fault f
    | .refused r => .refused r

/-- The steps a `RUN` may need: R104's bound. -/
def runFuel (s : State) : Nat :=
  match s.cfg with
  | some c => 6 * c.N + 10
  | none => 1

/-- One statement. R53 says that the sink accepts at every EMIT of a `RUN` and nothing of the sink afterwards.
DESIGN CHOICE (notes/assumptions/23.md): a `RUN` drops the answers of the sink still to come and leaves it accepting
for ever after. -/
def Stimulus.perform (x : Stimulus) (s : State) : Result :=
  match x with
  | .reset l e seedA seedB => exec (.reset l e seedA seedB) s
  | .deliver data => exec (.deliver data) s
  | .cancel => exec .cancel s
  | .step => stepWorker s
  | .run => runWorker (runFuel s) { s with sinkAnswers := [], sinkThen := true }

/-- A list of statements, stopping at the first fault or refusal. -/
def runStimuli : List Stimulus → State → Result
  | [], s => .next s
  | x :: xs, s =>
    match x.perform s with
    | .next t => runStimuli xs t
    | .fault f => .fault f
    | .refused r => .refused r

end Sys2Proof.Machine
end

