-- ==== Sys2Proof/Safety.lean ====
section
/-! DEFINITION. The terms claims about runs use: rest (70_reset_and_hazards.md R102), the invariant of every reachable
state (10_state.md R28, with what R13, R19 to R24, R29 and R80 derive about it), the reference functions the spec
gives for a whole pass (R59, R76, R104), and the fair runs of R103. -/

namespace Sys2Proof.Machine

/-! ### Views of the state -/

/-- Cell `k` holds `x`. -/
def State.CellIs (s : State) (k : Nat) (x : Cell) : Prop := s.cell.read k = some x.bits

/-- Cell `k` holds a magnitude. -/
def State.MagAt (s : State) (k : Nat) : Prop := ∃ v, s.CellIs k (.mag v)

/-- Cell `k` holds a bit. -/
def State.BitAt (s : State) (k : Nat) : Prop := s.CellIs k .zero ∨ s.CellIs k .one

/-- Every index below `size` of an address space holds a value. -/
def Memory.FullTo {w : Nat} (m : Memory w) (size : Nat) : Prop := ∀ k, k < size → ∃ v, m.read k = some v

/-- No index from `size` on is listed. -/
def Memory.Within {w : Nat} (m : Memory w) (size : Nat) : Prop := ∀ k, size ≤ k → m.read k = none

/-- `fbit t` of a frame register (00_scope.md R9). -/
def Memory.fbit (frame : Memory 8) (t : Nat) : Option Bool := (frame.read (t / 8)).map fun v => v.getLsbD (7 - t % 8)

/-! ### Rest (R102) -/

/-- The worker's resting states, with no refusal recorded. A faulted run has no state at all. -/
def State.AtRest (s : State) : Prop :=
  (s.phase = .done ∨ (s.phase = .wait ∧ s.pending = false ∧ s.exitf = false)) ∧ s.refusals = []

/-! ### The invariant (R28) -/

/-- Every cell of the array holds one of R45's cells. -/
def CellsFull (c : Config) (s : State) : Prop := ∀ k, k < c.N → ∃ x, s.CellIs k x

/-- What holds of the frame register while an assembly has collected `d` bits toward the target `len`
(R24, R71, R72, R28 item 6). -/
structure AssemblyInv (frame : Memory 8) (d : Nat) (len : FrameLen) : Prop where
  full : frame.FullTo 14
  le_len : d ≤ len.bits
  provisional : d < 8 → len = .long
  /-- the frame was cleared, so a bit not collected reads 0 -/
  rest_zero : ∀ t, d ≤ t → t < 112 → frame.fbit t = some false
  /-- the length is the one frame bit 0 fixes (30_encoding.md R48) -/
  resolved : 8 ≤ d → (len = .long ↔ frame.fbit 0 = some true)

/-- What holds in each phase (R28 items 3, 4 and 6, R13, R19, R22, R80). -/
def PhaseInv (c : Config) (s : State) : Phase → Prop
  | .wait => True
  | .done => s.exitf = true
  | .extract k => k ≤ c.N ∧ s.workBank.FullTo c.L ∧ ∀ q, q < k → s.MagAt q
  | .search i =>
      i ≤ c.N ∧ s.err = some 0 ∧ CellsFull c s ∧ (∀ q, i < q → q < c.N → s.MagAt q) ∧
        (i < c.N → s.MagAt i ∨ s.CellIs i .invalid)
  | .decode p =>
      ∃ st m e a b, s.start = some st ∧ s.n = some m ∧ s.err = some e ∧ s.ra = some a ∧ s.rb = some b ∧
        p = st + 2 * m ∧ p ≤ c.N ∧ e ≤ c.E ∧ CellsFull c s ∧
        (∀ q, p ≤ q → q < c.N → s.MagAt q) ∧
        (∀ q, st ≤ q → q < st + m → s.BitAt q) ∧
        (∀ q, st + m ≤ q → q < p → s.CellIs q .consumed)
  | .ascan j => j ≤ c.N + 1 ∧ CellsFull c s
  | .arun j => j ≤ c.N ∧ CellsFull c s ∧ ∃ d len, s.dcnt = some d ∧ s.flen = some len ∧ AssemblyInv s.frame d len
  | .emit j =>
      j ≤ c.N ∧ CellsFull c s ∧
        ∃ d len, s.dcnt = some d ∧ s.flen = some len ∧ AssemblyInv s.frame d len ∧ len.bits - 1 ≤ d

/-- What holds within a session. -/
structure SessionInv (c : Config) (s : State) : Prop where
  legal : c.legal = true
  bank_within : ∀ b, (s.bank b).Within c.L
  cell_within : s.cell.Within c.N
  frame_within : s.frame.Within 14
  /-- no cell holds a reserved encoding (R28 item 5) -/
  no_reserved : ∀ k w, s.cell.read k = some w → ∃ x : Cell, w = x.bits
  /-- an untaken delivery fills the landing bank (R13) -/
  delivered : s.pending = true → s.landBank.FullTo c.L
  phase : PhaseInv c s s.phase

/-- The invariant of every reachable state: the address spaces are in canonical form, and within a session the rest
of R28 holds. -/
structure Invariant (s : State) : Prop where
  bank_wf : ∀ b, (s.bank b).wf = true
  cell_wf : s.cell.wf = true
  frame_wf : s.frame.wf = true
  session : ∀ c, s.cfg = some c → SessionInv c s

/-! ### Reference functions -/

/-- Several operations in a row, stopping at the first fault or refusal. -/
def runOps : List Instr → State → Result
  | [], s => .next s
  | i :: is, s =>
    match exec i s with
    | .next t => runOps is t
    | .fault f => .fault f
    | .refused r => .refused r

/-- Several steps in a row, stopping at the first fault or refusal. -/
def runSteps : Nat → State → Result
  | 0, s => .next s
  | k + 1, s =>
    match step s with
    | .next t => runSteps k t
    | .fault f => .fault f
    | .refused r => .refused r

/-- The environment is silent: no scheduled operation, and a sink that accepts every record. -/
def State.Undisturbed (s : State) : Prop := s.script = [] ∧ s.sinkAnswers = [] ∧ s.sinkThen = true

/-- The slot of the capacity-1 channel that the handoff is (45_handoff.md R84): the landing bank's `L` bytes while a
buffer is pending. -/
def State.slot (c : Config) (s : State) : Option (List (Option Byte)) :=
  if s.pending then some ((List.range c.L).map s.landBank.read) else none

/-- R42's "enabled when" column for the worker's operations, the sink's acceptance for EMIT included. -/
def workerEnabled (c : Config) (s : State) : Instr → Prop
  | .reset _ _ _ _ | .deliver _ | .cancel => False
  | .take => s.phase = .wait ∧ (s.pending = true ∨ s.exitf = true)
  | .extract => ∃ k, s.phase = .extract k
  | .search => ∃ i, s.phase = .search i
  | .decode => ∃ p, s.phase = .decode p
  | .ascan => ∃ j, s.phase = .ascan j
  | .arun => ∃ j, s.phase = .arun j ∧ runContinues c s j = .ok true
  | .aend => ∃ j, s.phase = .arun j ∧ runContinues c s j = .ok false
  | .emit => ∃ j, s.phase = .emit j ∧ s.sinkAccepts = true

/-- Whatever the agents do until the worker returns to `WAIT`, exactly `frames` are presented: over every list of
operations that holds no TAKE and no RESET (deliveries, cancels, refused inputs and EMITs before a sink that does not
accept may fall anywhere in it), and over the model's own steps with no schedule and a sink that may delay any number of
times (notes/assumptions/5.md, 6.md, 7.md), which do return to `WAIT`. -/
def State.FinishesWith (s : State) (frames : List FrameRecord) : Prop :=
  (∀ (ops : List Instr) (t : State), (∀ i ∈ ops, i ≠ .take ∧ ∀ l e a b, i ≠ .reset l e a b) →
    runOps ops s = .next t → t.phase = .wait → t.port = s.port ++ frames) ∧
  (s.script = [] → s.sinkThen = true →
    ∃ k t, runSteps k s = .next t ∧ t.phase = .wait ∧ t.port = s.port ++ frames)

/-- The phases that may follow a phase, the cursors included (10_state.md R18). -/
def Phase.follows : Phase → Phase → Prop
  | .wait, q => q = .extract 0 ∨ q = .done
  | .extract k, q => q = .extract (k + 1) ∨ q = .search 0
  | .search i, q => q = .search (i + 1) ∨ q = .decode (i + 16) ∨ q = .ascan 0
  | .decode p, q => q = .decode (p + 2) ∨ q = .search p
  | .ascan j, q => q = .ascan (j + 1) ∨ q = .arun j ∨ q = .wait
  | .arun j, q => q = .arun (j + 1) ∨ q = .emit j ∨ q = .ascan (j + 1)
  | .emit j, q => q = .ascan (j + 1)
  | .done, _ => False

/-! ### Fair runs (70_reset_and_hazards.md R103)

A run of any length, unending ones included, in which every agent may move at any time (notes/assumptions/22.md). The
schedule of State plays no part in it: a run says itself which operation is performed. -/

/-- The agents of 00_scope.md R5. -/
inductive Agent
  | acq
  | ctl
  | wrk
  | snk
deriving DecidableEq, Repr

/-- R42's agent column: whether an operation is a step of an agent. EMIT is a joint step. -/
def Agent.takes : Agent → Instr → Prop
  | .acq, i => ∃ data, i = .deliver data
  | .ctl, i => i = .cancel ∨ ∃ l e a b, i = .reset l e a b
  | .wrk, i => i.isWorker = true
  | .snk, i => i = .emit

/-- R42's "enabled when" column. -/
def State.enables (s : State) (i : Instr) : Prop :=
  match i with
  | .reset _ _ _ _ => True
  | .deliver _ | .cancel => ∃ c, s.cfg = some c
  | .take | .extract | .search | .decode | .ascan | .arun | .aend | .emit => ∃ c, s.cfg = some c ∧ workerEnabled c s i

/-- The two states differ at most in what the sink is going to answer, which the sink may change at any time. -/
def State.SameButSink (s t : State) : Prop :=
  t = { s with sinkAnswers := t.sinkAnswers, sinkThen := t.sinkThen }

/-- The states of a run, and the operation performed between one and the next; none where no agent moves, so that a run
that ends is a run too. -/
structure Run where
  state : Nat → State
  op : Nat → Option Instr

/-- Every operation of the run is enabled where it is performed and leads to the next state. -/
def Run.Valid (r : Run) : Prop :=
  ∀ k, match r.op k with
    | some i => (r.state k).enables i ∧ ∃ t, exec i (r.state k) = .next t ∧ t.SameButSink (r.state (k + 1))
    | none => (r.state k).SameButSink (r.state (k + 1))

/-- Weak fairness for an agent: an operation (by its code) of the agent that stays enabled from some point on is
eventually taken. -/
def Run.WeaklyFair (r : Run) (a : Agent) : Prop :=
  ∀ (code : Code) (m : Nat),
    (∀ k, m ≤ k → ∃ i, a.takes i ∧ i.code = code ∧ (r.state k).enables i) →
    ∃ k i, m ≤ k ∧ a.takes i ∧ i.code = code ∧ r.op k = some i

/-- R103's assumption as it is worded, for every agent: taken literally it makes the environment's operations, which
are always enabled, recur. R103's conclusions need the worker's part alone. -/
def Run.Fair (r : Run) : Prop := ∀ a, r.WeaklyFair a

/-- From position `m` on the sink accepts whatever it is shown. -/
def Run.SinkAcceptsFrom (r : Run) (m : Nat) : Prop :=
  ∀ k j, m ≤ k → (r.state k).phase = .emit j → (r.state k).sinkAccepts = true

/-- A legal RESET is performed at position `k`. -/
def Run.ResetsAt (r : Run) (k : Nat) : Prop :=
  ∃ l e a b, r.op k = some (.reset l e a b) ∧ Config.legal { L := l, E := e, seedA := a, seedB := b } = true

/-- The worker steps left to the next `WAIT`, R104's measures added over the passes still to come. -/
def stepsLeft (c : Config) : Phase → Nat
  | .wait | .done => 0
  | .extract k => (c.N + 1 - k) + (2 * c.N + 2) + (3 * c.N + 6)
  | .search i => 2 * (c.N + 1 - i) + (3 * c.N + 6)
  | .decode p => 2 * (c.N + 1 - p) + 1 + (3 * c.N + 6)
  | .ascan j => 3 * (c.N + 2 - j)
  | .arun j => 3 * (c.N + 2 - j) - 1
  | .emit j => 3 * (c.N + 2 - j) - 2

/-- Adds one collected bit to a frame of 14 octets, `t` counting from 0 (R76's inner line). -/
def addFbit (f : List Byte) (t : Nat) : List Byte := f.set (t / 8) (f.getD (t / 8) 0 ||| fbitMask t)

/-- R76's inner loop: the attempt that begins with the first of `cells`, giving the frame, its bit count, its target
length and the cells from the stop position on. -/
def collectRun : (cells : List Cell) → (f : List Byte) → (t : Nat) → FrameLen → List Byte × Nat × FrameLen × List Cell
  | [], f, t, len => (f, t, len, [])
  | x :: cells, f, t, len =>
    if x.isBit && decide (t < len.bits) then
      let f' := if x = .one then addFbit f t else f
      collectRun cells f' (t + 1) (if t = 7 then lenOfOctet0 (f'.getD 0 0) else len)
    else (f, t, len, x :: cells)

/-- R76's function `frames(cells)`; `fuel` bounds its outer loop and is never the limit from the cells' number on. -/
def framesFrom : (fuel : Nat) → List Cell → List FrameRecord
  | 0, _ => []
  | _ + 1, [] => []
  | fuel + 1, x :: cells =>
    if x.isBit then
      match collectRun (x :: cells) (List.replicate 14 0) 0 .long with
      | (f, t, len, rest) => (if enoughBits t len then [⟨f, len⟩] else []) ++ framesFrom fuel rest.tail
    else framesFrom fuel cells

/-- The frames the assembler emits for a cell array (R76). -/
def framesOf (cells : List Cell) : List FrameRecord := framesFrom (cells.length + 1) cells

/-- The reference pair and the classification of each pair of a decode run, in order (43_manchester.md R66): a pair
that decodes becomes the reference, an ambiguous one sets it to `(0, 255)`. -/
def classifyRun : (a b : Byte) → List (Byte × Byte) → List Classified
  | _, _, [] => []
  | a, b, (x, y) :: ps =>
    match cls a b x y with
    | .ambig => .ambig :: classifyRun 0 255 ps
    | .one => .one :: classifyRun x y ps
    | .zero => .zero :: classifyRun x y ps

/-- The bit a classified pair writes: 0 for a tolerated ambiguity (R66). -/
def Classified.bit : Classified → Bool
  | .one => true
  | .zero | .ambig => false

/-- The ambiguous pairs of a run. -/
def ambiguities (xs : List Classified) : Nat := xs.count .ambig

end Sys2Proof.Machine
end

