-- ==== Sys2Proof/Certificates/Slice0/Obligations.lean ====
section
/-! DEFINITION. The statements for the provers. Each names the rule of spec/ it formalises; where a clause is the
model's choice its docstring names the log entry. A result statement gives the whole next state, so it is the frame and
the completion of its operation as well. -/

open Sys2Proof Sys2Proof.Machine

/-! ### RESET and the handoff -/

/-- 70_reset_and_hazards.md R100, both branches, with R90's conditions written out. Two clauses are the model's: that a
refused RESET changes the mark and nothing else (DEDUCED, notes/assumptions/3.md: R100's pseudocode goes on after
`refuse`, and the mark is 60_exceptions.md R89's), and that a RESET keeps the trace and the port (DESIGN CHOICE,
notes/assumptions/12.md). -/
def Obligations.ResetStartsASession : Prop :=
  ∀ (l e a b : Nat) (s : State),
    ((2 ≤ l ∧ l % 2 = 0 ∧ e ≤ 255 ∧ a ≤ 15 ∧ b ≤ 15) →
      exec (.reset l e a b) s = .next { s with
        cfg := some { L := l, E := e, seedA := a, seedB := b }
        land := .bank0, pending := false, exitf := false, phase := .wait
        bank0 := [], bank1 := [], cell := [], start := none, n := none, ra := none, rb := none, err := none
        frame := [], dcnt := none, flen := none }) ∧
    (¬ (2 ≤ l ∧ l % 2 = 0 ∧ e ≤ 255 ∧ a ≤ 15 ∧ b ≤ 15) →
      exec (.reset l e a b) s = .next { s with refusals := s.refusals ++ [.badConfig] })

/-- 70_reset_and_hazards.md R101 item 1: before the first RESET every other operation is refused `NOT_RESET`. That the
refusal is a next state with the mark alone is notes/assumptions/3.md (DEDUCED). -/
def Obligations.NothingElseRunsBeforeTheFirstReset : Prop :=
  ∀ (i : Instr) (s : State), s.cfg = none → (∀ l e a b, i ≠ .reset l e a b) →
    exec i s = .next { s with refusals := s.refusals ++ [.notReset] }

/-- 45_handoff.md R77: the refusals, the drop, and the delivery, in R93 item 6's order. That each refusal is a next state
with the mark alone is the model's (DEDUCED, notes/assumptions/3.md: R77's pseudocode goes on after `refuse`, and the
mark is 60_exceptions.md R89's). -/
def Obligations.DeliverFillsTheLandingBank : Prop :=
  ∀ (data : List Byte) (s : State),
    (s.cfg = none → exec (.deliver data) s = .next { s with refusals := s.refusals ++ [.notReset] }) ∧
    ∀ c, s.cfg = some c →
      (data.length ≠ c.L → exec (.deliver data) s = .next { s with refusals := s.refusals ++ [.deliverLength] }) ∧
      (data.length = c.L → s.exitf = true →
        exec (.deliver data) s = .next { s with events := s.events ++ [.deliveryDropped] }) ∧
      (data.length = c.L → s.exitf = false →
        ∃ m : Memory 8,
          (∀ k, k < c.L → m.read k = data[k]?) ∧ (∀ k, c.L ≤ k → m.read k = (s.bank s.land).read k) ∧
          exec (.deliver data) s = .next (
            if s.pending then { s.setBank s.land m with events := s.events ++ [.bufferOverwrite] }
            else { s.setBank s.land m with pending := true }))

/-- 45_handoff.md R78. That the refusal before the first RESET is a next state with the mark alone is
notes/assumptions/3.md (DEDUCED). -/
def Obligations.CancelSetsTheExitFlag : Prop :=
  ∀ s : State,
    (s.cfg = none → exec .cancel s = .next { s with refusals := s.refusals ++ [.notReset] }) ∧
    (∀ c, s.cfg = some c → exec .cancel s = .next { s with exitf := true })

/-- 45_handoff.md R79: the two ways in which it is enabled, the exit first (60_exceptions.md R93 item 2), and that the
worker is suspended otherwise: no TAKE then changes anything. -/
def Obligations.TakeSwapsTheBanksOrTerminates : Prop :=
  ∀ (s : State) (c : Config), s.cfg = some c → s.phase = .wait →
    (s.exitf = true → exec .take s = .next { s with phase := .done }) ∧
    (s.exitf = false → s.pending = true →
      exec .take s = .next { s with land := s.land.other, pending := false, phase := .extract 0 }) ∧
    (s.exitf = false → s.pending = false → ∀ t, exec .take s = .next t → t = s)

/-- The worker's wait (R79, R92), as the model has it: notes/assumptions/7.md. -/
def Obligations.TakeWaitsWhileNothingWakesIt : Prop :=
  ∀ (s : State) (c : Config), s.cfg = some c → s.phase = .wait → s.pending = false → s.exitf = false →
    exec .take s = .next s

/-- 45_handoff.md R80. The invariant rules out a `DONE` that was not reached through TAKE. -/
def Obligations.DoneIsLeftOnlyByReset : Prop :=
  ∀ (s : State) (c : Config), Invariant s → s.cfg = some c → s.phase = .done →
    (∀ i, i.isWorker = true → ∀ t, exec i s ≠ .next t) ∧
    (∀ data, data.length = c.L → exec (.deliver data) s = .next { s with events := s.events ++ [.deliveryDropped] }) ∧
    (∃ t, exec .cancel s = .next t) ∧
    (∀ i t, (∀ l e a b, i ≠ .reset l e a b) → exec i s = .next t → t.phase = .done ∧ t.port = s.port) ∧
    (∀ l e a b, (2 ≤ l ∧ l % 2 = 0 ∧ e ≤ 255 ∧ a ≤ 15 ∧ b ≤ 15) →
      ∃ t, exec (.reset l e a b) s = .next t ∧ t.phase = .wait)

/-- 45_handoff.md R81: who writes the signal's count. -/
def Obligations.OnlyDeliverRaisesAndOnlyTakeLowersPending : Prop :=
  ∀ (i : Instr) (s t : State), exec i s = .next t →
    (t.pending ≠ s.pending →
      (∃ data, i = .deliver data ∧ s.pending = false) ∨ (i = .take ∧ s.pending = true) ∨
      (∃ l e a b, i = .reset l e a b)) ∧
    (∀ l e a b, i = .reset l e a b → Config.legal { L := l, E := e, seedA := a, seedB := b } = true →
      t.pending = false)

/-- 45_handoff.md R82. -/
def Obligations.DeliverNeverWaits : Prop :=
  ∀ (s : State) (c : Config) (data : List Byte), s.cfg = some c → ∃ t, exec (.deliver data) s = .next t

/-- 45_handoff.md R83, "the buffer a TAKE gives the worker is the last delivery before that TAKE": whatever was
delivered before, and whatever the worker does in between. -/
def Obligations.TheLastDeliveryIsTheOneTaken : Prop :=
  ∀ (s t : State) (c : Config) (data : List Byte) (ops : List Instr),
    s.cfg = some c → data.length = c.L → s.exitf = false →
    (∀ i ∈ ops, i ≠ .take ∧ i ≠ .cancel ∧ (∀ d, i ≠ .deliver d) ∧ ∀ l e a b, i ≠ .reset l e a b) →
    runOps (.deliver data :: ops ++ [.take]) s = .next t →
    t.phase = .extract 0 ∧ t.pending = false ∧ ∀ k, k < c.L → t.workBank.read k = data[k]?

/-- 45_handoff.md R84: the handoff acts on its slot as the capacity-1 channel does. -/
def Obligations.TheHandoffIsACapacityOneChannel : Prop :=
  ∀ (s : State) (c : Config), s.cfg = some c →
    (∀ data : List Byte, data.length = c.L → s.exitf = false →
      ∃ t, exec (.deliver data) s = .next t ∧ t.slot c = some (data.map some)) ∧
    (∀ x, s.phase = .wait → s.exitf = false → s.slot c = some x →
      ∃ t, exec .take s = .next t ∧ (List.range c.L).map t.workBank.read = x ∧ t.slot c = none) ∧
    (s.phase = .wait → s.exitf = true →
      ∃ t, exec .take s = .next t ∧ t.phase = .done ∧ t.slot c = s.slot c)

/-- 45_handoff.md R85, 10_state.md R28 item 2: from one TAKE to the next nothing writes the work bank. -/
def Obligations.TheWorkBankIsASnapshot : Prop :=
  ∀ (i : Instr) (s t : State), i ≠ .take → (∀ l e a b, i ≠ .reset l e a b) → exec i s = .next t →
    t.land = s.land ∧ t.workBank = s.workBank

/-- 10_state.md R27, R13: no worker operation reads the landing bank, nor writes it (TAKE, which makes it the work
bank, apart). -/
def Obligations.TheWorkerIsBlindToTheLandingBank : Prop :=
  ∀ (i : Instr) (s t : State) (m : Memory 8), i.isWorker = true → i ≠ .take → exec i s = .next t →
    exec i (s.setBank s.land m) = .next (t.setBank s.land m)

/-- 10_state.md R27, 60_exceptions.md R94: the only writers of each element. -/
def Obligations.EachElementHasOnlyItsWriters : Prop :=
  ∀ (i : Instr) (s t : State), (∀ l e a b, i ≠ .reset l e a b) → exec i s = .next t →
    t.cfg = s.cfg ∧
    ((∀ data, i ≠ .deliver data) → t.bank0 = s.bank0 ∧ t.bank1 = s.bank1) ∧
    t.bank s.land.other = s.bank s.land.other ∧
    (i ≠ .take → t.land = s.land) ∧
    (i ≠ .take → (∀ data, i ≠ .deliver data) → t.pending = s.pending) ∧
    (i ≠ .cancel → t.exitf = s.exitf) ∧
    (i.isWorker = false →
      t.phase = s.phase ∧ t.cell = s.cell ∧ t.start = s.start ∧ t.n = s.n ∧ t.ra = s.ra ∧ t.rb = s.rb ∧
      t.err = s.err ∧ t.frame = s.frame ∧ t.dcnt = s.dcnt ∧ t.flen = s.flen ∧ t.port = s.port)

/-! ### MagnitudeExtractor -/

/-- 41_magnitude.md R54, its formula and corner cases. -/
def Obligations.MagnitudeIsTheClampedSum : Prop :=
  ∀ i q : Byte,
    (mag i q).toNat = min (((i.toNat : Int) - 128).natAbs + ((q.toNat : Int) - 128).natAbs) 255 ∧
    mag i q = mag q i ∧
    (255 < ((i.toNat : Int) - 128).natAbs + ((q.toNat : Int) - 128).natAbs ↔ i = 0 ∧ q = 0)

/-- 41_magnitude.md R55: one pair, or the end of the pass. -/
def Obligations.ExtractConvertsOnePair : Prop :=
  ∀ (s : State) (c : Config) (k : Nat), s.cfg = some c → s.phase = .extract k →
    (∀ i q : Byte, k < c.N → s.workBank.read (2 * k) = some i → s.workBank.read (2 * k + 1) = some q →
      exec .extract s = .next { s with
        cell := s.cell.write k (Cell.mag (mag i q)).bits, phase := .extract (k + 1) }) ∧
    (k = c.N → exec .extract s = .next { s with err := some 0, phase := .search 0 })

/-- 41_magnitude.md R56: after the pass the cells are the magnitudes of the taken bytes, pair by pair. -/
def Obligations.ExtractionIsElementWise : Prop :=
  ∀ (s : State) (c : Config) (bytes : List Byte), s.cfg = some c → c.legal = true →
    s.phase = .extract 0 → bytes.length = c.L → (∀ k, k < c.L → s.workBank.read k = bytes[k]?) →
    ∃ t, runOps (List.replicate (c.N + 1) .extract) s = .next t ∧ t.phase = .search 0 ∧
      ∀ k, k < c.N → ∃ i q, bytes[2 * k]? = some i ∧ bytes[2 * k + 1]? = some q ∧ t.CellIs k (.mag (mag i q))

/-! ### PreambleDetector -/

/-- 42_preamble.md R59: the scan of R58 is a plain function of the window. `v o` is the magnitude at offset `o`. -/
def Obligations.PreambleScanIsMinHighAboveMaxLow : Prop :=
  (∀ (c : Config) (s : State) (i : Nat) (v : Nat → Byte),
    (∀ o, o < 16 → i + o < c.N ∧ s.CellIs (i + o) (.mag (v o))) →
    pre c s i = .ok (decide (
      max (v 1).toNat (max (v 3).toNat (max (v 4).toNat (max (v 5).toNat (max (v 6).toNat (max (v 8).toNat
        (max (v 10).toNat (max (v 11).toNat (max (v 12).toNat (max (v 13).toNat
          (max (v 14).toNat (v 15).toNat)))))))))) <
      min (v 0).toNat (min (v 2).toNat (min (v 7).toNat (v 9).toNat))))) ∧
  (∀ (c : Config) (s : State) (i : Nat),
    (∀ o, o < 16 → i + o < c.N ∧ ∃ x, s.CellIs (i + o) x) → (∃ o, o < 16 ∧ ¬ s.MagAt (i + o)) →
    pre c s i = .ok false)

/-- 42_preamble.md R61 and R62: the end of the pass, a failed candidate, and the match. -/
def Obligations.SearchEndsMovesOnOrMatches : Prop :=
  ∀ (s : State) (c : Config) (i : Nat), s.cfg = some c → s.phase = .search i →
    (c.N < i + 16 → exec .search s = .next { s with phase := .ascan 0 }) ∧
    (i + 16 ≤ c.N → pre c s i = .ok false → exec .search s = .next { s with phase := .search (i + 1) }) ∧
    (i + 16 ≤ c.N → pre c s i = .ok true → c.seedA ≤ 15 → c.seedB ≤ 15 →
      ∃ (a b : Byte) (m : Memory 9),
        s.CellIs (i + c.seedA) (.mag a) ∧ s.CellIs (i + c.seedB) (.mag b) ∧
        (∀ k, m.read k = if i ≤ k ∧ k < i + 16 then some Cell.consumed.bits else s.cell.read k) ∧
        exec .search s = .next { s with
          cell := m, ra := some a, rb := some b, start := some (i + 16), n := some 0, phase := .decode (i + 16) })

/-- 42_preamble.md R60: every entry to SEARCH clears the error counter; the entries are from the end of the extraction
and from DECODE at its own cursor; moving on within SEARCH does not write the counter. -/
def Obligations.EnteringSearchClearsTheErrorCounter : Prop :=
  ∀ (i : Instr) (s t : State) (k : Nat), exec i s = .next t → t.phase = .search k →
    ((∀ j, s.phase ≠ .search j) →
      t.err = some 0 ∧
        ((∃ c q, s.cfg = some c ∧ s.phase = .extract q ∧ c.N ≤ q ∧ k = 0) ∨ s.phase = .decode k)) ∧
    ((∃ j, s.phase = .search j) → t.err = s.err)

/-- 42_preamble.md R63: over magnitudes without a preamble the search passes every candidate and the scan for frames
every cell, to `WAIT`; no decode run is entered, no frame is emitted, and nothing but the phase has changed. -/
def Obligations.NoPreambleGivesNoFrame : Prop :=
  ∀ (s : State) (c : Config), s.cfg = some c → 16 ≤ c.N → s.phase = .search 0 →
    (∀ k, k < c.N → s.MagAt k) → (∀ i, i + 16 ≤ c.N → pre c s i = .ok false) →
    (∀ k, k ≤ c.N - 15 → runOps (List.replicate k .search) s = .next { s with phase := .search k }) ∧
    runOps (List.replicate (c.N - 14) .search) s = .next { s with phase := .ascan 0 } ∧
    runOps (List.replicate (c.N - 14) .search ++ List.replicate (c.N + 1) .ascan) s = .next { s with phase := .wait }

/-! ### ManchesterDecoder -/

/-- 43_manchester.md R64: the table's rows and no others. -/
def Obligations.ClassifierFollowsItsTable : Prop :=
  ∀ a b c d : Byte,
    (cls a b c d = .one ↔ (c > d ∧ a > b ∧ c > b ∧ d < a) ∨ (c > d ∧ ¬ a > b ∧ c > a ∧ d < b)) ∧
    (cls a b c d = .zero ↔ (¬ c > d ∧ a > b ∧ c < a ∧ d > b) ∨ (¬ c > d ∧ ¬ a > b ∧ c < b ∧ d > a))

/-- 43_manchester.md R65, items 1 to 5. -/
def Obligations.ClassifierProperties : Prop :=
  (∀ a b c d : Byte, cls a b c d ≠ .ambig → cls a b c d = if c > d then .one else .zero) ∧
  (∀ (h l : Byte) (prev cur : Bool), l < h →
    cls (if prev then h else l) (if prev then l else h) (if cur then h else l) (if cur then l else h) =
      if cur then .one else .zero) ∧
  (∀ c d : Byte,
    (c > d → cls 0 255 c d = .one) ∧ (c < d → cls 0 255 c d = .zero) ∧
    (c = d → 0 < c → c < 255 → cls 0 255 c d = .zero) ∧
    (cls 0 255 c d = .ambig ↔ (c = 0 ∧ d = 0) ∨ (c = 255 ∧ d = 255))) ∧
  (∀ a b c : Byte, cls a b c c = if (a < c ∧ c < b) ∨ (b < c ∧ c < a) then .zero else .ambig) ∧
  (∀ a c d : Byte, cls a a c d = if d < a ∧ a < c then .one else if c < a ∧ a < d then .zero else .ambig)

/-- 43_manchester.md R66 with the abort of R67: the buffer end, a pair that decodes, a tolerated ambiguity, the abort.
The output position never lies past the pair (`p = start + 2n`, 10_state.md R28 item 3). -/
def Obligations.DecodeConsumesOnePair : Prop :=
  ∀ (s : State) (c : Config) (p : Nat), s.cfg = some c → s.phase = .decode p →
    (c.N ≤ p + 1 → exec .decode s = .next { s with
      err := some 0, phase := .search p, events := s.events ++ [.runAtBufferEnd p s.n] }) ∧
    ∀ (x y a b : Byte) (st m : Nat), p + 1 < c.N → s.CellIs p (.mag x) → s.CellIs (p + 1) (.mag y) →
      s.ra = some a → s.rb = some b → s.start = some st → s.n = some m → st + m ≤ p →
      (∀ bit : Bool, cls a b x y = (if bit then .one else .zero) →
        ∃ cells : Memory 9,
          (∀ k, cells.read k = if k = st + m then some (Cell.mkbit bit).bits
            else if k = p ∨ k = p + 1 then some Cell.consumed.bits else s.cell.read k) ∧
          exec .decode s = .next { s with
            cell := cells, ra := some x, rb := some y, n := some (m + 1), phase := .decode (p + 2) }) ∧
      (∀ e, cls a b x y = .ambig → s.err = some e → e + 1 ≤ c.E →
        ∃ cells : Memory 9,
          (∀ k, cells.read k = if k = st + m then some Cell.zero.bits
            else if k = p ∨ k = p + 1 then some Cell.consumed.bits else s.cell.read k) ∧
          exec .decode s = .next { s with
            cell := cells, ra := some 0, rb := some 255, err := some (e + 1), n := some (m + 1)
            phase := .decode (p + 2), events := s.events ++ [.ambigTolerated p (e + 1)] }) ∧
      (∀ e, cls a b x y = .ambig → s.err = some e → c.E < e + 1 →
        exec .decode s = .next { s with
          cell := s.cell.write (st + m) Cell.invalid.bits, err := some 0, phase := .search p
          events := s.events ++ [.runAbort p m (e + 1)] })

/-- 43_manchester.md R69: ideal pairs at levels `h > l`, after an ideal reference pair, decode to exactly their bits,
and the error counter stays 0 throughout. -/
def Obligations.LosslessRoundTrip : Prop :=
  ∀ (s : State) (c : Config) (st : Nat) (h l : Byte) (ref : Bool) (bits : List Bool),
    s.cfg = some c → l < h → s.phase = .decode st → s.start = some st → s.n = some 0 →
    s.err = some 0 → s.ra = some (if ref then h else l) → s.rb = some (if ref then l else h) →
    st + 2 * bits.length ≤ c.N →
    (∀ i bit, bits[i]? = some bit → s.CellIs (st + 2 * i) (.mag (if bit then h else l)) ∧
      s.CellIs (st + 2 * i + 1) (.mag (if bit then l else h))) →
    ∀ k, k ≤ bits.length →
      ∃ t, runOps (List.replicate k .decode) s = .next t ∧ t.phase = .decode (st + 2 * k) ∧ t.n = some k ∧
        t.err = some 0 ∧
        ∀ i bit, i < k → bits[i]? = some bit → t.CellIs (st + i) (Cell.mkbit bit)

/-- 43_manchester.md R70: with at most `E` ambiguous pairs the run writes a bit for each of its pairs and has counted
the ambiguities; with more it aborts at the `(E+1)`-th, having written one bit for each pair before it. -/
def Obligations.ErrorToleranceBoundary : Prop :=
  ∀ (s : State) (c : Config) (st : Nat) (a b : Byte) (pairs : List (Byte × Byte)),
    s.cfg = some c → s.phase = .decode st → s.start = some st → s.n = some 0 → s.err = some 0 →
    s.ra = some a → s.rb = some b → st + 2 * pairs.length ≤ c.N →
    (∀ i x y, pairs[i]? = some (x, y) → s.CellIs (st + 2 * i) (.mag x) ∧ s.CellIs (st + 2 * i + 1) (.mag y)) →
    (ambiguities (classifyRun a b pairs) ≤ c.E →
      ∃ t, runOps (List.replicate pairs.length .decode) s = .next t ∧ t.phase = .decode (st + 2 * pairs.length) ∧
        t.n = some pairs.length ∧ t.err = some (ambiguities (classifyRun a b pairs)) ∧
        ∀ i x, (classifyRun a b pairs)[i]? = some x → t.CellIs (st + i) (Cell.mkbit x.bit)) ∧
    (c.E < ambiguities (classifyRun a b pairs) →
      ∃ q t, q < pairs.length ∧ (classifyRun a b pairs)[q]? = some .ambig ∧
        ambiguities ((classifyRun a b pairs).take q) = c.E ∧
        runOps (List.replicate (q + 1) .decode) s = .next t ∧ t.phase = .search (st + 2 * q) ∧ t.n = some q ∧
        t.CellIs (st + q) .invalid ∧
        ∀ i x, i < q → (classifyRun a b pairs)[i]? = some x → t.CellIs (st + i) (Cell.mkbit x.bit))

/-! ### FrameAssembler -/

/-- 44_frame.md R71: the buffer is finished, a cell is skipped, or an assembly starts on a cleared frame. -/
def Obligations.AscanSkipsOrStartsAnAssembly : Prop :=
  ∀ (s : State) (c : Config) (j : Nat), s.cfg = some c → s.phase = .ascan j →
    (c.N ≤ j → exec .ascan s = .next { s with phase := .wait }) ∧
    (∀ x, j < c.N → s.CellIs j x → x ≠ .zero → x ≠ .one → exec .ascan s = .next { s with phase := .ascan (j + 1) }) ∧
    (j < c.N → s.BitAt j →
      ∃ fr : Memory 8, (∀ o, fr.read o = if o < 14 then some 0 else s.frame.read o) ∧
        exec .ascan s = .next { s with frame := fr, dcnt := some 0, flen := some .long, phase := .arun j })

/-- 44_frame.md R72: while the run continues the bit is set most significant first, the eighth resolves the length, and
nothing else changes; once it has stopped no ARUN changes anything. -/
def Obligations.ArunCollectsOneBit : Prop :=
  ∀ (s : State) (c : Config) (j d : Nat) (len : FrameLen),
    s.cfg = some c → s.phase = .arun j → s.dcnt = some d → s.flen = some len →
    (∀ bit : Bool, j < c.N → s.CellIs j (Cell.mkbit bit) → d < len.bits → s.frame.FullTo 14 →
      ∃ (fr : Memory 8) (len' : FrameLen),
        (∀ t, t < 112 → fr.fbit t = if t = d ∧ bit = true then some true else s.frame.fbit t) ∧
        (∀ o, 14 ≤ o → fr.read o = s.frame.read o) ∧
        (d = 7 → (len' = .long ↔ fr.fbit 0 = some true)) ∧ (d ≠ 7 → len' = len) ∧
        exec .arun s = .next { s with
          frame := fr, flen := some len', dcnt := some (d + 1), phase := .arun (j + 1) }) ∧
    ((c.N ≤ j ∨ (∃ x, s.CellIs j x ∧ x ≠ .zero ∧ x ≠ .one) ∨ len.bits ≤ d) →
      ∀ t, exec .arun s = .next t → t = s)

/-- 44_frame.md R73: at a stop position the run is accepted with at least `flen - 1` bits and discarded otherwise; while
it continues no AEND changes anything. -/
def Obligations.AendAcceptsOrDiscards : Prop :=
  ∀ (s : State) (c : Config) (j d : Nat) (len : FrameLen),
    s.cfg = some c → s.phase = .arun j → s.dcnt = some d → s.flen = some len →
    ((c.N ≤ j ∨ (∃ x, s.CellIs j x ∧ x ≠ .zero ∧ x ≠ .one) ∨ (s.BitAt j ∧ d = len.bits)) →
      (len.bits - 1 ≤ d → exec .aend s = .next { s with phase := .emit j }) ∧
      (d < len.bits - 1 → exec .aend s = .next { s with
        phase := .ascan (j + 1), events := s.events ++ [.frameDrop j d len] })) ∧
    (j < c.N → s.BitAt j → d < len.bits → ∀ t, exec .aend s = .next t → t = s)

/-- 44_frame.md R74: with a sink that accepts, the record with the resolved length is presented and the scan resumes past
the stop position; with one that does not, nothing changes. The sink's answers are an input, of which the statement says
nothing. -/
def Obligations.EmitPresentsTheFrame : Prop :=
  ∀ (s : State) (c : Config) (j : Nat), s.cfg = some c → s.phase = .emit j →
    (∀ (octets : List Byte) (len : FrameLen), s.sinkAccepts = true → octets.length = 14 →
      (∀ o, o < 14 → s.frame.read o = octets[o]?) → s.flen = some len →
      ∃ answers, exec .emit s = .next { s with
        port := s.port ++ [{ octets := octets, len := len }], phase := .ascan (j + 1), sinkAnswers := answers }) ∧
    (s.sinkAccepts = false → ∀ t, exec .emit s = .next t → t = { s with sinkAnswers := t.sinkAnswers })

/-- 60_exceptions.md R91, in the model's form of the sink (notes/assumptions/6.md, 7.md): while it does not accept, the
worker keeps its frame; if it never does, nothing but the environment can change anything. -/
def Obligations.AStuckWorkerHoldsItsFrame : Prop :=
  ∀ (s : State) (c : Config) (j : Nat), s.cfg = some c → s.phase = .emit j →
    (s.sinkAccepts = false → exec .emit s = .next { s with sinkAnswers := s.sinkAnswers.tail }) ∧
    (s.script = [] → s.sinkAnswers = [] → s.sinkThen = false → ∀ k, runSteps k s = .next s) ∧
    (∀ data, ∃ t, exec (.deliver data) s = .next t) ∧ (∃ t, exec .cancel s = .next t)

/-- 44_frame.md R75: eight bit cells resolve the target by the first of them, and fewer are discarded whatever it is. -/
def Obligations.LengthIsFixedByTheFirstBit : Prop :=
  (∀ (s : State) (c : Config) (j : Nat) (first : Bool), s.cfg = some c → s.phase = .ascan j →
    j + 8 ≤ c.N → s.CellIs j (Cell.mkbit first) → (∀ k, k < 8 → s.BitAt (j + k)) →
    ∃ t, runOps (.ascan :: List.replicate 8 .arun) s = .next t ∧ t.phase = .arun (j + 8) ∧ t.dcnt = some 8 ∧
      t.flen = some (if first then .long else .short)) ∧
  (∀ (s t : State) (c : Config) (j d : Nat), Invariant s → s.cfg = some c → s.phase = .arun j → s.dcnt = some d →
    d < 8 → exec .aend s = .next t → t.phase = .ascan (j + 1))

/-- 30_encoding.md R48, and the part of R47 about short frames, for every record a run can present: its length is the
one its first bit fixes, which is DF ≥ 16, and octets 7 to 13 of a short frame are zero. -/
def Obligations.EmittedRecordsAreFrames : Prop :=
  ∀ (s t : State) (c : Config) (j : Nat) (f : FrameRecord), Invariant s → s.cfg = some c → s.phase = .emit j →
    exec .emit s = .next t → t.port = s.port ++ [f] →
    f.octets.length = 14 ∧ (f.len = .long ↔ f.fbit 0 = true) ∧ (f.fbit 0 = true ↔ 16 ≤ f.df.toNat) ∧
    (f.len = .short → ∀ o, 7 ≤ o → o < 14 → f.octet o = 0)

/-- 44_frame.md R76: run to completion before a sink that accepts, the assembler's operations emit exactly the frames
of the reference function, in order. -/
def Obligations.TheAssemblerEmitsTheReferenceFrames : Prop :=
  ∀ (s : State) (c : Config) (cells : List Cell), s.cfg = some c → s.sinkAnswers = [] → s.sinkThen = true →
    s.phase = .ascan 0 → cells.length = c.N → (∀ k x, cells[k]? = some x → s.CellIs k x) →
    ∃ ops t, (∀ i ∈ ops, i = .ascan ∨ i = .arun ∨ i = .aend ∨ i = .emit) ∧ runOps ops s = .next t ∧
      t.phase = .wait ∧ t.port = s.port ++ framesOf cells

/-! ### The whole machine -/

/-- 30_encoding.md R42: the codes and the agents; RESET always, and after the first RESET the other operations of the
environment, are enabled; at most one worker operation is, and it is then a step; one that is not changes nothing (EMIT
apart, which uses up an answer of the sink, the model's input of notes/assumptions/6.md); exactly the waiting worker, the
worker before a sink that does not accept and the terminated one have none. -/
def Obligations.OperationsAreEnabledAsTabled : Prop :=
  ((∀ l e a b, (Instr.reset l e a b).code = 0x0 ∧ (Instr.reset l e a b).isWorker = false) ∧
    (∀ data, (Instr.deliver data).code = 0x1 ∧ (Instr.deliver data).isWorker = false) ∧
    (Instr.cancel.code = 0x2 ∧ Instr.cancel.isWorker = false) ∧
    [Instr.take, .extract, .search, .decode, .ascan, .arun, .aend, .emit].map Instr.code =
      [0x3, 0x4, 0x5, 0x6, 0x7, 0x8, 0x9, 0xA] ∧
    ∀ i ∈ [Instr.take, .extract, .search, .decode, .ascan, .arun, .aend, .emit], i.isWorker = true) ∧
  (∀ (s : State) l e a b, ∃ t, exec (.reset l e a b) s = .next t) ∧
  ∀ (s : State) (c : Config), Invariant s → s.cfg = some c →
    (∀ data, ∃ t, exec (.deliver data) s = .next t) ∧ (∃ t, exec .cancel s = .next t) ∧
    (∀ i j, workerEnabled c s i → workerEnabled c s j → i = j) ∧
    (∀ i, workerEnabled c s i → ∃ t, exec i s = .next t) ∧
    (∀ i, i.isWorker = true → ¬ workerEnabled c s i → ∀ t, exec i s = .next t →
      t = { s with sinkAnswers := t.sinkAnswers } ∧ (i ≠ .emit → t = s)) ∧
    ((∃ i, workerEnabled c s i) ↔
      ¬ (s.phase = .done ∨ (s.phase = .wait ∧ s.pending = false ∧ s.exitf = false) ∨
        ((∃ j, s.phase = .emit j) ∧ s.sinkAccepts = false)))

/-- 10_state.md R18: the order of the phases within a buffer, cursors included. -/
def Obligations.PhasesFollowTheirOrder : Prop :=
  ∀ (i : Instr) (s t : State) (c : Config), s.cfg = some c → workerEnabled c s i → exec i s = .next t →
    s.phase.follows t.phase

/-- Every record of the schedule that decodes is performed, past its bytes (the schedule is the model's form of R5 and
R93 item 1: notes/assumptions/5.md). -/
def Obligations.AStepPerformsTheScheduledOperation : Prop :=
  ∀ (s : State) (i : Instr) (rest : List Byte),
    (decode s.script = .ok (i, rest) → step s = exec i { s with script := rest }) ∧
    (i.wellFormed = true → s.script = encode i ++ rest → step s = exec i { s with script := rest })

/-- With no schedule left the worker's own enabled operation is the step, and a resting machine stays as it is
(60_exceptions.md R91, R99; notes/assumptions/5.md). -/
def Obligations.ASilentEnvironmentLeavesTheWorkerRunning : Prop :=
  ∀ (s : State) (c : Config), s.cfg = some c → s.script = [] →
    (∀ i, workerEnabled c s i → step s = exec i s) ∧ (s.AtRest → step s = .next s)

/-- The invariant holds before the first RESET and after every legal one, from whatever state, and so in the model's
reset state (whose configuration is notes/assumptions/1.md's). -/
def Obligations.InvariantHoldsAfterReset : Prop :=
  Invariant State.powerOn ∧ Invariant State.reset ∧
  ∀ (l e a b : Nat) (s t : State), Config.legal { L := l, E := e, seedA := a, seedB := b } = true →
    exec (.reset l e a b) s = .next t → Invariant t

/-- 10_state.md R28: every step, of whichever agent, keeps the invariant. -/
def Obligations.EveryStepKeepsTheInvariant : Prop :=
  ∀ s t : State, Invariant s → step s = .next t → Invariant t

/-- 60_exceptions.md R88: no fault is reachable, whatever the schedule (every RESET it may hold included) and the sink
do. -/
def Obligations.NoReachableStepFaults : Prop :=
  (∀ (s : State) (f : Fault), Invariant s → step s ≠ .fault f) ∧
  ∀ (bytes : List Byte) (answers : List Bool) (after : Bool) (k : Nat) (f : Fault),
    runSteps k { State.powerOn with script := bytes, sinkAnswers := answers, sinkThen := after } ≠ .fault f

/-- 70_reset_and_hazards.md R104's measures: each worker step drops what is left of the buffer. -/
def Obligations.EveryWorkerStepShortensTheBuffer : Prop :=
  ∀ (i : Instr) (s t : State) (c : Config), Invariant s → s.cfg = some c → i ≠ .take → workerEnabled c s i →
    exec i s = .next t → stepsLeft c t.phase < stepsLeft c s.phase

/-- 70_reset_and_hazards.md R104: with a sink that accepts, a taken buffer is finished within `6N + 10` worker steps,
the TAKE counted. -/
def Obligations.ABufferIsFinishedWithinTheBound : Prop :=
  ∀ (s : State) (c : Config), Invariant s → s.cfg = some c → s.Undisturbed → s.phase = .wait → s.pending = true →
    s.exitf = false →
    ∃ u, step s = .next u ∧ u.phase = .extract 0 ∧
      ∃ k t, k + 1 ≤ 6 * c.N + 10 ∧ runSteps k u = .next t ∧ t.phase = .wait

/-- 45_handoff.md R85, 70_reset_and_hazards.md R109: the frames emitted for a taken buffer are a function of its bytes
and the configuration alone; nothing of an earlier buffer carries over, and nothing that the other agents do before the
worker is back in `WAIT` matters. The sink's delays and the empty schedule of the model's own steps are the model's forms
(`State.FinishesWith`; notes/assumptions/5.md, 6.md, 7.md). -/
def Obligations.FramesAreAFunctionOfTheDeliveredBytes : Prop :=
  ∀ (c : Config) (bytes : List Byte), c.legal = true → bytes.length = c.L →
    ∃ frames : List FrameRecord, ∀ s : State, Invariant s → s.cfg = some c → s.phase = .extract 0 →
      (∀ k, k < c.L → s.workBank.read k = bytes[k]?) → s.FinishesWith frames

/-- The parts together (42_preamble.md R62, 43_manchester.md R69, 44_frame.md R76) on 30_encoding.md R53's stimulus of
one transmission: a buffer that is exactly a preamble and one frame's ideal pairs, at any two levels, gives exactly that
frame, long or short, whatever the other agents do meanwhile. The seed offsets are any two of which one is high and one
low (00_scope.md R3, whose default is 8 and 9; 42_preamble.md R57 names the high ones). The sink's delays and the empty
schedule are the model's forms (`State.FinishesWith`; notes/assumptions/5.md, 6.md, 7.md). -/
def Obligations.AnIdealTransmissionIsReceived : Prop :=
  ∀ (s : State) (c : Config) (h l : Nat) (data : List Byte) (len : FrameLen),
    Invariant s → s.cfg = some c → s.phase = .extract 0 → l < h → h ≤ 255 →
    (c.seedA ∈ [0, 2, 7, 9] ↔ c.seedB ∉ [0, 2, 7, 9]) →
    data.length = len.bits / 8 → (len = .long ↔ (data.getD 0 0).getLsbD 7 = true) →
    c.L = (stimPre h l ++ stimMan data h l).length →
    (∀ k, k < c.L → s.workBank.read k = (stimPre h l ++ stimMan data h l)[k]?) →
    s.FinishesWith [{ octets := data ++ List.replicate (14 - data.length) 0, len := len }]

/-! ### Fair runs -/

/-- 70_reset_and_hazards.md R103: in a run that is weakly fair to the worker an enabled worker operation is eventually
performed, unless a RESET abandons it; an EMIT is one whose sink keeps accepting. What a run is is the model's form
(notes/assumptions/22.md). -/
def Obligations.AFairWorkerMakesProgress : Prop :=
  ∀ (r : Run) (m : Nat) (i : Instr), r.Valid → r.WeaklyFair .wrk → i.isWorker = true → (r.state m).enables i →
    (i = .emit → r.SinkAcceptsFrom m) → ∃ k, m ≤ k ∧ (r.op k = some i ∨ r.ResetsAt k)

/-- 70_reset_and_hazards.md R103: a pending buffer is eventually taken, and it is that buffer's content that the worker
gets, unless a later delivery replaces it, the exit comes first or a RESET discards it. The sink accepts, since a sink
that does not leaves the worker stuck (60_exceptions.md R91). What a run is is notes/assumptions/22.md's. -/
def Obligations.APendingBufferIsEventuallyTaken : Prop :=
  ∀ (r : Run) (c : Config) (m : Nat), r.Valid → r.WeaklyFair .wrk → Invariant (r.state m) → (r.state m).cfg = some c →
    (r.state m).pending = true → r.SinkAcceptsFrom m →
    ∃ k, m ≤ k ∧
      ((r.op k = some .take ∧ (r.state (k + 1)).phase = .extract 0 ∧
          (r.state (k + 1)).workBank = (r.state m).landBank) ∨
        (∃ data : List Byte, r.op k = some (.deliver data) ∧ data.length = c.L) ∨
        (r.state k).exitf = true ∨ r.ResetsAt k)

/-- 70_reset_and_hazards.md R104's last sentence: under R103's fairness, and with a sink that accepts, the worker returns
to `WAIT` after each buffer, whatever the other agents do, short of a RESET. What a run is is notes/assumptions/22.md's. -/
def Obligations.AFairWorkerFinishesEveryBuffer : Prop :=
  ∀ (r : Run) (c : Config) (m : Nat), r.Valid → r.WeaklyFair .wrk → Invariant (r.state m) → (r.state m).cfg = some c →
    (r.state m).phase ≠ .done → r.SinkAcceptsFrom m →
    ∃ k, m ≤ k ∧ ((r.state k).phase = .wait ∨ r.ResetsAt k)

/-- 45_handoff.md R78, 70_reset_and_hazards.md R107: a CANCEL does not touch a buffer in progress. No worker operation
but TAKE reads `exitf` or `pending`. -/
def Obligations.OnlyTakeSeesTheWakeConditions : Prop :=
  ∀ (i : Instr) (s t : State) (x p : Bool), i.isWorker = true → i ≠ .take → exec i s = .next t →
    exec i { s with exitf := x, pending := p } = .next { t with exitf := x, pending := p }

/-- 60_exceptions.md R87, 10_state.md R26: operations only append to the trace, the port and the marks, and read none
of them. -/
def Obligations.TracePortAndMarksAreNeverRead : Prop :=
  ∀ (i : Instr) (s t : State), exec i s = .next t →
    ∃ events port refusals, t.events = s.events ++ events ∧ t.port = s.port ++ port ∧
      t.refusals = s.refusals ++ refusals ∧
      ∀ ev po re, exec i { s with events := ev, port := po, refusals := re } =
        .next { t with events := ev ++ events, port := po ++ port, refusals := re ++ refusals }

/-- 60_exceptions.md R88: what each fault reason is raised by, at the operations that meet it first. -/
def Obligations.ReadsWithoutMeaningFault : Prop :=
  ∀ (s : State) (c : Config) (k : Nat), s.cfg = some c →
    (s.phase = .ascan k → k < c.N → s.cell.read k = none → exec .ascan s = .fault .unwrittenRead) ∧
    (∀ w, s.phase = .ascan k → k < c.N → s.cell.read k = some w → Cell.ofBits w = none →
      exec .ascan s = .fault .reservedCell) ∧
    (∀ x, s.phase = .decode k → k + 1 < c.N → s.CellIs k x → (∀ v, x ≠ .mag v) →
      exec .decode s = .fault .valNotMag) ∧
    (∀ st m, s.phase = .decode k → k + 1 < c.N → s.MagAt k → s.MagAt (k + 1) → (∃ a, s.ra = some a) →
      (∃ b, s.rb = some b) → (∃ e, s.err = some e) → s.start = some st → s.n = some m → c.N ≤ st + m →
      exec .decode s = .fault .indexRange)

/-! ### Encodings -/

/-- 30_encoding.md R42, R43: no operand of an operation record is lost. The record's bytes are the model's layout
(notes/assumptions/9.md). -/
def Obligations.DecodeInvertsEncode : Prop :=
  ∀ (i : Instr) (rest : List Byte), i.wellFormed = true → decode (encode i ++ rest) = .ok (i, rest)

/-- The other direction: bytes that decode are the encoding of what they decode to, so no two byte strings stand for one
operation (notes/assumptions/9.md). -/
def Obligations.EncodeInvertsDecode : Prop :=
  ∀ (bytes rest : List Byte) (i : Instr), decode bytes = .ok (i, rest) →
    i.wellFormed = true ∧ bytes = encode i ++ rest

/-- Records written out from 30_encoding.md R42's codes and R43's operand order (the natural 480 is `E0 03` in the
model's groups: notes/assumptions/9.md). -/
def Obligations.WrittenOutRecordsDecode : Prop :=
  decode [0x00, 0xE0, 0x03, 0x05, 0x89] = .ok (.reset 480 5 8 9, []) ∧
  decode [0x01, 0x02, 0xE4, 0x94, 0x02] = .ok (.deliver [0xE4, 0x94], [0x02]) ∧
  decode [0x02] = .ok (.cancel, []) ∧ decode [0x03] = .ok (.take, []) ∧ decode [0x04] = .ok (.extract, []) ∧
  decode [0x05] = .ok (.search, []) ∧ decode [0x06] = .ok (.decode, []) ∧ decode [0x07] = .ok (.ascan, []) ∧
  decode [0x08] = .ok (.arun, []) ∧ decode [0x09] = .ok (.aend, []) ∧ decode [0x0A] = .ok (.emit, [])

/-- 30_encoding.md R43 on trace records: no operand is lost, EMIT's frame record included, and the frame records in the
trace of any operations are exactly the ones they present on the port. The bytes of a trace record are the model's
layout (notes/assumptions/9.md, 24.md), and which operations it holds is notes/assumptions/24.md's. -/
def Obligations.TraceRecordsCarryTheirOperands : Prop :=
  (∀ (r : TraceRecord) (rest : List Byte), r.wellFormed = true →
    decodeTraceRecord (r.bytes ++ rest) = .ok (r, rest)) ∧
  ∀ (ops : List Instr) (s t : State), (∀ i ∈ ops, i.wellFormed = true) → runOps ops s = .next t →
    (∀ r ∈ traceOf ops s, r.wellFormed = true) ∧
    t.port = s.port ++ (traceOf ops s).filterMap TraceRecord.carried

/-- A scheduled operation with code `0xB` to `0xF` is refused `RESERVED_OP` (30_encoding.md R52 item 2, 60_exceptions.md
R89). The rest is the model's: that a scheduled code is one byte (notes/assumptions/5.md, 9.md), that exactly that byte
is taken off and that the mark is `RESERVED_OP` also before the first RESET (DESIGN CHOICE, notes/assumptions/11.md), and
that nothing else changes (DEDUCED, notes/assumptions/3.md). -/
def Obligations.ReservedCodesAreRefused : Prop :=
  ∀ (s : State) (b : Byte) (rest : List Byte), 0xB ≤ b.toNat → b.toNat ≤ 0xF → s.script = b :: rest →
    step s = .next { s with script := rest, refusals := s.refusals ++ [.reservedOp (b.setWidth 4)] }

/-- 30_encoding.md R45: the table of cells, and that every other 9-bit value is reserved. -/
def Obligations.CellsAreEncodedAsTabled : Prop :=
  (∀ v : Byte, (Cell.mag v).bits = 0#1 ++ v) ∧
  Cell.zero.bits = 1#1 ++ 0#6 ++ 0b00#2 ∧ Cell.one.bits = 1#1 ++ 0#6 ++ 0b01#2 ∧
  Cell.invalid.bits = 1#1 ++ 0#6 ++ 0b10#2 ∧ Cell.consumed.bits = 1#1 ++ 0#6 ++ 0b11#2 ∧
  (∀ x : Cell, Cell.ofBits x.bits = some x) ∧
  (∀ w : BitVec 9, Cell.ofBits w = none ↔ w.getLsbD 8 = true ∧ w.extractLsb' 2 6 ≠ 0)

/-- 30_encoding.md R50: where each octet and the length bit lie in the record's 113-bit word. -/
def Obligations.RecordWordHoldsOctetsAndLength : Prop :=
  ∀ f : FrameRecord,
    (∀ o, o < 14 → f.word.extractLsb' (1 + 8 * (13 - o)) 8 = f.octet o) ∧
    f.word.getLsbD 0 = decide (f.len = .long)

/-- 30_encoding.md R51: the raw line of a record, and the sixteen digits in ASCII. -/
def Obligations.RawLineIsUpperCaseHex : Prop :=
  (List.range 16).map (fun x => (hexDigit x).toNat) =
    [0x30, 0x31, 0x32, 0x33, 0x34, 0x35, 0x36, 0x37, 0x38, 0x39, 0x41, 0x42, 0x43, 0x44, 0x45, 0x46] ∧
  ∀ f : FrameRecord, ∃ digits : List Byte,
    f.rawLine = 0x2A :: digits ++ [0x3B, 0x0D, 0x0A] ∧ digits.length = f.len.bits / 4 ∧
    (∀ d ∈ digits, (0x30 ≤ d.toNat ∧ d.toNat ≤ 0x39) ∨ (0x41 ≤ d.toNat ∧ d.toNat ≤ 0x46)) ∧
    ∀ o, o < f.len.bits / 8 →
      digits[2 * o]? = some (hexDigit ((f.octet o).toNat / 16)) ∧
      digits[2 * o + 1]? = some (hexDigit ((f.octet o).toNat % 16))

/-- 30_encoding.md R53: `IQ(m)` is a pair of magnitude `m`. -/
def Obligations.StimulusPairHasItsMagnitude : Prop :=
  ∀ m : Nat, m ≤ 255 → ∃ i q : Byte, stimIQ m = [i, q] ∧ (mag i q).toNat = m
end

