-- ==== Sys2Proof/Laws/Memory.lean ====
section
/-! SUPPORT. The laws of an address space: what a read gives after a write, that every operation keeps the canonical
form, and that two canonical memories that read alike are equal. -/

namespace Sys2Proof.Machine

variable {w : Nat}

@[simp] theorem Memory.read_nil (k : Nat) : Memory.read ([] : Memory w) k = none := rfl

theorem Memory.read_cons (a : Nat) (v : BitVec w) (m : Memory w) (k : Nat) :
    Memory.read ((a, v) :: m) k = if a = k then some v else Memory.read m k := rfl

@[simp] theorem Memory.read_write_same (m : Memory w) (k : Nat) (x : BitVec w) : (m.write k x).read k = some x := by
  induction m with
  | nil => simp [Memory.write, Memory.read_cons]
  | cons av m ih =>
    obtain ⟨a, v⟩ := av
    simp only [Memory.write]
    split
    · simp [Memory.read_cons]
    · split
      · simp [Memory.read_cons]
      · rw [Memory.read_cons, if_neg (by omega)]; exact ih

theorem Memory.read_write_ne (m : Memory w) {j k : Nat} (x : BitVec w) (h : j ≠ k) :
    (m.write k x).read j = m.read j := by
  induction m with
  | nil => simp [Memory.write, Memory.read_cons, Ne.symm h]
  | cons av m ih =>
    obtain ⟨a, v⟩ := av
    simp only [Memory.write]
    split
    · rw [Memory.read_cons, if_neg (Ne.symm h)]
    · split
      · subst_vars; simp [Memory.read_cons, Ne.symm h]
      · simp only [Memory.read_cons, ih]

theorem Memory.read_write (m : Memory w) (j k : Nat) (x : BitVec w) :
    (m.write k x).read j = if j = k then some x else m.read j := by
  split
  · subst_vars; simp
  · exact Memory.read_write_ne m x ‹_›

/-- A list written from `k` reads back inside its range, and everything else reads as before. -/
theorem Memory.read_writeList (xs : List (BitVec w)) (m : Memory w) (k j : Nat) :
    (m.writeList k xs).read j = if k ≤ j ∧ j < k + xs.length then xs[j - k]? else m.read j := by
  induction xs generalizing m k with
  | nil => simp [Memory.writeList]
  | cons x xs ih =>
    simp only [Memory.writeList, ih, Memory.read_write, List.length_cons]
    by_cases h1 : k + 1 ≤ j ∧ j < k + 1 + xs.length
    · rw [if_pos h1, if_pos (by omega)]
      obtain ⟨d, rfl⟩ : ∃ d, j = k + 1 + d := ⟨j - (k + 1), by omega⟩
      rw [show k + 1 + d - (k + 1) = d by omega, show k + 1 + d - k = d + 1 by omega]
      simp
    · rw [if_neg h1]
      by_cases h2 : j = k
      · subst h2; simp
      · rw [if_neg h2, if_neg (by omega)]

/-! ### The canonical form -/

theorem Memory.wfFrom_mono {m : Memory w} {i k : Nat} (h : i ≤ k) (hm : Memory.wfFrom k m = true) :
    Memory.wfFrom i m = true := by
  cases m with
  | nil => rfl
  | cons av m => simp_all [Memory.wfFrom]; omega

theorem Memory.wfFrom_write {m : Memory w} {i k : Nat} (x : BitVec w) (hik : i ≤ k) (hm : Memory.wfFrom i m = true) :
    Memory.wfFrom i (m.write k x) = true := by
  induction m generalizing i with
  | nil => simp [Memory.write, Memory.wfFrom, hik]
  | cons av m ih =>
    obtain ⟨a, v⟩ := av
    simp only [Memory.wfFrom, Bool.and_eq_true, decide_eq_true_eq] at hm
    simp only [Memory.write]
    split
    · simp only [Memory.wfFrom, Bool.and_eq_true, decide_eq_true_eq]; exact ⟨hik, by omega, hm.2⟩
    · split
      · subst_vars; simpa [Memory.wfFrom] using hm
      · simp only [Memory.wfFrom, Bool.and_eq_true, decide_eq_true_eq]; exact ⟨hm.1, ih (by omega) hm.2⟩

theorem Memory.wf_nil : Memory.wf ([] : Memory w) = true := rfl

/-- A write keeps the canonical form. -/
theorem Memory.wf_write {m : Memory w} (k : Nat) (x : BitVec w) (hm : m.wf = true) : (m.write k x).wf = true :=
  Memory.wfFrom_write x (Nat.zero_le k) hm

/-- A list write keeps the canonical form. -/
theorem Memory.wf_writeList (xs : List (BitVec w)) {m : Memory w} (k : Nat) (hm : m.wf = true) :
    (m.writeList k xs).wf = true := by
  induction xs generalizing m k with
  | nil => exact hm
  | cons x xs ih => exact ih (k + 1) (Memory.wf_write k x hm)

theorem Memory.read_lt_of_wfFrom {m : Memory w} {i k : Nat} (hm : Memory.wfFrom i m = true) (hk : k < i) :
    m.read k = none := by
  induction m generalizing i with
  | nil => rfl
  | cons av m ih =>
    obtain ⟨a, v⟩ := av
    simp only [Memory.wfFrom, Bool.and_eq_true, decide_eq_true_eq] at hm
    rw [Memory.read_cons, if_neg (by omega)]
    exact ih hm.2 (by omega)

theorem Memory.wfFrom_ext {m m' : Memory w} {i : Nat} (hm : Memory.wfFrom i m = true) (hm' : Memory.wfFrom i m' = true)
    (h : ∀ k, m.read k = m'.read k) : m = m' := by
  induction m generalizing m' i with
  | nil =>
    cases m' with
    | nil => rfl
    | cons av m' => obtain ⟨a, v⟩ := av; have := h a; simp [Memory.read_cons] at this
  | cons av m ih =>
    obtain ⟨a, v⟩ := av
    cases m' with
    | nil => have := h a; simp [Memory.read_cons] at this
    | cons bu m' =>
      obtain ⟨b, u⟩ := bu
      simp only [Memory.wfFrom, Bool.and_eq_true, decide_eq_true_eq] at hm hm'
      have hab : a = b := by
        have ha := h a
        have hb := h b
        simp only [Memory.read_cons, if_true] at ha hb
        by_contra hne
        rw [if_neg (Ne.symm hne)] at ha
        rw [if_neg hne] at hb
        by_cases hlt : a < b
        · rw [Memory.read_lt_of_wfFrom hm'.2 (by omega)] at ha; cases ha
        · rw [Memory.read_lt_of_wfFrom hm.2 (by omega)] at hb; cases hb
      subst hab
      have hv : v = u := by have := h a; simpa [Memory.read_cons] using this
      subst hv
      rw [ih hm.2 hm'.2 fun k => ?_]
      by_cases hk : k < a + 1
      · rw [Memory.read_lt_of_wfFrom hm.2 hk, Memory.read_lt_of_wfFrom hm'.2 hk]
      · have := h k; rwa [Memory.read_cons, Memory.read_cons, if_neg (by omega), if_neg (by omega)] at this

/-- Two canonical memories that read alike at every index are the same data. -/
theorem Memory.ext_of_wf {m m' : Memory w} (hm : m.wf = true) (hm' : m'.wf = true) (h : ∀ k, m.read k = m'.read k) :
    m = m' :=
  Memory.wfFrom_ext hm hm' h

/-! ### The faulting accesses -/

theorem readAt_eq_ok {size : Nat} {m : Memory w} {k : Nat} {v : BitVec w} :
    readAt size m k = .ok v ↔ k < size ∧ m.read k = some v := by
  unfold readAt
  split
  · cases m.read k <;> simp_all
  · simp_all

theorem readAt_of_read {size : Nat} {m : Memory w} {k : Nat} {v : BitVec w} (hk : k < size) (h : m.read k = some v) :
    readAt size m k = .ok v :=
  readAt_eq_ok.2 ⟨hk, h⟩

theorem writeAt_eq_ok {size : Nat} {m m' : Memory w} {k : Nat} {x : BitVec w} :
    writeAt size m k x = .ok m' ↔ k < size ∧ m' = m.write k x := by
  unfold writeAt; split <;> simp_all [eq_comm]

theorem fillAt_eq_ok {size : Nat} {m m' : Memory w} {k count : Nat} {x : BitVec w} :
    fillAt size m k count x = .ok m' ↔ k + count ≤ size ∧ m' = m.writeList k (List.replicate count x) := by
  unfold fillAt; split <;> simp_all [eq_comm]

/-- A range reads as the list of its elements, when every one of them holds a value. -/
theorem readRange_eq_ok {size : Nat} {m : Memory w} {k count : Nat} {vs : List (BitVec w)} :
    readRange size m k count = .ok vs ↔
      vs.length = count ∧ ∀ i, i < count → k + i < size ∧ m.read (k + i) = vs[i]? := by
  induction count generalizing k vs with
  | zero => simp [readRange, eq_comm]
  | succ count ih =>
    simp only [readRange]
    constructor
    · intro h
      split at h
      · cases h
      · rename_i v hv
        split at h
        · cases h
        · rename_i us hus
          cases h
          obtain ⟨hl, hi⟩ := ih.1 hus
          refine ⟨by simp [hl], fun i hlt => ?_⟩
          cases i with
          | zero => have := readAt_eq_ok.1 hv; simpa using this
          | succ i =>
            have := hi i (by omega)
            rw [show k + (i + 1) = k + 1 + i by omega]; simpa using this
    · rintro ⟨hl, hi⟩
      obtain ⟨v, us, rfl⟩ : ∃ v us, vs = v :: us := by
        cases vs with
        | nil => simp at hl
        | cons v us => exact ⟨v, us, rfl⟩
      have h0 := hi 0 (by omega)
      rw [readAt_of_read (by simpa using h0.1) (by simpa using h0.2)]
      have : readRange size m (k + 1) count = .ok us := by
        refine ih.2 ⟨by simpa using hl, fun i hlt => ?_⟩
        have := hi (i + 1) (by omega)
        rw [show k + 1 + i = k + (i + 1) by omega]; simpa using this
      simp [this]

end Sys2Proof.Machine
end

