-- ==== Sys2Proof/Laws/State.lean ====
section
/-! SUPPORT. One lemma per field for each named update of State, so that no later proof unfolds a record update. -/

namespace Sys2Proof.Machine

/-! ### A trace event -/

@[simp] theorem State.record_cfg (s : State) (e : Event) : (s.record e).cfg = s.cfg := rfl
@[simp] theorem State.record_bank0 (s : State) (e : Event) : (s.record e).bank0 = s.bank0 := rfl
@[simp] theorem State.record_bank1 (s : State) (e : Event) : (s.record e).bank1 = s.bank1 := rfl
@[simp] theorem State.record_land (s : State) (e : Event) : (s.record e).land = s.land := rfl
@[simp] theorem State.record_pending (s : State) (e : Event) : (s.record e).pending = s.pending := rfl
@[simp] theorem State.record_exitf (s : State) (e : Event) : (s.record e).exitf = s.exitf := rfl
@[simp] theorem State.record_phase (s : State) (e : Event) : (s.record e).phase = s.phase := rfl
@[simp] theorem State.record_cell (s : State) (e : Event) : (s.record e).cell = s.cell := rfl
@[simp] theorem State.record_start (s : State) (e : Event) : (s.record e).start = s.start := rfl
@[simp] theorem State.record_n (s : State) (e : Event) : (s.record e).n = s.n := rfl
@[simp] theorem State.record_ra (s : State) (e : Event) : (s.record e).ra = s.ra := rfl
@[simp] theorem State.record_rb (s : State) (e : Event) : (s.record e).rb = s.rb := rfl
@[simp] theorem State.record_err (s : State) (e : Event) : (s.record e).err = s.err := rfl
@[simp] theorem State.record_frame (s : State) (e : Event) : (s.record e).frame = s.frame := rfl
@[simp] theorem State.record_dcnt (s : State) (e : Event) : (s.record e).dcnt = s.dcnt := rfl
@[simp] theorem State.record_flen (s : State) (e : Event) : (s.record e).flen = s.flen := rfl
@[simp] theorem State.record_refusals (s : State) (e : Event) : (s.record e).refusals = s.refusals := rfl
@[simp] theorem State.record_events (s : State) (e : Event) : (s.record e).events = s.events ++ [e] := rfl
@[simp] theorem State.record_port (s : State) (e : Event) : (s.record e).port = s.port := rfl
@[simp] theorem State.record_script (s : State) (e : Event) : (s.record e).script = s.script := rfl
@[simp] theorem State.record_sinkAnswers (s : State) (e : Event) : (s.record e).sinkAnswers = s.sinkAnswers := rfl
@[simp] theorem State.record_sinkThen (s : State) (e : Event) : (s.record e).sinkThen = s.sinkThen := rfl

/-! ### The sink's answer -/

@[simp] theorem State.sinkAsked_cfg (s : State) : s.sinkAsked.cfg = s.cfg := rfl
@[simp] theorem State.sinkAsked_bank0 (s : State) : s.sinkAsked.bank0 = s.bank0 := rfl
@[simp] theorem State.sinkAsked_bank1 (s : State) : s.sinkAsked.bank1 = s.bank1 := rfl
@[simp] theorem State.sinkAsked_land (s : State) : s.sinkAsked.land = s.land := rfl
@[simp] theorem State.sinkAsked_pending (s : State) : s.sinkAsked.pending = s.pending := rfl
@[simp] theorem State.sinkAsked_exitf (s : State) : s.sinkAsked.exitf = s.exitf := rfl
@[simp] theorem State.sinkAsked_phase (s : State) : s.sinkAsked.phase = s.phase := rfl
@[simp] theorem State.sinkAsked_cell (s : State) : s.sinkAsked.cell = s.cell := rfl
@[simp] theorem State.sinkAsked_start (s : State) : s.sinkAsked.start = s.start := rfl
@[simp] theorem State.sinkAsked_n (s : State) : s.sinkAsked.n = s.n := rfl
@[simp] theorem State.sinkAsked_ra (s : State) : s.sinkAsked.ra = s.ra := rfl
@[simp] theorem State.sinkAsked_rb (s : State) : s.sinkAsked.rb = s.rb := rfl
@[simp] theorem State.sinkAsked_err (s : State) : s.sinkAsked.err = s.err := rfl
@[simp] theorem State.sinkAsked_frame (s : State) : s.sinkAsked.frame = s.frame := rfl
@[simp] theorem State.sinkAsked_dcnt (s : State) : s.sinkAsked.dcnt = s.dcnt := rfl
@[simp] theorem State.sinkAsked_flen (s : State) : s.sinkAsked.flen = s.flen := rfl
@[simp] theorem State.sinkAsked_refusals (s : State) : s.sinkAsked.refusals = s.refusals := rfl
@[simp] theorem State.sinkAsked_events (s : State) : s.sinkAsked.events = s.events := rfl
@[simp] theorem State.sinkAsked_port (s : State) : s.sinkAsked.port = s.port := rfl
@[simp] theorem State.sinkAsked_script (s : State) : s.sinkAsked.script = s.script := rfl
@[simp] theorem State.sinkAsked_sinkAnswers (s : State) : s.sinkAsked.sinkAnswers = s.sinkAnswers.tail := rfl
@[simp] theorem State.sinkAsked_sinkThen (s : State) : s.sinkAsked.sinkThen = s.sinkThen := rfl

/-! ### A bank replaced -/

@[simp] theorem State.setBank_cfg (s : State) (b : BankSel) (m : Memory 8) : (s.setBank b m).cfg = s.cfg := by
  cases b <;> rfl
@[simp] theorem State.setBank_land (s : State) (b : BankSel) (m : Memory 8) : (s.setBank b m).land = s.land := by
  cases b <;> rfl
@[simp] theorem State.setBank_pending (s : State) (b : BankSel) (m : Memory 8) : (s.setBank b m).pending = s.pending := by
  cases b <;> rfl
@[simp] theorem State.setBank_exitf (s : State) (b : BankSel) (m : Memory 8) : (s.setBank b m).exitf = s.exitf := by
  cases b <;> rfl
@[simp] theorem State.setBank_phase (s : State) (b : BankSel) (m : Memory 8) : (s.setBank b m).phase = s.phase := by
  cases b <;> rfl
@[simp] theorem State.setBank_cell (s : State) (b : BankSel) (m : Memory 8) : (s.setBank b m).cell = s.cell := by
  cases b <;> rfl
@[simp] theorem State.setBank_start (s : State) (b : BankSel) (m : Memory 8) : (s.setBank b m).start = s.start := by
  cases b <;> rfl
@[simp] theorem State.setBank_n (s : State) (b : BankSel) (m : Memory 8) : (s.setBank b m).n = s.n := by
  cases b <;> rfl
@[simp] theorem State.setBank_ra (s : State) (b : BankSel) (m : Memory 8) : (s.setBank b m).ra = s.ra := by
  cases b <;> rfl
@[simp] theorem State.setBank_rb (s : State) (b : BankSel) (m : Memory 8) : (s.setBank b m).rb = s.rb := by
  cases b <;> rfl
@[simp] theorem State.setBank_err (s : State) (b : BankSel) (m : Memory 8) : (s.setBank b m).err = s.err := by
  cases b <;> rfl
@[simp] theorem State.setBank_frame (s : State) (b : BankSel) (m : Memory 8) : (s.setBank b m).frame = s.frame := by
  cases b <;> rfl
@[simp] theorem State.setBank_dcnt (s : State) (b : BankSel) (m : Memory 8) : (s.setBank b m).dcnt = s.dcnt := by
  cases b <;> rfl
@[simp] theorem State.setBank_flen (s : State) (b : BankSel) (m : Memory 8) : (s.setBank b m).flen = s.flen := by
  cases b <;> rfl
@[simp] theorem State.setBank_refusals (s : State) (b : BankSel) (m : Memory 8) : (s.setBank b m).refusals = s.refusals := by
  cases b <;> rfl
@[simp] theorem State.setBank_events (s : State) (b : BankSel) (m : Memory 8) : (s.setBank b m).events = s.events := by
  cases b <;> rfl
@[simp] theorem State.setBank_port (s : State) (b : BankSel) (m : Memory 8) : (s.setBank b m).port = s.port := by
  cases b <;> rfl
@[simp] theorem State.setBank_script (s : State) (b : BankSel) (m : Memory 8) : (s.setBank b m).script = s.script := by
  cases b <;> rfl
@[simp] theorem State.setBank_sinkAnswers (s : State) (b : BankSel) (m : Memory 8) : (s.setBank b m).sinkAnswers = s.sinkAnswers := by
  cases b <;> rfl
@[simp] theorem State.setBank_sinkThen (s : State) (b : BankSel) (m : Memory 8) : (s.setBank b m).sinkThen = s.sinkThen := by
  cases b <;> rfl

@[simp] theorem State.bank_setBank_same (s : State) (b : BankSel) (m : Memory 8) : (s.setBank b m).bank b = m := by
  cases b <;> rfl

@[simp] theorem State.bank_setBank_other (s : State) (b : BankSel) (m : Memory 8) :
    (s.setBank b m).bank b.other = s.bank b.other := by
  cases b <;> rfl

theorem State.bank_setBank_ne (s : State) {b b' : BankSel} (m : Memory 8) (h : b' ≠ b) :
    (s.setBank b m).bank b' = s.bank b' := by
  cases b <;> cases b' <;> simp_all [State.setBank, State.bank]

@[simp] theorem BankSel.other_other (b : BankSel) : b.other.other = b := by cases b <;> rfl

@[simp] theorem BankSel.other_ne (b : BankSel) : b.other ≠ b := by cases b <;> simp [BankSel.other]

@[simp] theorem BankSel.ne_other (b : BankSel) : b ≠ b.other := by cases b <;> simp [BankSel.other]

/-! ### The readiness signal -/

@[simp] theorem State.signalReady_cfg (s : State) : s.signalReady.cfg = s.cfg := by
  unfold State.signalReady; split <;> rfl
@[simp] theorem State.signalReady_bank0 (s : State) : s.signalReady.bank0 = s.bank0 := by
  unfold State.signalReady; split <;> rfl
@[simp] theorem State.signalReady_bank1 (s : State) : s.signalReady.bank1 = s.bank1 := by
  unfold State.signalReady; split <;> rfl
@[simp] theorem State.signalReady_land (s : State) : s.signalReady.land = s.land := by
  unfold State.signalReady; split <;> rfl
@[simp] theorem State.signalReady_exitf (s : State) : s.signalReady.exitf = s.exitf := by
  unfold State.signalReady; split <;> rfl
@[simp] theorem State.signalReady_phase (s : State) : s.signalReady.phase = s.phase := by
  unfold State.signalReady; split <;> rfl
@[simp] theorem State.signalReady_cell (s : State) : s.signalReady.cell = s.cell := by
  unfold State.signalReady; split <;> rfl
@[simp] theorem State.signalReady_start (s : State) : s.signalReady.start = s.start := by
  unfold State.signalReady; split <;> rfl
@[simp] theorem State.signalReady_n (s : State) : s.signalReady.n = s.n := by
  unfold State.signalReady; split <;> rfl
@[simp] theorem State.signalReady_ra (s : State) : s.signalReady.ra = s.ra := by
  unfold State.signalReady; split <;> rfl
@[simp] theorem State.signalReady_rb (s : State) : s.signalReady.rb = s.rb := by
  unfold State.signalReady; split <;> rfl
@[simp] theorem State.signalReady_err (s : State) : s.signalReady.err = s.err := by
  unfold State.signalReady; split <;> rfl
@[simp] theorem State.signalReady_frame (s : State) : s.signalReady.frame = s.frame := by
  unfold State.signalReady; split <;> rfl
@[simp] theorem State.signalReady_dcnt (s : State) : s.signalReady.dcnt = s.dcnt := by
  unfold State.signalReady; split <;> rfl
@[simp] theorem State.signalReady_flen (s : State) : s.signalReady.flen = s.flen := by
  unfold State.signalReady; split <;> rfl
@[simp] theorem State.signalReady_refusals (s : State) : s.signalReady.refusals = s.refusals := by
  unfold State.signalReady; split <;> rfl
@[simp] theorem State.signalReady_port (s : State) : s.signalReady.port = s.port := by
  unfold State.signalReady; split <;> rfl
@[simp] theorem State.signalReady_script (s : State) : s.signalReady.script = s.script := by
  unfold State.signalReady; split <;> rfl
@[simp] theorem State.signalReady_sinkAnswers (s : State) : s.signalReady.sinkAnswers = s.sinkAnswers := by
  unfold State.signalReady; split <;> rfl
@[simp] theorem State.signalReady_sinkThen (s : State) : s.signalReady.sinkThen = s.sinkThen := by
  unfold State.signalReady; split <;> rfl
@[simp] theorem State.signalReady_pending (s : State) : s.signalReady.pending = true := by
  unfold State.signalReady; split <;> simp_all
theorem State.signalReady_events (s : State) :
    s.signalReady.events = if s.pending then s.events ++ [.bufferOverwrite] else s.events := by
  unfold State.signalReady; split <;> rfl

/-! ### Views that an update leaves alone -/

theorem State.bank_congr {s t : State} (h0 : t.bank0 = s.bank0) (h1 : t.bank1 = s.bank1) (b : BankSel) :
    t.bank b = s.bank b := by
  cases b <;> simp [State.bank, h0, h1]

@[simp] theorem State.record_bank (s : State) (e : Event) (b : BankSel) : (s.record e).bank b = s.bank b := rfl
@[simp] theorem State.sinkAsked_bank (s : State) (b : BankSel) : s.sinkAsked.bank b = s.bank b := by cases b <;> rfl
@[simp] theorem State.signalReady_bank (s : State) (b : BankSel) : s.signalReady.bank b = s.bank b :=
  State.bank_congr (by simp) (by simp) b

@[simp] theorem State.record_workBank (s : State) (e : Event) : (s.record e).workBank = s.workBank := rfl
@[simp] theorem State.sinkAsked_workBank (s : State) : s.sinkAsked.workBank = s.workBank := by
  simp [State.workBank]
@[simp] theorem State.record_landBank (s : State) (e : Event) : (s.record e).landBank = s.landBank := rfl
@[simp] theorem State.sinkAsked_landBank (s : State) : s.sinkAsked.landBank = s.landBank := by
  simp [State.landBank]

end Sys2Proof.Machine
end

