-- ==== Sys2Proof/Laws/Ops.lean ====
section
/-! SUPPORT. One lemma per shared operation: what it needs to answer, and what it then answers. Later proofs cite these
and unfold no operation. -/

namespace Sys2Proof.Machine

/-! ### Sequencing -/

@[simp] theorem readThen_ok {α : Type} (a : α) (k : α → Result) : readThen (.ok a) k = k a := rfl

@[simp] theorem readThen_error {α : Type} (f : Fault) (k : α → Result) : readThen (.error f) k = .fault f := rfl

/-- A sequenced read answers a next state only through the value it read. -/
theorem readThen_eq_next {α : Type} {x : Except Fault α} {k : α → Result} {t : State} :
    readThen x k = .next t ↔ ∃ a, x = .ok a ∧ k a = .next t := by
  cases x <;> simp

theorem readThen_eq_fault {α : Type} {x : Except Fault α} {k : α → Result} {f : Fault} :
    readThen x k = .fault f ↔ x = .error f ∨ ∃ a, x = .ok a ∧ k a = .fault f := by
  cases x <;> simp

@[simp] theorem session_some {s : State} {c : Config} (h : s.cfg = some c) (k : Config → Result) : session s k = k c := by
  simp [session, h]

@[simp] theorem session_none {s : State} (h : s.cfg = none) (k : Config → Result) :
    session s k = refuse .notReset s := by
  simp [session, h]

/-- An operation within a session answers either the refusal `NOT_RESET` or what it does there. -/
theorem session_eq_next {s t : State} {k : Config → Result} :
    session s k = .next t ↔
      (s.cfg = none ∧ t = { s with refusals := s.refusals ++ [.notReset] }) ∨ ∃ c, s.cfg = some c ∧ k c = .next t := by
  unfold session refuse
  cases h : s.cfg <;> simp [eq_comm]

@[simp] theorem refuse_eq_next {m : RefusalMark} {s t : State} :
    refuse m s = .next t ↔ t = { s with refusals := s.refusals ++ [m] } := by
  simp [refuse, eq_comm]

@[simp] theorem readReg_some {α : Type} (a : α) : readReg (some a) = .ok a := rfl

theorem readReg_eq_ok {α : Type} {r : Option α} {a : α} : readReg r = .ok a ↔ r = some a := by
  cases r <;> simp [readReg]

/-! ### Cells -/

@[simp] theorem Cell.ofBits_bits (x : Cell) : Cell.ofBits x.bits = some x := by
  cases x with
  | mag v =>
    have hv : v.toNat < 256 := v.isLt
    have : (v.setWidth 9).toNat = v.toNat := by simp; omega
    simp [Cell.bits, Cell.ofBits, this, hv]
  | zero | one | invalid | consumed => rfl

theorem Cell.ofBits_eq_some {w : BitVec 9} {x : Cell} : Cell.ofBits w = some x ↔ w = x.bits := by
  constructor
  · intro h
    unfold Cell.ofBits at h
    have hw : w.toNat < 512 := w.isLt
    split at h
    · cases h
      apply BitVec.eq_of_toNat_eq
      simp [Cell.bits]; omega
    · split at h
      · cases h; apply BitVec.eq_of_toNat_eq; simp [Cell.bits]; omega
      · split at h
        · cases h; apply BitVec.eq_of_toNat_eq; simp [Cell.bits]; omega
        · split at h
          · cases h; apply BitVec.eq_of_toNat_eq; simp [Cell.bits]; omega
          · split at h
            · cases h; apply BitVec.eq_of_toNat_eq; simp [Cell.bits]; omega
            · cases h
  · rintro rfl; exact Cell.ofBits_bits x

theorem Cell.bits_injective {x y : Cell} (h : x.bits = y.bits) : x = y := by
  have := Cell.ofBits_bits x
  rw [h, Cell.ofBits_bits] at this
  exact (Option.some.inj this).symm

theorem cellOfBits_eq_ok {w : BitVec 9} {x : Cell} : cellOfBits w = .ok x ↔ w = x.bits := by
  rw [← Cell.ofBits_eq_some]
  unfold cellOfBits
  cases Cell.ofBits w <;> simp

/-- A cell reads as `x` exactly when it lies in the array and holds `x`'s encoding. -/
theorem readCell_eq_ok {c : Config} {s : State} {k : Nat} {x : Cell} :
    readCell c s k = .ok x ↔ k < c.N ∧ s.cell.read k = some x.bits := by
  unfold readCell
  split
  · rename_i f h
    simp only [reduceCtorEq, false_iff]
    intro ⟨hk, hr⟩
    rw [readAt_of_read hk hr] at h; cases h
  · rename_i w h
    obtain ⟨hk, hr⟩ := readAt_eq_ok.1 h
    rw [cellOfBits_eq_ok, hr]; simp [hk]

theorem Cell.val_eq_ok {x : Cell} {v : Byte} : x.val = .ok v ↔ x = .mag v := by
  cases x <;> simp [Cell.val]

theorem readVal_eq_ok {c : Config} {s : State} {k : Nat} {v : Byte} :
    readVal c s k = .ok v ↔ k < c.N ∧ s.cell.read k = some (Cell.mag v).bits := by
  rw [← readCell_eq_ok]
  unfold readVal
  cases h : readCell c s k <;> simp [Cell.val_eq_ok]

theorem writeCell_eq_ok {c : Config} {s t : State} {k : Nat} {x : Cell} :
    writeCell c s k x = .ok t ↔ k < c.N ∧ t = { s with cell := s.cell.write k x.bits } := by
  unfold writeCell writeAt
  by_cases h : k < c.N <;> simp [h, eq_comm]

theorem fillCells_eq_ok {c : Config} {s t : State} {k count : Nat} {x : Cell} :
    fillCells c s k count x = .ok t ↔
      k + count ≤ c.N ∧ t = { s with cell := s.cell.writeList k (List.replicate count x.bits) } := by
  unfold fillCells fillAt
  by_cases h : k + count ≤ c.N <;> simp [h, eq_comm]

/-! ### Frame octets -/

theorem readOctet_eq_ok {s : State} {o : Nat} {v : Byte} :
    readOctet s o = .ok v ↔ o < 14 ∧ s.frame.read o = some v := readAt_eq_ok

theorem writeOctet_eq_ok {s t : State} {o : Nat} {v : Byte} :
    writeOctet s o v = .ok t ↔ o < 14 ∧ t = { s with frame := s.frame.write o v } := by
  unfold writeOctet writeAt frameOctets
  by_cases h : o < 14 <;> simp [h, eq_comm]

/-- What the frame port shows: the 14 octets as they read, with the resolved length. -/
theorem presented_eq_ok {s : State} {f : FrameRecord} :
    s.presented = .ok f ↔ readRange 14 s.frame 0 14 = .ok f.octets ∧ s.flen = some f.len := by
  unfold State.presented
  cases ho : readRange frameOctets s.frame 0 frameOctets with
  | error e => rw [frameOctets] at ho; simp [ho]
  | ok octets =>
    rw [frameOctets] at ho
    cases hl : s.flen <;> cases f <;> simp [ho, readReg]

theorem setFbit_eq_ok {s t : State} {d : Nat} :
    setFbit s d = .ok t ↔ d < 112 ∧ ∃ v, s.frame.read (d / 8) = some v ∧
      t = { s with frame := s.frame.write (d / 8) (v ||| fbitMask d) } := by
  unfold setFbit
  cases h : readOctet s (d / 8) with
  | error f =>
    simp only [reduceCtorEq, false_iff]
    rintro ⟨hd, v, hv, -⟩
    rw [readOctet_eq_ok.2 ⟨by omega, hv⟩] at h; cases h
  | ok v =>
    obtain ⟨hd, hv⟩ := readOctet_eq_ok.1 h
    simp only [writeOctet_eq_ok, hv, Option.some.injEq, exists_eq_left']
    constructor <;> rintro ⟨h1, h2⟩ <;> exact ⟨by omega, h2⟩

/-- A cleared frame reads zero at each of its 14 octets. -/
theorem clearedFrame_read (m : Memory 8) (o : Nat) :
    (clearedFrame m).read o = if o < 14 then some 0 else m.read o := by
  unfold clearedFrame frameOctets
  rw [Memory.read_writeList]
  simp only [Nat.zero_le, true_and, List.length_replicate, Nat.zero_add, Nat.sub_zero,
    List.getElem?_replicate]
  split
  · rfl
  · rfl

/-! ### The assembler's run -/

/-- The run continues exactly on a bit cell inside the array, with fewer bits than the target collected. -/
theorem runContinues_eq_true {c : Config} {s : State} {j : Nat} :
    runContinues c s j = .ok true ↔
      j < c.N ∧ ∃ x d len, s.cell.read j = some (Cell.bits x) ∧ x.isBit = true ∧ s.dcnt = some d ∧ s.flen = some len ∧
        d < len.bits := by
  unfold runContinues
  by_cases hj : j < c.N
  · rw [if_pos hj]
    cases hx : readCell c s j with
    | error f =>
      simp only [reduceCtorEq, false_iff]
      rintro ⟨-, x, d, len, hr, -⟩
      rw [readCell_eq_ok.2 ⟨hj, hr⟩] at hx; cases hx
    | ok x =>
      have hr := (readCell_eq_ok.1 hx).2
      by_cases hb : x.isBit
      · cases hd : s.dcnt <;> cases hl : s.flen <;> simp_all [readReg]
        constructor
        · exact fun h => ⟨x, rfl, hb, h⟩
        · rintro ⟨-, -, -, h⟩; exact h
      · simp only [hb, Bool.false_eq_true, if_false, Except.ok.injEq, false_iff]
        rintro ⟨-, y, d, len, hy, hyb, -⟩
        rw [hr, Option.some.injEq] at hy
        rw [Cell.bits_injective hy] at hb; exact hb hyb
  · simp [hj]

/-- The run has stopped: the end of the cells, a cell that is no bit, or the target reached. -/
theorem runContinues_eq_false {c : Config} {s : State} {j : Nat} :
    runContinues c s j = .ok false ↔
      c.N ≤ j ∨ (j < c.N ∧ ∃ x, s.cell.read j = some (Cell.bits x) ∧
        (x.isBit = false ∨ ∃ d len, x.isBit = true ∧ s.dcnt = some d ∧ s.flen = some len ∧ len.bits ≤ d)) := by
  unfold runContinues
  by_cases hj : j < c.N
  · rw [if_pos hj]
    have hn : ¬ c.N ≤ j := by omega
    simp only [hn, hj, true_and, false_or]
    cases hx : readCell c s j with
    | error f =>
      simp only [reduceCtorEq, false_iff]
      rintro ⟨x, hr, -⟩
      rw [readCell_eq_ok.2 ⟨hj, hr⟩] at hx; cases hx
    | ok x =>
      have hr := (readCell_eq_ok.1 hx).2
      have huniq : ∀ y : Cell, s.cell.read j = some y.bits → y = x := fun y hy => by
        rw [hr, Option.some.injEq] at hy; exact (Cell.bits_injective hy).symm
      by_cases hb : x.isBit
      · simp only [hb, if_true]
        constructor
        · intro h
          refine ⟨x, hr, .inr ?_⟩
          cases hd : s.dcnt <;> cases hl : s.flen <;> simp_all [readReg]
        · rintro ⟨y, hy, h⟩
          cases huniq y hy
          rcases h with h | ⟨d, len, -, hd, hl, h⟩
          · simp [hb] at h
          · simp [hd, hl]; omega
      · simp only [hb, Bool.false_eq_true, if_false]
        simp only [true_iff]
        exact ⟨x, hr, .inl (by simpa using hb)⟩
  · simp [hj]; omega

end Sys2Proof.Machine
end

