-- ==== Sys2Proof/Laws/Meanings.lean ====
section
/-! SUPPORT. One inversion lemma per meaning: every way in which it answers a next state, and that state. The other
lemmas about the machine are case splits over these. Before the first RESET every operation but RESET answers the one
mark NOT_RESET, the first case of each. -/

namespace Sys2Proof.Machine

/-- The state a refused operation leaves: the mark and nothing else. -/
abbrev State.marked (s : State) (m : RefusalMark) : State := { s with refusals := s.refusals ++ [m] }

theorem execReset_next {l e a b : Nat} {s t : State} (h : execReset l e a b s = .next t) :
    (Config.legal ⟨l, e, a, b⟩ = false ∧ t = s.marked .badConfig) ∨
    (Config.legal ⟨l, e, a, b⟩ = true ∧ t = { s with
      cfg := some ⟨l, e, a, b⟩, land := .bank0, pending := false, exitf := false, phase := .wait, bank0 := [],
      bank1 := [], cell := [], start := none, n := none, ra := none, rb := none, err := none, frame := [],
      dcnt := none, flen := none }) := by
  simp only [execReset] at h
  split at h
  · exact .inr ⟨‹_›, by cases h; rfl⟩
  · exact .inl ⟨eq_false_of_ne_true ‹_›, refuse_eq_next.1 h⟩

theorem execDeliver_next {data : List Byte} {s t : State} (h : execDeliver data s = .next t) :
    (s.cfg = none ∧ t = s.marked .notReset) ∨
    ∃ c, s.cfg = some c ∧
      ((data.length ≠ c.L ∧ t = s.marked .deliverLength) ∨
       (data.length = c.L ∧ s.exitf = true ∧ t = s.record .deliveryDropped) ∨
       (data.length = c.L ∧ s.exitf = false ∧
          t = (s.setBank s.land (s.landBank.writeList 0 data)).signalReady)) := by
  rcases session_eq_next.1 h with h | ⟨c, hc, h⟩
  · exact .inl h
  · refine .inr ⟨c, hc, ?_⟩
    split at h
    · exact .inl ⟨‹_›, refuse_eq_next.1 h⟩
    · have hl : data.length = c.L := not_not.1 ‹_›
      split at h
      · exact .inr (.inl ⟨hl, ‹_›, by cases h; rfl⟩)
      · exact .inr (.inr ⟨hl, eq_false_of_ne_true ‹_›, by cases h; rfl⟩)

theorem execCancel_next {s t : State} (h : execCancel s = .next t) :
    (s.cfg = none ∧ t = s.marked .notReset) ∨ ∃ c, s.cfg = some c ∧ t = { s with exitf := true } := by
  rcases session_eq_next.1 h with h | ⟨c, hc, h⟩
  · exact .inl h
  · exact .inr ⟨c, hc, by cases h; rfl⟩

theorem execTake_next {s t : State} (h : execTake s = .next t) :
    (s.cfg = none ∧ t = s.marked .notReset) ∨
    ∃ c, s.cfg = some c ∧ s.phase = .wait ∧
      ((s.exitf = true ∧ t = { s with phase := .done }) ∨
       (s.exitf = false ∧ s.pending = true ∧
          t = { s with land := s.land.other, pending := false, phase := .extract 0 }) ∨
       (s.exitf = false ∧ s.pending = false ∧ t = s)) := by
  rcases session_eq_next.1 h with h | ⟨c, hc, h⟩
  · exact .inl h
  · refine .inr ⟨c, hc, ?_⟩
    split at h
    · refine ⟨‹_›, ?_⟩
      split at h
      · exact .inl ⟨‹_›, by cases h; rfl⟩
      · split at h
        · exact .inr (.inl ⟨eq_false_of_ne_true ‹¬s.exitf = true›, ‹_›, by cases h; rfl⟩)
        · exact .inr (.inr ⟨eq_false_of_ne_true ‹¬s.exitf = true›, eq_false_of_ne_true ‹¬s.pending = true›, by cases h; rfl⟩)
    · cases h

theorem execExtract_next {s t : State} (h : execExtract s = .next t) :
    (s.cfg = none ∧ t = s.marked .notReset) ∨
    ∃ c k, s.cfg = some c ∧ s.phase = .extract k ∧
      ((k < c.N ∧ ∃ i q, 2 * k < c.L ∧ 2 * k + 1 < c.L ∧
          s.workBank.read (2 * k) = some i ∧ s.workBank.read (2 * k + 1) = some q ∧
          t = { s with cell := s.cell.write k (Cell.mag (mag i q)).bits, phase := .extract (k + 1) }) ∨
       (c.N ≤ k ∧ t = { s with err := some 0, phase := .search 0 })) := by
  rcases session_eq_next.1 h with h | ⟨c, hc, h⟩
  · exact .inl h
  · right
    split at h
    · rename_i k hk
      refine ⟨c, k, hc, hk, ?_⟩
      split at h
      · obtain ⟨i, hi, h⟩ := readThen_eq_next.1 h
        obtain ⟨q, hq, h⟩ := readThen_eq_next.1 h
        obtain ⟨u, hu, h⟩ := readThen_eq_next.1 h
        obtain ⟨hkN, rfl⟩ := writeCell_eq_ok.1 hu
        obtain ⟨hi1, hi2⟩ := readAt_eq_ok.1 hi
        obtain ⟨hq1, hq2⟩ := readAt_eq_ok.1 hq
        exact .inl ⟨hkN, i, q, hi1, hq1, hi2, hq2, by cases h; rfl⟩
      · exact .inr ⟨by omega, by cases h; rfl⟩
    · cases h

theorem searchMatch_next {c : Config} {i : Nat} {s t : State} (h : searchMatch c i s = .next t) :
    ∃ a b, i + c.seedA < c.N ∧ i + c.seedB < c.N ∧ i + 16 ≤ c.N ∧
      s.cell.read (i + c.seedA) = some (Cell.mag a).bits ∧ s.cell.read (i + c.seedB) = some (Cell.mag b).bits ∧
      t = { s with
        cell := s.cell.writeList i (List.replicate 16 Cell.consumed.bits), ra := some a, rb := some b,
        start := some (i + 16), n := some 0, phase := .decode (i + 16) } := by
  obtain ⟨a, ha, h⟩ := readThen_eq_next.1 h
  obtain ⟨b, hb, h⟩ := readThen_eq_next.1 h
  obtain ⟨u, hu, h⟩ := readThen_eq_next.1 h
  obtain ⟨hi, rfl⟩ := fillCells_eq_ok.1 hu
  obtain ⟨ha1, ha2⟩ := readVal_eq_ok.1 ha
  obtain ⟨hb1, hb2⟩ := readVal_eq_ok.1 hb
  exact ⟨a, b, ha1, hb1, hi, ha2, hb2, by cases h; rfl⟩

theorem execSearch_next {s t : State} (h : execSearch s = .next t) :
    (s.cfg = none ∧ t = s.marked .notReset) ∨
    ∃ c i, s.cfg = some c ∧ s.phase = .search i ∧
      ((c.N < i + 16 ∧ t = { s with phase := .ascan 0 }) ∨
       (i + 16 ≤ c.N ∧ pre c s i = .ok false ∧ t = { s with phase := .search (i + 1) }) ∨
       (i + 16 ≤ c.N ∧ pre c s i = .ok true ∧ searchMatch c i s = .next t)) := by
  rcases session_eq_next.1 h with h | ⟨c, hc, h⟩
  · exact .inl h
  · right
    split at h
    · rename_i i hi
      refine ⟨c, i, hc, hi, ?_⟩
      split at h
      · exact .inl ⟨by omega, by cases h; rfl⟩
      · obtain ⟨found, hf, h⟩ := readThen_eq_next.1 h
        cases found
        · exact .inr (.inl ⟨by omega, hf, by simpa [eq_comm] using h⟩)
        · exact .inr (.inr ⟨by omega, hf, by simpa using h⟩)
    · cases h

theorem decodeBit_next {c : Config} {p : Nat} {bit : Bool} {s t : State} (h : decodeBit c p bit s = .next t) :
    ∃ st m, s.start = some st ∧ s.n = some m ∧ p + 1 < c.N ∧ st + m < c.N ∧
      t = { s with
        cell := ((s.cell.write p Cell.consumed.bits).write (p + 1) Cell.consumed.bits).write (st + m)
          (Cell.mkbit bit).bits
        n := some (m + 1), phase := .decode (p + 2) } := by
  obtain ⟨st, hst, h⟩ := readThen_eq_next.1 h
  obtain ⟨m, hm, h⟩ := readThen_eq_next.1 h
  obtain ⟨u, hu, h⟩ := readThen_eq_next.1 h
  obtain ⟨v, hv, h⟩ := readThen_eq_next.1 h
  obtain ⟨w, hw, h⟩ := readThen_eq_next.1 h
  obtain ⟨-, rfl⟩ := writeCell_eq_ok.1 hu
  obtain ⟨hp, rfl⟩ := writeCell_eq_ok.1 hv
  obtain ⟨hsm, rfl⟩ := writeCell_eq_ok.1 hw
  exact ⟨st, m, readReg_eq_ok.1 hst, readReg_eq_ok.1 hm, hp, hsm, by cases h; rfl⟩

theorem decodeAbort_next {c : Config} {p e : Nat} {s t : State} (h : decodeAbort c p e s = .next t) :
    ∃ st m, s.start = some st ∧ s.n = some m ∧ st + m < c.N ∧
      t = { s with
        cell := s.cell.write (st + m) Cell.invalid.bits, err := some 0, phase := .search p,
        events := s.events ++ [.runAbort p m (e + 1)] } := by
  obtain ⟨st, hst, h⟩ := readThen_eq_next.1 h
  obtain ⟨m, hm, h⟩ := readThen_eq_next.1 h
  obtain ⟨u, hu, h⟩ := readThen_eq_next.1 h
  obtain ⟨hsm, rfl⟩ := writeCell_eq_ok.1 hu
  exact ⟨st, m, readReg_eq_ok.1 hst, readReg_eq_ok.1 hm, hsm, by cases h; rfl⟩

/-- DECODE: the buffer end, a pair that decodes, a tolerated ambiguity, or the abort. -/
theorem execDecode_next {s t : State} (h : execDecode s = .next t) :
    (s.cfg = none ∧ t = s.marked .notReset) ∨
    ∃ c p, s.cfg = some c ∧ s.phase = .decode p ∧
      ((c.N ≤ p + 1 ∧
          t = { s with err := some 0, phase := .search p, events := s.events ++ [.runAtBufferEnd p s.n] }) ∨
       (p + 1 < c.N ∧ ∃ x y a b,
          s.cell.read p = some (Cell.mag x).bits ∧ s.cell.read (p + 1) = some (Cell.mag y).bits ∧
          s.ra = some a ∧ s.rb = some b ∧
          ((∃ bit, cls a b x y = (if bit then .one else .zero) ∧
              decodeBit c p bit { s with ra := some x, rb := some y } = .next t) ∨
           (cls a b x y = .ambig ∧ ∃ e, s.err = some e ∧
              ((c.E < e + 1 ∧ decodeAbort c p e s = .next t) ∨
               (e + 1 ≤ c.E ∧ decodeBit c p false { s with
                  err := some (e + 1), ra := some 0, rb := some 255,
                  events := s.events ++ [.ambigTolerated p (e + 1)] } = .next t)))))) := by
  rcases session_eq_next.1 h with h | ⟨c, hc, h⟩
  · exact .inl h
  · right
    split at h
    · rename_i p hp
      refine ⟨c, p, hc, hp, ?_⟩
      split at h
      · exact .inl ⟨by omega, by cases h; rfl⟩
      · obtain ⟨x, hx, h⟩ := readThen_eq_next.1 h
        obtain ⟨y, hy, h⟩ := readThen_eq_next.1 h
        obtain ⟨a, ha, h⟩ := readThen_eq_next.1 h
        obtain ⟨b, hb, h⟩ := readThen_eq_next.1 h
        refine .inr ⟨by omega, x, y, a, b, (readVal_eq_ok.1 hx).2, (readVal_eq_ok.1 hy).2, readReg_eq_ok.1 ha,
          readReg_eq_ok.1 hb, ?_⟩
        split at h
        · rename_i hcls
          obtain ⟨e, he, h⟩ := readThen_eq_next.1 h
          refine .inr ⟨hcls, e, readReg_eq_ok.1 he, ?_⟩
          split at h
          · rename_i ht; exact .inl ⟨by simpa [overTolerance] using ht, h⟩
          · rename_i ht; exact .inr ⟨by simpa [overTolerance] using ht, h⟩
        · exact .inl ⟨true, by simpa using ‹_›, h⟩
        · exact .inl ⟨false, by simpa using ‹_›, h⟩
    · cases h

theorem execAscan_next {s t : State} (h : execAscan s = .next t) :
    (s.cfg = none ∧ t = s.marked .notReset) ∨
    ∃ c j, s.cfg = some c ∧ s.phase = .ascan j ∧
      ((c.N ≤ j ∧ t = { s with phase := .wait }) ∨
       (j < c.N ∧ ∃ x, s.cell.read j = some (Cell.bits x) ∧
          ((x.isBit = true ∧ t = { s with
              frame := clearedFrame s.frame, dcnt := some 0, flen := some .long, phase := .arun j }) ∨
           (x.isBit = false ∧ t = { s with phase := .ascan (j + 1) })))) := by
  rcases session_eq_next.1 h with h | ⟨c, hc, h⟩
  · exact .inl h
  · right
    split at h
    · rename_i j hj
      refine ⟨c, j, hc, hj, ?_⟩
      split at h
      · exact .inl ⟨‹_›, by cases h; rfl⟩
      · obtain ⟨x, hx, h⟩ := readThen_eq_next.1 h
        refine .inr ⟨by omega, x, (readCell_eq_ok.1 hx).2, ?_⟩
        split at h
        · exact .inl ⟨‹_›, by cases h; rfl⟩
        · exact .inr ⟨eq_false_of_ne_true ‹_›, by cases h; rfl⟩
    · cases h

theorem resolveLen_eq_ok {d : Nat} {s t : State} :
    resolveLen d s = .ok t ↔
      (d ≠ 7 ∧ t = s) ∨ (d = 7 ∧ ∃ o, s.frame.read 0 = some o ∧ t = { s with flen := some (lenOfOctet0 o) }) := by
  unfold resolveLen
  by_cases hd : d = 7
  · simp only [hd, if_true]
    cases h : readOctet s 0 with
    | error f =>
      simp only [reduceCtorEq, ne_eq, not_true_eq_false, false_and, true_and, false_or, false_iff]
      rintro ⟨o, ho, -⟩
      rw [readOctet_eq_ok.2 ⟨by omega, ho⟩] at h; cases h
    | ok o => simp [(readOctet_eq_ok.1 h).2, eq_comm]
  · simp [hd, eq_comm]

/-- ARUN's effect: the bit's octet, the length on the eighth bit, the count and the cursor. -/
theorem collectBit_next {c : Config} {j : Nat} {s t : State} (h : collectBit c j s = .next t) :
    ∃ x d u v, s.cell.read j = some (Cell.bits x) ∧ s.dcnt = some d ∧
      ((x.isOne = false ∧ u = s) ∨ (x.isOne = true ∧ setFbit s d = .ok u)) ∧ resolveLen d u = .ok v ∧
      t = { v with dcnt := some (d + 1), phase := .arun (j + 1) } := by
  obtain ⟨x, hx, h⟩ := readThen_eq_next.1 h
  obtain ⟨d, hd, h⟩ := readThen_eq_next.1 h
  obtain ⟨u, hu, h⟩ := readThen_eq_next.1 h
  obtain ⟨v, hv, h⟩ := readThen_eq_next.1 h
  refine ⟨x, d, u, v, (readCell_eq_ok.1 hx).2, readReg_eq_ok.1 hd, ?_, hv, by cases h; rfl⟩
  cases hb : x.isOne
  · simp [hb] at hu; exact .inl ⟨rfl, hu.symm⟩
  · simp [hb] at hu; exact .inr ⟨rfl, hu⟩

theorem execArun_next {s t : State} (h : execArun s = .next t) :
    (s.cfg = none ∧ t = s.marked .notReset) ∨
    ∃ c j, s.cfg = some c ∧ s.phase = .arun j ∧ runContinues c s j = .ok true ∧ collectBit c j s = .next t := by
  rcases session_eq_next.1 h with h | ⟨c, hc, h⟩
  · exact .inl h
  · right
    split at h
    · rename_i j hj
      obtain ⟨go, hgo, h⟩ := readThen_eq_next.1 h
      cases go
      · simp at h
      · exact ⟨c, j, hc, hj, hgo, by simpa using h⟩
    · cases h

theorem execAend_next {s t : State} (h : execAend s = .next t) :
    (s.cfg = none ∧ t = s.marked .notReset) ∨
    ∃ c j d len, s.cfg = some c ∧ s.phase = .arun j ∧ runContinues c s j = .ok false ∧
      s.dcnt = some d ∧ s.flen = some len ∧
      ((len.bits - 1 ≤ d ∧ t = { s with phase := .emit j }) ∨
       (d < len.bits - 1 ∧
          t = { s with phase := .ascan (j + 1), events := s.events ++ [.frameDrop j d len] })) := by
  rcases session_eq_next.1 h with h | ⟨c, hc, h⟩
  · exact .inl h
  · right
    split at h
    · rename_i j hj
      obtain ⟨go, hgo, h⟩ := readThen_eq_next.1 h
      cases go
      · simp only [Bool.false_eq_true, if_false] at h
        obtain ⟨d, hd, h⟩ := readThen_eq_next.1 h
        obtain ⟨len, hlen, h⟩ := readThen_eq_next.1 h
        refine ⟨c, j, d, len, hc, hj, hgo, readReg_eq_ok.1 hd, readReg_eq_ok.1 hlen, ?_⟩
        split at h
        · rename_i he; exact .inl ⟨by simp [enoughBits] at he; omega, by cases h; rfl⟩
        · rename_i he; exact .inr ⟨by simp [enoughBits] at he; omega, by cases h; rfl⟩
      · simp at h
    · cases h

theorem execEmit_next {s t : State} (h : execEmit s = .next t) :
    (s.cfg = none ∧ t = s.marked .notReset) ∨
    ∃ c j, s.cfg = some c ∧ s.phase = .emit j ∧
      ((s.sinkAccepts = false ∧ t = s.sinkAsked) ∨
       (s.sinkAccepts = true ∧ ∃ octets len, readRange 14 s.frame 0 14 = .ok octets ∧ s.flen = some len ∧
          t = { s with
            sinkAnswers := s.sinkAnswers.tail, port := s.port ++ [⟨octets, len⟩], phase := .ascan (j + 1) })) := by
  rcases session_eq_next.1 h with h | ⟨c, hc, h⟩
  · exact .inl h
  · right
    split at h
    · rename_i j hj
      refine ⟨c, j, hc, hj, ?_⟩
      split at h
      · obtain ⟨⟨octets, len⟩, hf, h⟩ := readThen_eq_next.1 h
        obtain ⟨ho, hl⟩ := presented_eq_ok.1 hf
        exact .inr ⟨‹_›, octets, len, ho, hl, by cases h; rfl⟩
      · exact .inl ⟨eq_false_of_ne_true ‹_›, by cases h; rfl⟩
    · cases h

end Sys2Proof.Machine
end

