-- ==== Sys2Proof/Laws/PerInstr.lean ====
section
/-! SUPPORT. Facts about every operation as syntax, one lemma per constructor. `LeadByte`: an operation's record begins
with its code, one of the eleven that 30_encoding.md R42 gives, and its operands follow (R43). -/

namespace Sys2Proof.Laws.LeadByte

/-- The record is the code byte and then the operands, and the code is not a reserved one (R52 item 2). -/
def Statement (i : Instr) : Prop :=
  encode i = i.code.setWidth 8 :: encodeOperands i ∧ (i.code.setWidth 8 : Byte).toNat ≤ 0xA

theorem reset (l e seedA seedB : Nat) : Statement (.reset l e seedA seedB) :=
  ⟨rfl, by show (0x0 : Byte).toNat ≤ 0xA; decide⟩

theorem deliver (data : List Byte) : Statement (.deliver data) := ⟨rfl, by show (0x1 : Byte).toNat ≤ 0xA; decide⟩

theorem cancel : Statement .cancel := ⟨rfl, by decide⟩

theorem take : Statement .take := ⟨rfl, by decide⟩

theorem extract : Statement .extract := ⟨rfl, by decide⟩

theorem search : Statement .search := ⟨rfl, by decide⟩

theorem decode : Statement .decode := ⟨rfl, by decide⟩

theorem ascan : Statement .ascan := ⟨rfl, by decide⟩

theorem arun : Statement .arun := ⟨rfl, by decide⟩

theorem aend : Statement .aend := ⟨rfl, by decide⟩

theorem emit : Statement .emit := ⟨rfl, by decide⟩

end Sys2Proof.Laws.LeadByte
end

