-- ==== Sys2Proof/Laws/Runs.lean ====
section
/-! SUPPORT. What the terms about runs and trace records (Machine/OperationRecord.lean, Safety.lean) say, once: later
proofs cite these and unfold neither. -/

namespace Sys2Proof.Machine

/-! ### Trace records -/

@[simp] theorem frameLenOfByte_bit (len : FrameLen) : frameLenOfByte (len.bit.setWidth 8) = some len := by
  cases len <;> decide

/-- A frame record of 14 octets is what its bytes decode to, whatever follows them. -/
theorem decodeFrameRecord_bytes {f : FrameRecord} (h : f.octets.length = 14) (rest : List Byte) :
    decodeFrameRecord (f.bytes ++ rest) = .ok (f, rest) := by
  have hb : f.bytes ++ rest = f.octets ++ (f.len.bit.setWidth 8 :: rest) := by simp [FrameRecord.bytes]
  rw [hb, decodeFrameRecord, show frameOctets = f.octets.length from h.symm, List.drop_left, List.take_left]
  simp

/-! ### Agents and enabling -/

theorem enables_worker {s : State} {i : Instr} (h : i.isWorker = true) :
    s.enables i ↔ ∃ c, s.cfg = some c ∧ workerEnabled c s i := by
  cases i <;> simp [Instr.isWorker] at h <;> rfl

/-- An operation is the worker's or one of the environment's agents'. -/
theorem isWorker_eq_false {i : Instr} : i.isWorker = false ↔ Agent.acq.takes i ∨ Agent.ctl.takes i := by
  cases i <;> simp [Instr.isWorker, Agent.takes]

/-- Among the worker's operations the code tells them apart. -/
theorem code_injective {i j : Instr} (hi : i.isWorker = true) (hj : j.isWorker = true) (h : i.code = j.code) : i = j := by
  cases i <;> simp [Instr.isWorker] at hi <;> cases j <;> simp [Instr.isWorker] at hj <;>
    first | rfl | (exfalso; revert h; decide)

/-! ### States that differ in the sink's answers -/

theorem SameButSink.eq {s t : State} (h : s.SameButSink t) :
    ∃ answers after, t = { s with sinkAnswers := answers, sinkThen := after } := ⟨_, _, h⟩

/-- Where the worker is and what it works on do not depend on the sink. -/
theorem SameButSink.worker {s t : State} (h : s.SameButSink t) :
    t.cfg = s.cfg ∧ t.phase = s.phase ∧ t.cell = s.cell ∧ t.frame = s.frame ∧ t.dcnt = s.dcnt ∧ t.flen = s.flen := by
  obtain ⟨_, _, rfl⟩ := SameButSink.eq h; simp

/-- Nor does the handoff. -/
theorem SameButSink.handoff {s t : State} (h : s.SameButSink t) :
    t.bank0 = s.bank0 ∧ t.bank1 = s.bank1 ∧ t.land = s.land ∧ t.pending = s.pending ∧ t.exitf = s.exitf := by
  obtain ⟨_, _, rfl⟩ := SameButSink.eq h; simp

end Sys2Proof.Machine
end

