-- ==== Sys2Proof/Tests/Slice0.lean ====
section
/-! SUPPORT. Tests of single operations on small states, with the values of 95_test_vectors.md and of the rules' own
examples, and one witness for each obligation that has hypotheses. -/

namespace Sys2Proof.Tests

open Sys2Proof.Machine

/-! ### Helpers -/

/-- The next state, if that is the answer. -/
def answer : Result → Option State
  | .next t => some t
  | .fault _ | .refused _ => none

/-- The fault, if that is the answer. -/
def faultOf : Result → Option Fault
  | .fault f => some f
  | .next _ | .refused _ => none

/-- The refusal, if that is the answer. -/
def refusalOf : Result → Option Refusal
  | .refused r => some r
  | .next _ | .fault _ => none

/-- What a byte list decodes to, if anything. -/
def decoded (bs : List Byte) : Option (Instr × List Byte) :=
  match decode bs with
  | .ok x => some x
  | .error _ => none

/-- Why a byte list decodes to nothing. -/
def undecoded (bs : List Byte) : Option DecodeError :=
  match decode bs with
  | .ok _ => none
  | .error e => some e

/-- A session with the default seeds, `N = n`, tolerance `e`, in phase `p`. -/
def atPhase (n e : Nat) (p : Phase) : State :=
  { State.powerOn with cfg := some { L := 2 * n, E := e, seedA := 8, seedB := 9 }, phase := p }

/-- The same over a cell array. -/
def on (e : Nat) (cells : List Cell) (p : Phase) : State :=
  { atPhase cells.length e p with cell := Memory.writeList [] 0 (cells.map Cell.bits) }

/-- Magnitude cells. -/
def mags (vs : List Nat) : List Cell := vs.map fun v => .mag (BitVec.ofNat 8 v)

/-- The preamble pattern of 42_preamble.md R57 at levels 200 and 40. -/
def preamble : List Nat := [200, 40, 200, 40, 40, 40, 40, 200, 40, 200, 40, 40, 40, 40, 40, 40]

/-- Bit cells. -/
def bits (bs : List Nat) : List Cell := bs.map fun b => Cell.mkbit (b == 1)

/-- The 112-bit frame `A` and the 56-bit pattern `S` of 95_test_vectors.md. -/
def frameA : List Byte := [0x8D, 0x48, 0x40, 0xD6, 0x20, 0x2C, 0xC3, 0x71, 0xC3, 0x2C, 0xE0, 0x57, 0x60, 0x98]

@[inherit_doc frameA]
def patternS : List Byte := [0x5D, 0x48, 0x40, 0xD6, 0x12, 0xAB, 0x35]

/-- Bit cells of octets. -/
def bitCells (octets : List Byte) : List Cell := (octets.map byteBits).flatten.map Cell.mkbit

/-! ### Well-formedness: each check refuses its ill-formed term -/

theorem test_wellFormed_tolerance : (Instr.reset 480 256 8 9).wellFormed = false := by decide
theorem test_wellFormed_seedA : (Instr.reset 480 5 16 9).wellFormed = false := by decide
theorem test_wellFormed_seedB : (Instr.reset 480 5 8 16).wellFormed = false := by decide
theorem test_wellFormed_ok : (Instr.reset 480 255 15 15).wellFormed = true := by decide

/-! ### Records written out from 30_encoding.md R42 and R43 -/

theorem test_decode_reset : decoded [0x00, 0xE0, 0x03, 0x05, 0x89] = some (.reset 480 5 8 9, []) := by decide
theorem test_decode_reset_small : decoded [0x00, 0x7E, 0xFF, 0xF0, 0x02] = some (.reset 126 255 15 0, [0x02]) := by decide
theorem test_decode_deliver : decoded [0x01, 0x02, 0xE4, 0x94] = some (.deliver [0xE4, 0x94], []) := by decide
theorem test_decode_cancel : decoded [0x02] = some (.cancel, []) := by decide
theorem test_decode_take : decoded [0x03] = some (.take, []) := by decide
theorem test_decode_extract : decoded [0x04] = some (.extract, []) := by decide
theorem test_decode_search : decoded [0x05] = some (.search, []) := by decide
theorem test_decode_decode : decoded [0x06] = some (.decode, []) := by decide
theorem test_decode_ascan : decoded [0x07] = some (.ascan, []) := by decide
theorem test_decode_arun : decoded [0x08] = some (.arun, []) := by decide
theorem test_decode_aend : decoded [0x09] = some (.aend, []) := by decide
theorem test_decode_emit : decoded [0x0A] = some (.emit, []) := by decide

/-- 30_encoding.md R52 item 2. -/
theorem test_decode_reserved :
    undecoded [0x0B] = some (.reservedOp 0xB []) ∧ undecoded [0x0F, 0x02] = some (.reservedOp 0xF [0x02]) := by decide

theorem test_decode_malformed :
    undecoded [] = some (.bad .empty) ∧ undecoded [0x10] = some (.bad .padding) ∧
    undecoded [0x01, 0x02, 0xE4] = some (.bad .truncated) ∧
    undecoded [0x00, 0x82, 0x00, 0x05, 0x89] = some (.bad .nonCanonical) := by decide

/-- Every row of spec/opcode_table.json: the decoder's answer for its code, the bytes after it zero. -/
theorem test_table_rows :
    (List.range 16).map (decodeTableWord 8) =
      [some (.reset 0 0 0 0), some (.deliver []), some .cancel, some .take, some .extract, some .search, some .decode,
        some .ascan, some .arun, some .aend, some .emit, none, none, none, none, none] := by decide

/-- Each of them runs as the first operation after reset. -/
theorem test_fetch_rows :
    ∀ code ∈ List.range 16, (answer (step (State.reset.withFetchWord 8 code))).isSome = true := by decide +kernel

/-! ### Handoff: 95_test_vectors.md V13, 70_reset_and_hazards.md R100 -/

/-- R100's example, from a session in progress. -/
theorem test_reset :
    (answer (exec (.reset 480 5 8 9) { atPhase 2 0 .done with exitf := true, land := .bank1, pending := true })).map
        (fun t => (t.cfg, t.land, t.pending, t.exitf, t.phase)) =
      some (some ⟨480, 5, 8, 9⟩, .bank0, false, false, .wait) := by decide

theorem test_reset_bad_config :
    (answer (exec (.reset 3 5 8 9) (atPhase 2 0 .done))).map (fun t => (t.refusals, t.phase)) =
      some ([.badConfig], .done) := by decide

/-- R77's example. -/
theorem test_deliver :
    (answer (exec (.deliver [1, 2]) (atPhase 1 0 .wait))).map (fun t => (t.bank0, t.bank1, t.pending, t.events)) =
      some ([(0, 1), (1, 2)], [], true, []) := by decide

theorem test_deliver_overwrites :
    (answer (runOps [.deliver [1, 2], .deliver [3, 4]] (atPhase 1 0 .wait))).map (fun t => (t.bank0, t.pending, t.events)) =
      some ([(0, 3), (1, 4)], true, [.bufferOverwrite]) := by decide

theorem test_cancel_drops_deliveries :
    (answer (runOps [.cancel, .deliver [1, 2]] (atPhase 1 0 .wait))).map
        (fun t => (t.exitf, t.bank0, t.pending, t.events)) =
      some (true, [], false, [.deliveryDropped]) := by decide

/-- R79's example. -/
theorem test_take :
    (answer (exec .take { atPhase 1 0 .wait with pending := true })).map (fun t => (t.land, t.pending, t.phase)) =
      some (.bank1, false, .extract 0) := by decide

theorem test_take_exit_wins :
    (answer (exec .take { atPhase 1 0 .wait with pending := true, exitf := true })).map (fun t => (t.land, t.pending, t.phase)) =
      some (.bank0, true, .done) := by decide

/-! ### Magnitude: V9 -/

theorem test_mag :
    [mag 128 128, mag 0 0, mag 1 0, mag 1 1, mag 255 255, mag 0 255, mag 255 128, mag 127 129, mag 100 200, mag 228 228] =
      [0, 255, 255, 254, 254, 255, 127, 2, 100, 200] := by decide

theorem test_extract :
    (answer (exec .extract { atPhase 2 0 (.extract 0) with bank1 := [(0, 0xE4), (1, 0xE4), (2, 0x94), (3, 0x94)] })).map
        (fun t => (t.cell, t.phase)) =
      some ([(0, (Cell.mag 200).bits)], .extract 1) := by decide

theorem test_extract_end :
    (answer (exec .extract (atPhase 2 0 (.extract 2)))).map (fun t => (t.err, t.phase)) = some (some 0, .search 0) := by decide

/-! ### Preamble: V3, V10 -/

/-- The predicate on a window, for a session just as long as the window. -/
def preOf (vs : List Nat) : Option Bool :=
  match pre { L := 32, E := 0, seedA := 8, seedB := 9 } (on 0 (mags vs) (.search 0)) 0 with
  | .ok b => some b
  | .error _ => none

theorem test_pre :
    [preOf preamble, preOf (preamble.set 15 200), preOf (preamble.set 0 41), preOf (preamble.set 0 40),
        preOf (preamble.set 0 0), preOf (List.replicate 16 40), preOf (List.replicate 16 0)] =
      [some true, some false, some true, some false, some false, some false, some false] := by decide +kernel

theorem test_search_match :
    (answer (exec .search (on 5 (mags preamble) (.search 0)))).map
        (fun t => ((t.ra, t.rb), t.start, t.n, t.phase, t.cell.map (·.2))) =
      some ((some 40, some 200), some 16, some 0, .decode 16, List.replicate 16 Cell.consumed.bits) := by decide +kernel

theorem test_search_no_window :
    (answer (exec .search (atPhase 15 5 (.search 0)))).map (·.phase) = some (.ascan 0) := by decide

/-! ### Manchester: V11 -/

theorem test_cls :
    [cls 200 40 200 40, cls 200 40 40 200, cls 40 200 200 40, cls 40 200 40 200, cls 0 255 40 40, cls 0 255 255 255,
        cls 200 40 120 120, cls 120 120 120 200, cls 200 40 210 190, cls 50 100 45 30, cls 100 50 120 130] =
      [.one, .zero, .one, .zero, .zero, .ambig, .zero, .ambig, .one, .ambig, .ambig] := by decide

/-- R66's example, shifted to `start = 0`: the bit overwrites the mark of its own pair. -/
theorem test_decode_first_pair :
    (answer (exec .decode { on 5 (mags [200, 40, 40, 200]) (.decode 0) with
        start := some 0, n := some 0, ra := some 40, rb := some 200, err := some 0 })).map
        (fun t => (t.cell.take 2, t.ra, t.rb, t.n, t.phase)) =
      some ([(0, Cell.one.bits), (1, Cell.consumed.bits)], some 200, some 40, some 1, .decode 2) := by decide

/-- V11: `E = 0`, an ambiguous first pair. -/
theorem test_decode_abort :
    (answer (exec .decode { on 0 (mags [40, 40]) (.decode 0) with
        start := some 0, n := some 0, ra := some 200, rb := some 40, err := some 0 })).map
        (fun t => (t.cell, t.err, t.phase, t.events)) =
      some ([(0, Cell.invalid.bits), (1, (Cell.mag 40).bits)], some 0, .search 0, [.runAbort 0 0 1]) := by
  decide

/-! ### Assembler: V12 -/

theorem test_ascan :
    (answer (exec .ascan (on 0 [.consumed, .one] (.ascan 1)))).map
        (fun t => (t.frame.map (·.2), t.dcnt, t.flen, t.phase)) =
      some (List.replicate 14 0, some 0, some .long, .arun 1) := by decide

theorem test_ascan_past_the_end :
    (answer (exec .ascan (on 0 [.one] (.ascan 2)))).map (·.phase) = some .wait := by decide

/-- R72's example: the eighth bit of `0x8D`. -/
theorem test_arun_resolves_long :
    (answer (exec .arun { on 0 (bits [1, 0, 0, 0, 1, 1, 0, 1]) (.arun 7) with
        frame := Memory.writeList [] 0 (0x8C :: List.replicate 13 0), dcnt := some 7, flen := some .long })).map
        (fun t => (t.frame.read 0, t.dcnt, t.flen, t.phase)) =
      some (some 0x8D, some 8, some .long, .arun 8) := by decide

theorem test_arun_resolves_short :
    (answer (exec .arun { on 0 (bits [0, 1, 0, 1, 1, 1, 0, 1]) (.arun 7) with
        frame := Memory.writeList [] 0 (0x5C :: List.replicate 13 0), dcnt := some 7, flen := some .long })).map
        (fun t => (t.frame.read 0, t.dcnt, t.flen)) =
      some (some 0x5D, some 8, some .short) := by decide

theorem test_aend :
    [55, 54].map (fun d => (answer (exec .aend { atPhase 2 0 (.arun 2) with dcnt := some d, flen := some .short })).map
        (fun t => (t.phase, t.events))) =
      [some (.emit 2, []), some (.ascan 3, [.frameDrop 2 54 .short])] := by decide

/-- R74's example. -/
theorem test_emit :
    (answer (exec .emit { atPhase 2 0 (.emit 1) with
        frame := Memory.writeList [] 0 frameA, dcnt := some 112, flen := some .long })).map (fun t => (t.port, t.phase)) =
      some ([⟨frameA, .long⟩], .ascan 2) := by decide

/-- R43, R50: EMIT's trace record is its code, the octets and the length bit. -/
theorem test_traceOf_emit :
    (traceOf [.emit] { atPhase 2 0 (.emit 1) with
        frame := Memory.writeList [] 0 frameA, dcnt := some 112, flen := some .long }).map TraceRecord.bytes =
      [0x0A :: frameA ++ [0x01]] := by decide

/-- R42: an EMIT before a sink that does not accept, and a TAKE that nothing wakes, are no operations performed. -/
theorem test_traceOf_waits :
    (traceOf [.emit] { atPhase 2 0 (.emit 1) with sinkThen := false }, traceOf [.take, .cancel] (atPhase 2 0 .wait)) =
      ([], [⟨.cancel, none⟩]) := by decide

theorem test_decodeTraceRecord_refuses :
    [[0x0A], 0x0A :: frameA ++ [0x02], [0x0B]].map (fun bs => match decodeTraceRecord bs with
        | .ok _ => none
        | .error e => some e) =
      [some (.bad .truncated), some (.bad .padding), some (.reservedOp 0xB [])] := by decide

/-- V12: one bit short, so bit 55 reads 0. -/
theorem test_frames_one_bit_short :
    framesOf (.consumed :: (bitCells patternS).take 55 ++ [.consumed]) =
      [⟨[0x5D, 0x48, 0x40, 0xD6, 0x12, 0xAB, 0x34] ++ List.replicate 7 0, .short⟩] := by decide +kernel

/-- V12: `A` then `S` as one run, so `S`'s first bit is skipped. -/
theorem test_frames_skip_after_full_frame :
    framesOf (.consumed :: bitCells frameA ++ bitCells patternS ++ [.consumed]) = [⟨frameA, .long⟩] := by decide +kernel

/-! ### The record: V1, V2, 30_encoding.md R49 -/

theorem test_fields :
    (FrameRecord.df ⟨frameA, .long⟩, FrameRecord.ca ⟨frameA, .long⟩, FrameRecord.icao ⟨frameA, .long⟩,
        FrameRecord.pi ⟨frameA, .long⟩, FrameRecord.tc ⟨frameA, .long⟩) = (17, 5, 0x4840D6, 0x576098, 4) := by decide

/-- `*5D4840D612AB35;` CR LF. -/
theorem test_rawLine :
    FrameRecord.rawLine ⟨patternS ++ List.replicate 7 0, .short⟩ =
      [0x2A, 0x35, 0x44, 0x34, 0x38, 0x34, 0x30, 0x44, 0x36, 0x31, 0x32, 0x41, 0x42, 0x33, 0x35, 0x3B, 0x0D, 0x0A] := by
  decide

theorem test_stimIQ : [stimIQ 0, stimIQ 1, stimIQ 41, stimIQ 127, stimIQ 254, stimIQ 255] =
    [[128, 128], [129, 128], [149, 148], [192, 191], [255, 255], [0, 255]] := by decide

/-! ### States that meet the invariant -/

/-- A buffer just taken: the work bank holds `B`. -/
def taken (c : Config) (B : List Byte) : State :=
  { State.powerOn with cfg := some c, bank1 := Memory.writeList [] 0 B, phase := .extract 0 }

/-- A buffer delivered and not taken yet. -/
def delivered (c : Config) (B : List Byte) : State :=
  { State.powerOn with cfg := some c, bank0 := Memory.writeList [] 0 B, pending := true }

/-- An assembly or an accepted frame over one bit cell, its frame cleared. -/
def assembling (p : Phase) (d : Nat) (len : FrameLen) : State :=
  { atPhase 1 0 p with
    cell := [(0, Cell.zero.bits)], frame := clearedFrame [], dcnt := some d, flen := some len }

theorem read_filled {w : Nat} (B : List (BitVec w)) (k : Nat) : (Memory.writeList [] 0 B).read k = B[k]? := by
  rw [Memory.read_writeList]
  by_cases h : k < B.length
  · simp [h]
  · simp [h]

theorem full_filled {w : Nat} (B : List (BitVec w)) : (Memory.writeList [] 0 B).FullTo B.length :=
  fun k hk => ⟨B[k], by rw [read_filled, List.getElem?_eq_getElem hk]⟩

theorem within_filled {w : Nat} (B : List (BitVec w)) : (Memory.writeList [] 0 B).Within B.length :=
  fun k hk => by rw [read_filled, List.getElem?_eq_none hk]

theorem taken_invariant {c : Config} {B : List Byte} (hc : c.legal = true) (hB : B.length = c.L) :
    Invariant (taken c B) := by
  refine ⟨fun b => ?_, rfl, rfl, fun c' h => ?_⟩
  · cases b
    · rfl
    · exact Memory.wf_writeList B 0 rfl
  · obtain rfl : c = c' := Option.some.inj h
    refine ⟨hc, fun b k hk => ?_, fun _ _ => rfl, fun _ _ => rfl, fun _ _ h => (nomatch h), (fun h => by simp [taken, State.powerOn] at h), ?_⟩
    · cases b
      · rfl
      · exact within_filled B k (by omega)
    · exact ⟨Nat.zero_le _, hB ▸ full_filled B, fun q hq => absurd hq (Nat.not_lt_zero q)⟩

theorem delivered_invariant {c : Config} {B : List Byte} (hc : c.legal = true) (hB : B.length = c.L) :
    Invariant (delivered c B) := by
  refine ⟨fun b => ?_, rfl, rfl, fun c' h => ?_⟩
  · cases b
    · exact Memory.wf_writeList B 0 rfl
    · rfl
  · obtain rfl : c = c' := Option.some.inj h
    refine ⟨hc, fun b k hk => ?_, fun _ _ => rfl, fun _ _ => rfl, fun _ _ h => (nomatch h), fun _ => hB ▸ full_filled B,
      trivial⟩
    cases b
    · exact within_filled B k (by omega)
    · rfl

theorem assembling_invariant {p : Phase} {d : Nat} {len : FrameLen} (hp : p = .arun 1 ∨ (p = .emit 0 ∧ len.bits - 1 ≤ d))
    (hd : d ≤ len.bits) (h8 : d < 8 → len = .long) (h : 8 ≤ d → len = .short) : Invariant (assembling p d len) := by
  have hcells : CellsFull { L := 2, E := 0, seedA := 8, seedB := 9 } (assembling p d len) := fun k hk => by
    obtain rfl : k = 0 := by simp [Config.N] at hk; omega
    exact ⟨.zero, rfl⟩
  have hfull : (clearedFrame []).FullTo 14 := fun k hk => ⟨0, by rw [clearedFrame_read, if_pos hk]⟩
  have hzero : ∀ t, t < 112 → (clearedFrame []).fbit t = some false := fun t ht => by
    rw [Memory.fbit, clearedFrame_read, if_pos (by omega)]; simp
  have ha : AssemblyInv (clearedFrame []) d len :=
    ⟨hfull, hd, h8, fun t _ ht => hzero t ht, fun h' => by rw [h h', hzero 0 (by omega)]; decide⟩
  refine ⟨fun b => by cases b <;> rfl, rfl, Memory.wf_writeList _ 0 rfl, fun c' h => ?_⟩
  obtain rfl : ({ L := 2, E := 0, seedA := 8, seedB := 9 } : Config) = c' := Option.some.inj h
  refine ⟨by decide, fun b _ _ => by cases b <;> rfl, fun k hk => ?_, fun k hk => ?_, fun k w hw => ?_,
    by simp [assembling, atPhase, State.powerOn], ?_⟩
  · have : k ≠ 0 := by simp [Config.N] at hk; omega
    show Memory.read [(0, Cell.zero.bits)] k = none
    rw [Memory.read_cons, if_neg (Ne.symm this)]; rfl
  · show (clearedFrame []).read k = none
    rw [clearedFrame_read, if_neg (by omega)]; rfl
  · have hw : Memory.read [(0, Cell.zero.bits)] k = some w := hw
    rw [Memory.read_cons] at hw
    split at hw
    · exact ⟨.zero, (Option.some.inj hw).symm⟩
    · cases hw
  · rcases hp with rfl | ⟨rfl, hge⟩
    · exact ⟨Nat.le_refl _, hcells, d, len, rfl, rfl, ha⟩
    · exact ⟨Nat.zero_le _, hcells, d, len, rfl, rfl, ha, hge⟩

theorem done_invariant : Invariant { atPhase 1 0 .done with exitf := true } := by
  refine ⟨fun b => by cases b <;> rfl, rfl, rfl, fun c' h => ?_⟩
  obtain rfl : ({ L := 2, E := 0, seedA := 8, seedB := 9 } : Config) = c' := Option.some.inj h
  exact ⟨by decide, fun b _ _ => by cases b <;> rfl, fun _ _ => rfl, fun _ _ => rfl, fun _ _ h => (nomatch h),
    by simp [atPhase, State.powerOn], rfl⟩

/-- Every cell of a small array, by its index. -/
theorem cell_on {e : Nat} {cells : List Cell} {p : Phase} {k : Nat} {x : Cell} (h : cells[k]? = some x) :
    (on e cells p).CellIs k x := by
  show (Memory.writeList [] 0 (cells.map Cell.bits)).read k = some x.bits
  rw [read_filled, List.getElem?_map, h]; rfl

/-! ### Witnesses: each obligation's hypotheses hold together, each clause's at a boundary value -/

theorem witness_ResetStartsASession :
    (2 ≤ 2 ∧ 2 % 2 = 0 ∧ 255 ≤ 255 ∧ 15 ≤ 15 ∧ 15 ≤ 15) ∧ ¬ (2 ≤ 0 ∧ 0 % 2 = 0 ∧ 255 ≤ 255 ∧ 15 ≤ 15 ∧ 15 ≤ 15) ∧
    ¬ (2 ≤ 2 ∧ 2 % 2 = 0 ∧ 256 ≤ 255 ∧ 15 ≤ 15 ∧ 16 ≤ 15) := by decide

theorem witness_NothingElseRunsBeforeTheFirstReset :
    State.powerOn.cfg = none ∧ ∀ l e a b, Instr.take ≠ .reset l e a b :=
  ⟨rfl, fun _ _ _ _ h => by cases h⟩

theorem witness_DeliverFillsTheLandingBank :
    State.powerOn.cfg = none ∧ ∃ (c : Config), (atPhase 1 0 .wait).cfg = some c ∧ ([] : List Byte).length ≠ c.L ∧
      ([1, 2] : List Byte).length = c.L ∧ { atPhase 1 0 .wait with exitf := true }.exitf = true ∧
      (atPhase 1 0 .wait).exitf = false :=
  ⟨rfl, _, rfl, by decide, by decide, rfl, rfl⟩

theorem witness_CancelSetsTheExitFlag : State.powerOn.cfg = none ∧ ∃ (c : Config), (atPhase 1 0 .wait).cfg = some c := ⟨rfl, _, rfl⟩

theorem witness_TakeSwapsTheBanksOrTerminates :
    ∃ (c : Config), (atPhase 1 0 .wait).cfg = some c ∧ (atPhase 1 0 .wait).phase = .wait ∧
      { atPhase 1 0 .wait with exitf := true, pending := true }.exitf = true ∧
      { atPhase 1 0 .wait with pending := true }.pending = true ∧ (atPhase 1 0 .wait).exitf = false ∧
      exec .take (atPhase 1 0 .wait) = .next (atPhase 1 0 .wait) :=
  ⟨_, rfl, rfl, rfl, rfl, rfl, rfl⟩

theorem witness_TakeWaitsWhileNothingWakesIt :
    ∃ (c : Config), (atPhase 1 0 .wait).cfg = some c ∧ (atPhase 1 0 .wait).phase = .wait ∧ (atPhase 1 0 .wait).pending = false ∧
      (atPhase 1 0 .wait).exitf = false :=
  ⟨_, rfl, rfl, rfl, rfl⟩

theorem witness_DoneIsLeftOnlyByReset :
    ∃ (s : State) (c : Config) (t : State), Invariant s ∧ s.cfg = some c ∧ s.phase = .done ∧ ([1, 2] : List Byte).length = c.L ∧
      exec .cancel s = .next t :=
  ⟨_, _, _, done_invariant, rfl, rfl, by decide, rfl⟩

theorem witness_OnlyDeliverRaisesAndOnlyTakeLowersPending :
    (∃ (t : State), exec (.deliver [1, 2]) (atPhase 1 0 .wait) = .next t ∧ t.pending ≠ (atPhase 1 0 .wait).pending) ∧
    (∃ (t : State), exec .take (delivered ⟨2, 0, 8, 9⟩ [1, 2]) = .next t ∧ t.pending ≠ (delivered ⟨2, 0, 8, 9⟩ [1, 2]).pending) ∧
    ∃ (t : State), exec (.reset 2 0 0 0) (delivered ⟨2, 0, 8, 9⟩ [1, 2]) = .next t ∧ Config.legal ⟨2, 0, 0, 0⟩ = true :=
  ⟨⟨_, rfl, by decide⟩, ⟨_, rfl, by decide⟩, _, rfl, by decide⟩

theorem witness_DeliverNeverWaits : ∃ (c : Config), (atPhase 1 0 (.emit 0)).cfg = some c := ⟨_, rfl⟩

theorem witness_TheLastDeliveryIsTheOneTaken :
    ∃ (s : State) (c : Config) (t : State), s.cfg = some c ∧ ([3, 4] : List Byte).length = c.L ∧ s.exitf = false ∧
      (∀ i ∈ [Instr.ascan], i ≠ .take ∧ i ≠ .cancel ∧ (∀ d, i ≠ .deliver d) ∧ ∀ l e a b, i ≠ .reset l e a b) ∧
      runOps (.deliver [3, 4] :: [.ascan] ++ [.take]) s = .next t :=
  ⟨{ atPhase 1 0 (.ascan 1) with pending := true, bank0 := [(0, 1), (1, 2)] }, _, _, rfl, by decide, rfl, by simp, rfl⟩

theorem witness_TheHandoffIsACapacityOneChannel :
    ∃ (s : State) (c : Config) (x : List (Option Byte)), s.cfg = some c ∧ s.phase = .wait ∧ s.exitf = false ∧ s.slot c = some x ∧
      ([1, 2] : List Byte).length = c.L ∧ { s with exitf := true }.exitf = true :=
  ⟨delivered ⟨2, 0, 8, 9⟩ [1, 2], _, _, rfl, rfl, rfl, rfl, by decide, rfl⟩

theorem witness_TheWorkBankIsASnapshot :
    ∃ (i : Instr) (s t : State), i ≠ .take ∧ (∀ l e a b, i ≠ .reset l e a b) ∧ exec i s = .next t :=
  ⟨.deliver [1, 2], atPhase 1 0 (.search 0), _, by simp, by simp, rfl⟩

theorem witness_TheWorkerIsBlindToTheLandingBank :
    ∃ (i : Instr) (s t : State), i.isWorker = true ∧ i ≠ .take ∧ exec i s = .next t :=
  ⟨.extract, taken ⟨2, 0, 8, 9⟩ [1, 2], _, rfl, by simp, rfl⟩

theorem witness_EachElementHasOnlyItsWriters :
    (∃ (s t : State), exec .cancel s = .next t ∧ Instr.cancel.isWorker = false) ∧ ∃ (s t : State), exec .extract s = .next t :=
  ⟨⟨atPhase 1 0 .wait, _, rfl, rfl⟩, taken ⟨2, 0, 8, 9⟩ [1, 2], _, rfl⟩

theorem witness_ExtractConvertsOnePair :
    ∃ (s : State) (c : Config) (i q : Byte), s.cfg = some c ∧ s.phase = .extract 0 ∧ 0 < c.N ∧ s.workBank.read (2 * 0) = some i ∧
      s.workBank.read (2 * 0 + 1) = some q ∧ { s with phase := .extract 1 }.phase = .extract c.N :=
  ⟨taken ⟨2, 0, 8, 9⟩ [1, 2], _, _, _, rfl, rfl, by decide, rfl, rfl, rfl⟩

theorem witness_ExtractionIsElementWise :
    ∃ (s : State) (c : Config), s.cfg = some c ∧ c.legal = true ∧ s.phase = .extract 0 ∧ ([1, 2] : List Byte).length = c.L ∧
      ∀ k, k < c.L → s.workBank.read k = ([1, 2] : List Byte)[k]? :=
  ⟨taken ⟨2, 0, 8, 9⟩ [1, 2], ⟨2, 0, 8, 9⟩, rfl, by decide, rfl, by decide, fun k _ => read_filled _ k⟩

theorem witness_PreambleScanIsMinHighAboveMaxLow :
    (∃ (c : Config) (s : State) (v : Nat → Byte), ∀ o, o < 16 → 0 + o < c.N ∧ s.CellIs (0 + o) (.mag (v o))) ∧
    ∃ (c : Config) (s : State),
      (∀ o, o < 16 → 0 + o < c.N ∧ ∃ x, s.CellIs (0 + o) x) ∧ ∃ o, o < 16 ∧ ¬ s.MagAt (0 + o) := by
  refine ⟨⟨⟨32, 0, 8, 9⟩, on 0 (mags preamble) (.search 0), fun o => BitVec.ofNat 8 (preamble.getD o 0), fun o ho => ?_⟩,
    ⟨32, 0, 8, 9⟩, on 0 (List.replicate 16 .invalid) (.search 0), fun o ho => ?_, 15, by decide, ?_⟩
  · refine ⟨by simp [Config.N]; omega, cell_on ?_⟩
    revert o; decide
  · exact ⟨by simp [Config.N]; omega, .invalid, cell_on (by rw [Nat.zero_add, List.getElem?_replicate, if_pos ho])⟩
  · rintro ⟨v, hv⟩
    have h15 : (on 0 (List.replicate 16 .invalid) (.search 0)).CellIs (0 + 15) .invalid := cell_on (by decide)
    have := Cell.bits_injective (Option.some.inj (hv.symm.trans h15))
    cases this

theorem witness_SearchEndsMovesOnOrMatches :
    (∃ (s : State) (c : Config), s.cfg = some c ∧ s.phase = .search 0 ∧ c.N < 0 + 16) ∧
    (∃ (s : State) (c : Config), s.cfg = some c ∧ s.phase = .search 0 ∧ 0 + 16 ≤ c.N ∧ pre c s 0 = .ok false) ∧
    ∃ (s : State) (c : Config), s.cfg = some c ∧ s.phase = .search 0 ∧ 0 + 16 ≤ c.N ∧ pre c s 0 = .ok true ∧ c.seedA ≤ 15 ∧ c.seedB ≤ 15 :=
  ⟨⟨atPhase 15 0 (.search 0), _, rfl, rfl, by decide⟩,
    ⟨on 0 (mags (preamble.set 15 200)) (.search 0), _, rfl, rfl, by decide, rfl⟩,
    on 0 (mags preamble) (.search 0), _, rfl, rfl, by decide, rfl, by decide, by decide⟩

theorem witness_EnteringSearchClearsTheErrorCounter :
    (∃ (s t : State), exec .extract s = .next t ∧ t.phase = .search 0 ∧ ∀ j, s.phase ≠ .search j) ∧
    (∃ (s t : State), exec .decode s = .next t ∧ t.phase = .search 1 ∧ ∀ j, s.phase ≠ .search j) ∧
    ∃ (s t : State), exec .search s = .next t ∧ t.phase = .search 1 ∧ ∃ j, s.phase = .search j :=
  ⟨⟨atPhase 2 0 (.extract 2), _, rfl, rfl, fun _ h => by cases h⟩, ⟨atPhase 2 0 (.decode 1), _, rfl, rfl, fun _ h => by cases h⟩,
    on 0 (List.replicate 16 (.mag 40)) (.search 0), _, rfl, rfl, 0, rfl⟩

theorem witness_NoPreambleGivesNoFrame :
    ∃ (s : State) (c : Config), s.cfg = some c ∧ 16 ≤ c.N ∧ s.phase = .search 0 ∧ (∀ k, k < c.N → s.MagAt k) ∧
      ∀ i, i + 16 ≤ c.N → pre c s i = .ok false := by
  refine ⟨on 0 (List.replicate 16 (.mag 40)) (.search 0), ⟨32, 0, 8, 9⟩, rfl, by decide, rfl, fun k hk => ⟨40, ?_⟩, fun i hi => ?_⟩
  · exact cell_on (by rw [List.getElem?_replicate, if_pos (by simpa [Config.N] using hk)])
  · obtain rfl : i = 0 := by simp [Config.N] at hi; omega
    rfl

theorem witness_ClassifierProperties :
    cls 200 40 200 40 ≠ .ambig ∧ (0 : Byte) < 1 ∧ (1 : Byte) > 0 ∧ (0 : Byte) < 1 ∧ (1 : Byte) = 1 ∧ (0 : Byte) < 1 ∧
      (1 : Byte) < 255 := by decide

/-- A decode run at cell 0 over one pair, with `err` ambiguities counted. -/
def decoding (e err : Nat) (x y : Nat) : State :=
  { on e (mags [x, y]) (.decode 0) with
    start := some 0, n := some 0, ra := some 200, rb := some 40, err := some err }

theorem witness_DecodeConsumesOnePair :
    (∃ (s : State) (c : Config), s.cfg = some c ∧ s.phase = .decode 1 ∧ c.N ≤ 1 + 1) ∧
    ∃ (s : State) (c : Config) (x y a b : Byte), s.cfg = some c ∧ s.phase = .decode 0 ∧ 0 + 1 < c.N ∧ s.CellIs 0 (.mag x) ∧
      s.CellIs (0 + 1) (.mag y) ∧ s.ra = some a ∧ s.rb = some b ∧ s.start = some 0 ∧ s.n = some 0 ∧ 0 + 0 ≤ 0 ∧
      cls a b 200 40 = .one ∧ cls a b 40 200 = .zero ∧ cls a b x y = .ambig ∧ s.err = some 1 ∧ 1 + 1 ≤ 2 ∧ c.E < 1 + 1 :=
  ⟨⟨atPhase 2 0 (.decode 1), _, rfl, rfl, by decide⟩,
    decoding 1 1 40 40, _, 40, 40, 200, 40, rfl, rfl, by decide, rfl, rfl, rfl, rfl, rfl, rfl, by decide, by decide,
      by decide, by decide, rfl, by decide, by decide⟩

theorem witness_LosslessRoundTrip :
    ∃ (s : State) (c : Config) (h l : Byte), s.cfg = some c ∧ l < h ∧ s.phase = .decode 0 ∧ s.start = some 0 ∧
      s.n = some 0 ∧ s.err = some 0 ∧ s.ra = some (if true then h else l) ∧ s.rb = some (if true then l else h) ∧
      0 + 2 * [false].length ≤ c.N ∧
      ∀ i bit, [false][i]? = some bit → s.CellIs (0 + 2 * i) (.mag (if bit then h else l)) ∧
        s.CellIs (0 + 2 * i + 1) (.mag (if bit then l else h)) := by
  refine ⟨decoding 0 0 40 200, _, 200, 40, rfl, by decide, rfl, rfl, rfl, rfl, rfl, rfl, by decide, fun i bit hi => ?_⟩
  cases i with
  | zero => obtain rfl : false = bit := by simpa using hi
            exact ⟨rfl, rfl⟩
  | succ i => simp at hi

theorem witness_ErrorToleranceBoundary :
    ∃ (s : State) (c : Config), s.cfg = some c ∧ s.phase = .decode 0 ∧ s.start = some 0 ∧ s.n = some 0 ∧ s.err = some 0 ∧
      s.ra = some 200 ∧ s.rb = some 40 ∧ 0 + 2 * [((40 : Byte), (40 : Byte))].length ≤ c.N ∧
      (∀ i x y, [((40 : Byte), (40 : Byte))][i]? = some (x, y) →
        s.CellIs (0 + 2 * i) (.mag x) ∧ s.CellIs (0 + 2 * i + 1) (.mag y)) ∧
      ambiguities (classifyRun 200 40 [(40, 40)]) ≤ (1 : Nat) ∧ c.E < ambiguities (classifyRun 200 40 [(40, 40)]) := by
  refine ⟨decoding 0 0 40 40, _, rfl, rfl, rfl, rfl, rfl, rfl, rfl, by decide, fun i x y hi => ?_, by decide, by decide⟩
  cases i with
  | zero => obtain ⟨rfl, rfl⟩ : 40 = x ∧ 40 = y := by simpa using hi
            exact ⟨rfl, rfl⟩
  | succ i => simp at hi

theorem witness_AscanSkipsOrStartsAnAssembly :
    ∃ (s : State) (c : Config), s.cfg = some c ∧ s.phase = .ascan 0 ∧ { s with phase := .ascan 2 }.phase = .ascan c.N ∧ 0 < c.N ∧ s.BitAt 0 ∧
      1 < c.N ∧ s.CellIs 1 .invalid :=
  ⟨on 0 [.zero, .invalid] (.ascan 0), _, rfl, rfl, rfl, by decide, .inl rfl, by decide, rfl⟩

theorem witness_ArunCollectsOneBit :
    (∀ d len, (d = 7 ∧ len = FrameLen.long) ∨ (d = 111 ∧ len = .long) ∨ (d = 55 ∧ len = .short) →
      ∃ (s : State) (c : Config), s.cfg = some c ∧ s.phase = .arun 0 ∧ s.dcnt = some d ∧ s.flen = some len ∧ 0 < c.N ∧
        s.CellIs 0 (Cell.mkbit false) ∧ d < len.bits ∧ s.frame.FullTo 14) ∧
    ∃ (s : State) (c : Config), s.cfg = some c ∧ s.phase = .arun 0 ∧ s.dcnt = some 56 ∧ s.flen = some .short ∧
      FrameLen.short.bits ≤ 56 := by
  refine ⟨fun d len h => ⟨assembling (.arun 0) d len, _, rfl, rfl, rfl, rfl, by decide, rfl, ?_, fun k hk => ⟨0, ?_⟩⟩,
    assembling (.arun 0) 56 .short, _, rfl, rfl, rfl, rfl, by decide⟩
  · rcases h with ⟨rfl, rfl⟩ | ⟨rfl, rfl⟩ | ⟨rfl, rfl⟩ <;> decide
  · show (clearedFrame []).read k = some 0
    rw [clearedFrame_read, if_pos hk]

theorem witness_AendAcceptsOrDiscards :
    (∃ (s : State) (c : Config), s.cfg = some c ∧ s.phase = .arun 1 ∧ s.dcnt = some 55 ∧ s.flen = some .short ∧
      c.N ≤ 1 ∧ FrameLen.short.bits - 1 ≤ 55) ∧
    (∃ (s : State) (c : Config), s.cfg = some c ∧ s.phase = .arun 0 ∧ s.dcnt = some 110 ∧ s.flen = some .long ∧
      (∃ x, s.CellIs 0 x ∧ x ≠ .zero ∧ x ≠ .one) ∧ 110 < FrameLen.long.bits - 1) ∧
    ∃ (s : State) (c : Config), s.cfg = some c ∧ s.phase = .arun 0 ∧ s.dcnt = some 112 ∧ s.flen = some .long ∧
      0 < c.N ∧ s.BitAt 0 ∧ 112 = FrameLen.long.bits ∧ 111 < FrameLen.long.bits :=
  ⟨⟨{ atPhase 1 0 (.arun 1) with dcnt := some 55, flen := some .short }, _, rfl, rfl, rfl, rfl, by decide, by decide⟩,
    ⟨{ on 0 [.consumed] (.arun 0) with dcnt := some 110, flen := some .long }, _, rfl, rfl, rfl, rfl,
      ⟨.consumed, rfl, by decide, by decide⟩, by decide⟩,
    { on 0 [.one] (.arun 0) with dcnt := some 112, flen := some .long }, _, rfl, rfl, rfl, rfl, by decide, .inr rfl, rfl,
      by decide⟩

theorem witness_EmitPresentsTheFrame :
    (∃ (s : State) (c : Config), s.cfg = some c ∧ s.phase = .emit 0 ∧ s.sinkAccepts = true ∧ frameA.length = 14 ∧
      (∀ o, o < 14 → s.frame.read o = frameA[o]?) ∧ s.flen = some .long) ∧
    ∃ (s t : State) (c : Config), s.cfg = some c ∧ s.phase = .emit 0 ∧ s.sinkAccepts = false ∧ exec .emit s = .next t :=
  ⟨⟨{ atPhase 1 0 (.emit 0) with frame := Memory.writeList [] 0 frameA, flen := some .long }, _, rfl, rfl, rfl, rfl,
    fun o _ => read_filled _ o, rfl⟩, { atPhase 1 0 (.emit 0) with sinkThen := false }, _, _, rfl, rfl, rfl, rfl⟩

theorem witness_AStuckWorkerHoldsItsFrame :
    ∃ (s : State) (c : Config), s.cfg = some c ∧ s.phase = .emit 0 ∧ s.sinkAccepts = false ∧ s.script = [] ∧ s.sinkAnswers = [] ∧
      s.sinkThen = false :=
  ⟨{ atPhase 1 0 (.emit 0) with sinkThen := false }, _, rfl, rfl, rfl, rfl, rfl, rfl⟩

theorem witness_LengthIsFixedByTheFirstBit :
    (∃ (s : State) (c : Config), s.cfg = some c ∧ s.phase = .ascan 0 ∧ 0 + 8 ≤ c.N ∧ s.CellIs 0 (Cell.mkbit true) ∧
      ∀ k, k < 8 → s.BitAt (0 + k)) ∧
    ∃ (s t : State) (c : Config), Invariant s ∧ s.cfg = some c ∧ s.phase = .arun 1 ∧ s.dcnt = some 7 ∧ exec .aend s = .next t := by
  refine ⟨⟨on 0 (List.replicate 8 .one) (.ascan 0), _, rfl, rfl, by decide, rfl, fun k hk => .inr (cell_on ?_)⟩, ?_⟩
  · rw [Nat.zero_add, List.getElem?_replicate, if_pos hk]
  · exact ⟨assembling (.arun 1) 7 .long, _, _,
      assembling_invariant (.inl rfl) (by decide) (fun _ => rfl) (fun h => absurd h (by decide)), rfl, rfl, rfl, rfl⟩

theorem witness_EmittedRecordsAreFrames :
    ∃ (s t : State) (c : Config) (f : FrameRecord), Invariant s ∧ s.cfg = some c ∧ s.phase = .emit 0 ∧ exec .emit s = .next t ∧ t.port = s.port ++ [f] :=
  ⟨assembling (.emit 0) 55 .short, _, _, _,
    assembling_invariant (.inr ⟨rfl, by decide⟩) (by decide) (by omega) (fun _ => rfl), rfl, rfl, rfl, rfl⟩

theorem witness_TheAssemblerEmitsTheReferenceFrames :
    ∃ (s : State) (c : Config), s.cfg = some c ∧ s.sinkAnswers = [] ∧ s.sinkThen = true ∧ s.phase = .ascan 0 ∧
      (bitCells patternS).length = c.N ∧ ∀ k x, (bitCells patternS)[k]? = some x → s.CellIs k x :=
  ⟨on 0 (bitCells patternS) (.ascan 0), _, rfl, rfl, rfl, rfl, rfl, fun _ _ h => cell_on h⟩

theorem witness_OperationsAreEnabledAsTabled :
    ∃ (s : State) (c : Config), Invariant s ∧ s.cfg = some c ∧ workerEnabled c s .take ∧ ¬ workerEnabled c s .emit :=
  ⟨delivered ⟨2, 0, 8, 9⟩ [1, 2], _, delivered_invariant (by decide) (by decide), rfl, ⟨rfl, .inl rfl⟩,
    fun ⟨_, h, _⟩ => by cases h⟩

theorem witness_PhasesFollowTheirOrder :
    ∃ (i : Instr) (s t : State) (c : Config), s.cfg = some c ∧ workerEnabled c s i ∧ exec i s = .next t :=
  ⟨.extract, taken ⟨2, 0, 8, 9⟩ [1, 2], _, ⟨2, 0, 8, 9⟩, rfl, ⟨0, rfl⟩, rfl⟩

theorem witness_AStepPerformsTheScheduledOperation :
    ∃ (s : State), decode s.script = .ok (.cancel, [0x03]) ∧ Instr.cancel.wellFormed = true ∧ s.script = encode .cancel ++ [0x03] :=
  ⟨{ atPhase 1 0 .wait with script := [0x02, 0x03] }, rfl, rfl, rfl⟩

theorem witness_ASilentEnvironmentLeavesTheWorkerRunning :
    (∃ (s : State) (c : Config) (i : Instr), s.cfg = some c ∧ s.script = [] ∧ workerEnabled c s i) ∧ ∃ (s : State) (c : Config), s.cfg = some c ∧ s.script = [] ∧ s.AtRest :=
  ⟨⟨taken ⟨2, 0, 8, 9⟩ [1, 2], ⟨2, 0, 8, 9⟩, .extract, rfl, rfl, ⟨0, rfl⟩⟩, atPhase 1 0 .wait, _, rfl, rfl,
    .inr ⟨rfl, rfl, rfl⟩, rfl⟩

theorem witness_InvariantHoldsAfterReset :
    ∃ (t : State), Config.legal ⟨2, 255, 15, 15⟩ = true ∧ exec (.reset 2 255 15 15) State.powerOn = .next t :=
  ⟨_, by decide, rfl⟩

theorem witness_EveryStepKeepsTheInvariant : ∃ (s t : State), Invariant s ∧ step s = .next t :=
  ⟨taken ⟨2, 0, 8, 9⟩ [1, 2], _, taken_invariant (by decide) (by decide), rfl⟩

theorem witness_NoReachableStepFaults : Invariant (taken ⟨2, 0, 8, 9⟩ [1, 2]) := taken_invariant (by decide) (by decide)

theorem witness_EveryWorkerStepShortensTheBuffer :
    ∃ (i : Instr) (s t : State) (c : Config), Invariant s ∧ s.cfg = some c ∧ i ≠ .take ∧ workerEnabled c s i ∧ exec i s = .next t :=
  ⟨.extract, taken ⟨2, 0, 8, 9⟩ [1, 2], _, ⟨2, 0, 8, 9⟩, taken_invariant (by decide) (by decide), rfl, by simp,
    ⟨0, rfl⟩, rfl⟩

theorem witness_ABufferIsFinishedWithinTheBound :
    ∃ (s : State) (c : Config), Invariant s ∧ s.cfg = some c ∧ s.Undisturbed ∧ s.phase = .wait ∧ s.pending = true ∧ s.exitf = false :=
  ⟨delivered ⟨2, 0, 8, 9⟩ [1, 2], _, delivered_invariant (by decide) (by decide), rfl, ⟨rfl, rfl, rfl⟩, rfl, rfl, rfl⟩

/-- The statement's premises, and those of both clauses of `State.FinishesWith`: a run with a delivery and a cancel in
it, and a silent environment. -/
theorem witness_FramesAreAFunctionOfTheDeliveredBytes :
    ∃ (c : Config) (s t : State), c.legal = true ∧ ([1, 2] : List Byte).length = c.L ∧ Invariant s ∧ s.cfg = some c ∧
      s.phase = .extract 0 ∧ (∀ k, k < c.L → s.workBank.read k = ([1, 2] : List Byte)[k]?) ∧
      (∀ i ∈ [Instr.extract, .extract, .deliver [3, 4], .search, .cancel, .ascan, .ascan],
        i ≠ .take ∧ ∀ l e a b, i ≠ .reset l e a b) ∧
      runOps [.extract, .extract, .deliver [3, 4], .search, .cancel, .ascan, .ascan] s = .next t ∧ t.phase = .wait ∧
      s.script = [] ∧ s.sinkThen = true :=
  ⟨⟨2, 0, 8, 9⟩, taken ⟨2, 0, 8, 9⟩ [1, 2], _, by decide, by decide, taken_invariant (by decide) (by decide), rfl, rfl,
    fun k _ => read_filled _ k, by simp, rfl, rfl, rfl, rfl⟩

theorem witness_AnIdealTransmissionIsReceived :
    ∃ (s : State) (c : Config), Invariant s ∧ s.cfg = some c ∧ s.phase = .extract 0 ∧ 0 < 255 ∧ 255 ≤ 255 ∧
      (c.seedA ∈ [0, 2, 7, 9] ↔ c.seedB ∉ [0, 2, 7, 9]) ∧ patternS.length = FrameLen.short.bits / 8 ∧
      (FrameLen.short = .long ↔ (patternS.getD 0 0).getLsbD 7 = true) ∧
      c.L = (stimPre 255 0 ++ stimMan patternS 255 0).length ∧
      (∀ k, k < c.L → s.workBank.read k = (stimPre 255 0 ++ stimMan patternS 255 0)[k]?) ∧
      s.script = [] ∧ s.sinkThen = true := by
  have hB : (stimPre 255 0 ++ stimMan patternS 255 0).length = 256 := by decide +kernel
  generalize stimPre 255 0 ++ stimMan patternS 255 0 = B at hB ⊢
  exact ⟨taken ⟨256, 0, 15, 0⟩ B, ⟨256, 0, 15, 0⟩, taken_invariant (by decide) hB, rfl, rfl, by decide, by decide,
    by simp, rfl, by decide, hB.symm, fun k _ => read_filled _ k, rfl, rfl⟩

/-! ### Fair runs -/

/-- The state after operations in a row that answer next states. -/
def stateAfter (s : State) (ops : List Instr) : State := (answer (runOps ops s)).getD s

/-- The run that performs these operations and then stays. -/
def runOf (s : State) (ops : List Instr) : Run where
  state k := stateAfter s (ops.take k)
  op k := ops[k]?

theorem State.sameButSink_refl (s : State) : s.SameButSink s := rfl

/-- A run is valid if each of its operations is enabled and a step where it is performed. -/
theorem runOf_valid {s : State} {ops : List Instr}
    (h : ∀ k i, ops[k]? = some i → (stateAfter s (ops.take k)).enables i ∧
      exec i (stateAfter s (ops.take k)) = .next (stateAfter s (ops.take (k + 1)))) : (runOf s ops).Valid := by
  intro k
  cases ho : (runOf s ops).op k with
  | some i => exact ⟨(h k i ho).1, _, (h k i ho).2, rfl⟩
  | none =>
    have hk : ops.length ≤ k := List.getElem?_eq_none_iff.1 ho
    show State.SameButSink (stateAfter s (ops.take k)) (stateAfter s (ops.take (k + 1)))
    rw [List.take_of_length_le hk, List.take_of_length_le (by omega)]; rfl

/-- A run that ends in `WAIT` with nothing to wake the worker is fair to it. -/
theorem runOf_fair {s : State} {ops : List Instr} (hp : (stateAfter s ops).phase = .wait)
    (hw : (stateAfter s ops).wakes = false) : (runOf s ops).WeaklyFair .wrk := by
  intro code m h
  obtain ⟨i, hi, -, he⟩ := h (max m ops.length) (Nat.le_max_left _ _)
  have : (runOf s ops).state (max m ops.length) = stateAfter s ops :=
    congrArg (stateAfter s) (List.take_of_length_le (Nat.le_max_right _ _))
  rw [this] at he
  have hi : i.isWorker = true := hi
  exfalso
  cases i <;> simp_all [Instr.isWorker, State.enables, workerEnabled, State.wakes]

/-- One buffer of a single pair, delivered, taken and finished. -/
def bufferRun : Run := runOf (delivered ⟨2, 0, 8, 9⟩ [1, 2]) [.take, .extract, .extract, .search, .ascan, .ascan]

/-- An accepted frame presented, and the rest of its buffer. -/
def emitRun : Run := runOf (assembling (.emit 0) 55 .short) [.emit, .ascan]

theorem bufferRun_valid : bufferRun.Valid := runOf_valid fun k i h => by
  have hk : k < 6 := List.getElem?_eq_some_iff.1 h |>.1
  rcases k with _ | _ | _ | _ | _ | _ | k
  · cases h; exact ⟨⟨_, rfl, rfl, .inl rfl⟩, rfl⟩
  · cases h; exact ⟨⟨_, rfl, 0, rfl⟩, rfl⟩
  · cases h; exact ⟨⟨_, rfl, 1, rfl⟩, rfl⟩
  · cases h; exact ⟨⟨_, rfl, 0, rfl⟩, rfl⟩
  · cases h; exact ⟨⟨_, rfl, 0, rfl⟩, rfl⟩
  · cases h; exact ⟨⟨_, rfl, 1, rfl⟩, rfl⟩
  · omega

theorem emitRun_valid : emitRun.Valid := runOf_valid fun k i h => by
  have hk : k < 2 := List.getElem?_eq_some_iff.1 h |>.1
  rcases k with _ | _ | k
  · cases h; exact ⟨⟨_, rfl, 0, rfl, rfl⟩, rfl⟩
  · cases h; exact ⟨⟨_, rfl, 1, rfl⟩, rfl⟩
  · omega

/-- No state of a run shows the worker a sink that does not accept. -/
theorem runOf_sinkAccepts {s : State} {ops : List Instr} {m : Nat}
    (h : ∀ k, k ≤ ops.length → (stateAfter s (ops.take k)).sinkAccepts = true) : (runOf s ops).SinkAcceptsFrom m := by
  intro k j _ _
  by_cases hk : k ≤ ops.length
  · exact h k hk
  · have := h ops.length (Nat.le_refl _)
    rw [List.take_length] at this
    show (stateAfter s (ops.take k)).sinkAccepts = true
    rw [List.take_of_length_le (by omega)]; exact this

theorem emitRun_sinkAccepts : emitRun.SinkAcceptsFrom 0 := runOf_sinkAccepts fun k hk => by
  rcases k with _ | _ | _ | k
  · rfl
  · rfl
  · rfl
  · simp at hk

theorem bufferRun_sinkAccepts : bufferRun.SinkAcceptsFrom 0 := runOf_sinkAccepts fun k hk => by
  rcases k with _ | _ | _ | _ | _ | _ | _ | k
  · rfl
  · rfl
  · rfl
  · rfl
  · rfl
  · rfl
  · rfl
  · simp at hk; omega

theorem witness_AFairWorkerMakesProgress :
    (bufferRun.Valid ∧ bufferRun.WeaklyFair .wrk ∧ (bufferRun.state 0).enables .take) ∧
    (emitRun.Valid ∧ emitRun.WeaklyFair .wrk ∧ (emitRun.state 0).enables .emit ∧ emitRun.SinkAcceptsFrom 0) :=
  ⟨⟨bufferRun_valid, runOf_fair rfl rfl, ⟨_, rfl, rfl, .inl rfl⟩⟩,
    emitRun_valid, runOf_fair rfl rfl, ⟨_, rfl, 0, rfl, rfl⟩, emitRun_sinkAccepts⟩

theorem witness_APendingBufferIsEventuallyTaken :
    ∃ (c : Config), bufferRun.Valid ∧ bufferRun.WeaklyFair .wrk ∧ Invariant (bufferRun.state 0) ∧
      (bufferRun.state 0).cfg = some c ∧ (bufferRun.state 0).pending = true ∧ bufferRun.SinkAcceptsFrom 0 :=
  ⟨_, bufferRun_valid, runOf_fair rfl rfl, delivered_invariant (by decide) (by decide), rfl, rfl, bufferRun_sinkAccepts⟩

theorem witness_AFairWorkerFinishesEveryBuffer :
    ∃ (c : Config), emitRun.Valid ∧ emitRun.WeaklyFair .wrk ∧ Invariant (emitRun.state 0) ∧
      (emitRun.state 0).cfg = some c ∧ (emitRun.state 0).phase ≠ .done ∧ emitRun.SinkAcceptsFrom 0 :=
  ⟨_, emitRun_valid, runOf_fair rfl rfl,
    assembling_invariant (.inr ⟨rfl, by decide⟩) (by decide) (by omega) (fun _ => rfl), rfl, by decide, emitRun_sinkAccepts⟩

theorem witness_OnlyTakeSeesTheWakeConditions :
    ∃ (i : Instr) (s t : State), i.isWorker = true ∧ i ≠ .take ∧ exec i s = .next t :=
  ⟨.extract, taken ⟨2, 0, 8, 9⟩ [1, 2], _, rfl, by simp, rfl⟩

theorem witness_TracePortAndMarksAreNeverRead : ∃ (i : Instr) (s t : State), exec i s = .next t :=
  ⟨.deliver [1, 2], delivered ⟨2, 0, 8, 9⟩ [1, 2], _, rfl⟩

theorem witness_ReadsWithoutMeaningFault :
    (∃ (s : State) (c : Config), s.cfg = some c ∧ s.phase = .ascan 0 ∧ 0 < c.N ∧ s.cell.read 0 = none) ∧
    (∃ (s : State) (c : Config) (w : BitVec 9), s.cfg = some c ∧ s.phase = .ascan 0 ∧ 0 < c.N ∧ s.cell.read 0 = some w ∧ Cell.ofBits w = none) ∧
    (∃ (s : State) (c : Config) (x : Cell), s.cfg = some c ∧ s.phase = .decode 0 ∧ 0 + 1 < c.N ∧ s.CellIs 0 x ∧ ∀ v, x ≠ .mag v) ∧
    ∃ (s : State) (c : Config) (st : Nat) (m : Nat), s.cfg = some c ∧ s.phase = .decode 0 ∧ 0 + 1 < c.N ∧ s.MagAt 0 ∧ s.MagAt (0 + 1) ∧ (∃ a, s.ra = some a) ∧
      (∃ b, s.rb = some b) ∧ (∃ e, s.err = some e) ∧ s.start = some st ∧ s.n = some m ∧ c.N ≤ st + m :=
  ⟨⟨atPhase 1 0 (.ascan 0), _, rfl, rfl, by decide, rfl⟩,
    ⟨{ atPhase 1 0 (.ascan 0) with cell := [(0, 260)] }, _, _, rfl, rfl, by decide, rfl, by decide⟩,
    ⟨on 0 [.consumed, .consumed] (.decode 0), _, .consumed, rfl, rfl, by decide, rfl, fun _ h => by cases h⟩,
    { decoding 0 0 200 40 with start := some 2 }, _, 2, 0, rfl, rfl, by decide, ⟨200, rfl⟩, ⟨40, rfl⟩, ⟨_, rfl⟩, ⟨_, rfl⟩,
      ⟨_, rfl⟩, rfl, rfl, by decide⟩

theorem witness_DecodeInvertsEncode : (Instr.reset 16384 255 15 15).wellFormed = true := by decide

theorem witness_EncodeInvertsDecode : decode [0x01, 0x01, 0xFF, 0x02] = .ok (.deliver [0xFF], [0x02]) := rfl

theorem witness_ReservedCodesAreRefused :
    0xB ≤ (0xB : Byte).toNat ∧ (0xF : Byte).toNat ≤ 0xF ∧ { atPhase 1 0 .wait with script := [0xB] }.script = (0xB : Byte) :: [] :=
  ⟨by decide, by decide, rfl⟩

theorem witness_TraceRecordsCarryTheirOperands :
    TraceRecord.wellFormed ⟨.emit, some ⟨frameA, .long⟩⟩ = true ∧ TraceRecord.wellFormed ⟨.deliver [], none⟩ = true ∧
    ∃ t : State, (∀ i ∈ [Instr.emit, .reset 2 255 15 15], i.wellFormed = true) ∧
      runOps [.emit, .reset 2 255 15 15] (assembling (.emit 0) 55 .short) = .next t :=
  ⟨by decide, by decide, _, by decide, rfl⟩

theorem witness_StimulusPairHasItsMagnitude : 255 ≤ 255 := by decide

end Sys2Proof.Tests
end

/-! ## The worker's steps, forward

What each operation answers when its reads succeed: the converse of the inversion lemmas of Laws/Meanings. -/

namespace Sys2Proof.Machine

/-! ### Reads -/

theorem State.CellIs.readCell {c : Config} {s : State} {k : Nat} {x : Cell} (hk : k < c.N) (h : s.CellIs k x) :
    readCell c s k = .ok x :=
  readCell_eq_ok.2 ⟨hk, h⟩

theorem State.CellIs.readVal {c : Config} {s : State} {k : Nat} {v : Byte} (hk : k < c.N) (h : s.CellIs k (.mag v)) :
    readVal c s k = .ok v :=
  readVal_eq_ok.2 ⟨hk, h⟩

/-! ### EXTRACT (R55) -/

theorem exec_extract_pair {s : State} {c : Config} {k : Nat} {i q : Byte} (hc : s.cfg = some c)
    (hp : s.phase = .extract k) (hk : k < c.N) (hi : s.workBank.read (2 * k) = some i)
    (hq : s.workBank.read (2 * k + 1) = some q) :
    exec .extract s = .next { s with cell := s.cell.write k (Cell.mag (mag i q)).bits, phase := .extract (k + 1) } := by
  have hL : 2 * k + 1 < c.L := by unfold Config.N at hk; omega
  have hi' : readWork c s (2 * k) = .ok i := readAt_of_read (by omega) hi
  have hq' : readWork c s (2 * k + 1) = .ok q := readAt_of_read hL hq
  have hw := writeCell_eq_ok (s := s) (x := .mag (mag i q)) |>.2 ⟨hk, rfl⟩
  simp [exec, execExtract, hc, hp, hk, hi', hq', hw]

theorem exec_extract_end {s : State} {c : Config} {k : Nat} (hc : s.cfg = some c) (hp : s.phase = .extract k)
    (hk : c.N ≤ k) : exec .extract s = .next { s with err := some 0, phase := .search 0 } := by
  simp [exec, execExtract, hc, hp, Nat.not_lt.2 hk]

/-! ### SEARCH (R61, R62) -/

theorem exec_search_end {s : State} {c : Config} {i : Nat} (hc : s.cfg = some c) (hp : s.phase = .search i)
    (hi : c.N < i + 16) : exec .search s = .next { s with phase := .ascan 0 } := by
  simp [exec, execSearch, hc, hp, hi]

theorem exec_search_match {s : State} {c : Config} {i : Nat} {a b : Byte} (hc : s.cfg = some c)
    (hp : s.phase = .search i) (hi : i + 16 ≤ c.N) (hpre : pre c s i = .ok true)
    (hA : c.seedA < 16) (hB : c.seedB < 16)
    (ha : s.CellIs (i + c.seedA) (.mag a)) (hb : s.CellIs (i + c.seedB) (.mag b)) :
    exec .search s = .next { s with
      cell := s.cell.writeList i (List.replicate 16 Cell.consumed.bits), ra := some a, rb := some b,
      start := some (i + 16), n := some 0, phase := .decode (i + 16) } := by
  have hf := fillCells_eq_ok (s := s) (x := .consumed) |>.2 ⟨hi, rfl⟩
  simp [exec, execSearch, searchMatch, preLen, hc, hp, Nat.not_lt.2 hi, hpre, hf,
    ha.readVal (c := c) (by omega), hb.readVal (c := c) (by omega)]

/-! ### DECODE (R66) -/

theorem exec_decode_end {s : State} {c : Config} {p : Nat} (hc : s.cfg = some c) (hp : s.phase = .decode p)
    (hN : c.N ≤ p + 1) :
    exec .decode s =
      .next { s with err := some 0, phase := .search p, events := s.events ++ [.runAtBufferEnd p s.n] } := by
  simp [exec, execDecode, hc, hp, hN, State.record]

theorem decodeBit_ok {c : Config} {p st m : Nat} {bit : Bool} {s : State} (hst : s.start = some st)
    (hm : s.n = some m) (hp : p + 1 < c.N) (hsm : st + m < c.N) :
    decodeBit c p bit s = .next { s with
      cell := ((s.cell.write p Cell.consumed.bits).write (p + 1) Cell.consumed.bits).write (st + m)
        (Cell.mkbit bit).bits
      n := some (m + 1), phase := .decode (p + 2) } := by
  simp [decodeBit, hst, hm, writeCell, writeAt, hp, hsm, show p < c.N by omega]

theorem exec_decode_clear {s : State} {c : Config} {p st m : Nat} {x y a b : Byte} {bit : Bool}
    (hc : s.cfg = some c) (hp : s.phase = .decode p) (hN : p + 1 < c.N)
    (hx : s.CellIs p (.mag x)) (hy : s.CellIs (p + 1) (.mag y)) (ha : s.ra = some a) (hb : s.rb = some b)
    (hst : s.start = some st) (hm : s.n = some m) (hsm : st + m < c.N)
    (hcls : cls a b x y = if bit then .one else .zero) :
    exec .decode s = .next { s with
      cell := ((s.cell.write p Cell.consumed.bits).write (p + 1) Cell.consumed.bits).write (st + m)
        (Cell.mkbit bit).bits
      ra := some x, rb := some y, n := some (m + 1), phase := .decode (p + 2) } := by
  have hbit := decodeBit_ok (bit := bit) (s := { s with ra := some x, rb := some y }) hst hm hN hsm
  cases bit <;>
    simp_all [exec, execDecode, decodeClear, Nat.not_le.2 hN, hx.readVal (c := c) (by omega), hy.readVal (c := c) hN]

/-! ### ASCAN (R71) -/

theorem exec_ascan_end {s : State} {c : Config} {j : Nat} (hc : s.cfg = some c) (hp : s.phase = .ascan j)
    (hj : c.N ≤ j) : exec .ascan s = .next { s with phase := .wait } := by
  simp [exec, execAscan, hc, hp, hj]

theorem exec_ascan_skip {s : State} {c : Config} {j : Nat} {x : Cell} (hc : s.cfg = some c)
    (hp : s.phase = .ascan j) (hj : j < c.N) (hx : s.CellIs j x) (hb : x.isBit = false) :
    exec .ascan s = .next { s with phase := .ascan (j + 1) } := by
  simp [exec, execAscan, hc, hp, Nat.not_le.2 hj, hx.readCell hj, hb]

theorem exec_ascan_start {s : State} {c : Config} {j : Nat} {x : Cell} (hc : s.cfg = some c)
    (hp : s.phase = .ascan j) (hj : j < c.N) (hx : s.CellIs j x) (hb : x.isBit = true) :
    exec .ascan s =
      .next { s with frame := clearedFrame s.frame, dcnt := some 0, flen := some .long, phase := .arun j } := by
  simp [exec, execAscan, hc, hp, Nat.not_le.2 hj, hx.readCell hj, hb]

/-! ### ARUN and AEND (R72, R73) -/

/-- Frame bit `t` by its octet. -/
theorem Memory.fbit_of_read {m : Memory 8} {t : Nat} {v : Byte} (h : m.read (t / 8) = some v) :
    m.fbit t = some (v.getLsbD (7 - t % 8)) := by
  simp [Memory.fbit, h]

/-- An octet is zero but for the mask's bit. -/
theorem fbitMask_getLsbD (d t : Nat) : (fbitMask d).getLsbD (7 - t % 8) = decide (t % 8 = d % 8) := by
  unfold fbitMask
  rw [BitVec.getLsbD_shiftLeft, BitVec.getLsbD_one]
  grind

/-- Setting `fbit d` in its octet sets that frame bit and no other. -/
theorem Memory.fbit_write_mask {m : Memory 8} {d : Nat} {v : Byte} (h : m.read (d / 8) = some v) (t : Nat) :
    (m.write (d / 8) (v ||| fbitMask d)).fbit t = if t = d then some true else m.fbit t := by
  by_cases ho : t / 8 = d / 8
  · have hread : (m.write (d / 8) (v ||| fbitMask d)).read (t / 8) = some (v ||| fbitMask d) := by
      rw [ho, Memory.read_write_same]
    rw [Memory.fbit_of_read hread, Memory.fbit_of_read (ho ▸ h), BitVec.getLsbD_or, fbitMask_getLsbD]
    by_cases htd : t = d
    · simp [htd]
    · simp [htd, show t % 8 ≠ d % 8 by omega]
  · rw [if_neg (by rintro rfl; exact ho rfl)]
    simp [Memory.fbit, Memory.read_write_ne _ _ ho]

/-- `readOctet 0` answers frame bit 0 as the bit that fixes the length. -/
theorem lenOfOctet0_eq_long {m : Memory 8} {v : Byte} (h : m.read 0 = some v) :
    lenOfOctet0 v = .long ↔ m.fbit 0 = some true := by
  rw [Memory.fbit_of_read h]
  simp [lenOfOctet0]

/-- The eighth bit fixes the length, and no other does (R72). -/
theorem resolveLen_ok {s : State} (d : Nat) {len : FrameLen} (hf : s.frame.FullTo 14) (hl : s.flen = some len) :
    ∃ len', (d = 7 → (len' = .long ↔ s.frame.fbit 0 = some true)) ∧ (d ≠ 7 → len' = len) ∧
      resolveLen d s = .ok { s with flen := some len' } := by
  by_cases hd : d = 7
  · obtain ⟨v, hv⟩ := hf 0 (by omega)
    exact ⟨lenOfOctet0 v, fun _ => lenOfOctet0_eq_long hv, fun h => absurd hd h,
      resolveLen_eq_ok.2 (.inr ⟨hd, v, hv, rfl⟩)⟩
  · exact ⟨len, fun h => absurd h hd, fun _ => rfl, resolveLen_eq_ok.2 (.inl ⟨hd, by rw [← hl]⟩)⟩

theorem Memory.FullTo.write {w size : Nat} {m : Memory w} (h : m.FullTo size) (k : Nat) (x : BitVec w) :
    (m.write k x).FullTo size := fun j hj => by
  rw [Memory.read_write]
  split
  · exact ⟨x, rfl⟩
  · exact h j hj

/-- A 1 sets its frame bit, a 0 leaves the cleared one. -/
theorem setBit_ok {s : State} {d : Nat} (hd : d < 112) (hf : s.frame.FullTo 14) (bit : Bool) :
    ∃ fr : Memory 8, fr.FullTo 14 ∧ (∀ t, fr.fbit t = if t = d ∧ bit = true then some true else s.frame.fbit t) ∧
      (if bit then setFbit s d else .ok s) = .ok { s with frame := fr } := by
  cases bit
  · exact ⟨s.frame, hf, by simp, rfl⟩
  · obtain ⟨v, hv⟩ := hf (d / 8) (by omega)
    exact ⟨s.frame.write (d / 8) (v ||| fbitMask d), hf.write _ _, by simpa using Memory.fbit_write_mask hv,
      setFbit_eq_ok.2 ⟨hd, v, hv, rfl⟩⟩

@[simp] theorem Cell.isBit_mkbit (bit : Bool) : (Cell.mkbit bit).isBit = true := by cases bit <;> rfl

@[simp] theorem Cell.isOne_mkbit (bit : Bool) : (Cell.mkbit bit).isOne = bit := by cases bit <;> rfl

theorem FrameLen.bits_le (len : FrameLen) : len.bits ≤ 112 := by cases len <;> decide

/-- The body of ARUN: the bit's frame bit, the length on the eighth, the count and the cursor. -/
theorem collectBit_ok {s : State} {c : Config} {j d : Nat} {len : FrameLen} {bit : Bool} (hd : s.dcnt = some d)
    (hl : s.flen = some len) (hj : j < c.N) (hx : s.CellIs j (Cell.mkbit bit)) (hd112 : d < 112)
    (hf : s.frame.FullTo 14) :
    ∃ (fr : Memory 8) (len' : FrameLen), fr.FullTo 14 ∧
      (∀ t, fr.fbit t = if t = d ∧ bit = true then some true else s.frame.fbit t) ∧
      (d = 7 → (len' = .long ↔ fr.fbit 0 = some true)) ∧ (d ≠ 7 → len' = len) ∧
      collectBit c j s = .next { s with
        frame := fr, flen := some len', dcnt := some (d + 1), phase := .arun (j + 1) } := by
  obtain ⟨fr, hfull, hfb, hset⟩ := setBit_ok hd112 hf bit
  obtain ⟨len', h7, hn7, hres⟩ := resolveLen_ok (s := { s with frame := fr }) d hfull hl
  refine ⟨fr, len', hfull, hfb, h7, hn7, ?_⟩
  rw [collectBit, hx.readCell hj, readThen_ok, hd, readReg_some, readThen_ok, Cell.isOne_mkbit, hset, readThen_ok,
    hres, readThen_ok]

theorem runContinues_bit {s : State} {c : Config} {j d : Nat} {len : FrameLen} {bit : Bool} (hj : j < c.N)
    (hx : s.CellIs j (Cell.mkbit bit)) (hd : s.dcnt = some d) (hl : s.flen = some len) (hdl : d < len.bits) :
    runContinues c s j = .ok true :=
  runContinues_eq_true.2 ⟨hj, _, d, len, hx, Cell.isBit_mkbit bit, hd, hl, hdl⟩

theorem exec_arun_eq_collectBit {s : State} {c : Config} {j : Nat} (hc : s.cfg = some c) (hp : s.phase = .arun j)
    (hgo : runContinues c s j = .ok true) : exec .arun s = collectBit c j s := by
  simp [exec, execArun, hc, hp, hgo]

theorem exec_aend_accept {s : State} {c : Config} {j d : Nat} {len : FrameLen} (hc : s.cfg = some c)
    (hp : s.phase = .arun j) (hgo : runContinues c s j = .ok false) (hd : s.dcnt = some d) (hl : s.flen = some len)
    (hdl : len.bits - 1 ≤ d) : exec .aend s = .next { s with phase := .emit j } := by
  have he : enoughBits d len = true := by simpa [enoughBits] using hdl
  simp [exec, execAend, endRun, hc, hp, hgo, hd, hl, he]

/-! ### EMIT (R74) -/

theorem exec_emit_accept {s : State} {c : Config} {j : Nat} {f : FrameRecord} (hc : s.cfg = some c)
    (hp : s.phase = .emit j) (ha : s.sinkAccepts = true) (hf : s.presented = .ok f) :
    exec .emit s = .next { s.sinkAsked with port := s.port ++ [f], phase := .ascan (j + 1) } := by
  simp [exec, execEmit, hc, hp, ha, hf]

theorem exec_emit_wait {s : State} {c : Config} {j : Nat} (hc : s.cfg = some c) (hp : s.phase = .emit j)
    (ha : s.sinkAccepts = false) : exec .emit s = .next s.sinkAsked := by
  simp [exec, execEmit, hc, hp, ha]

end Sys2Proof.Machine

/-! ## Runs of the worker among the other agents

What the environment's operations leave of the worker's work, which operation the worker takes, and how a predicate that
the worker's steps keep while they come nearer to `WAIT` settles `State.FinishesWith`. -/

namespace Sys2Proof.Machine

/-! ### The environment's operations -/

/-- The two states hold the same work of the worker: all that its operations but TAKE read, the sink's answers apart,
and the frame port. -/
structure State.SameWork (s t : State) : Prop where
  cfg : t.cfg = s.cfg
  workBank : t.workBank = s.workBank
  phase : t.phase = s.phase
  cell : t.cell = s.cell
  start : t.start = s.start
  n : t.n = s.n
  ra : t.ra = s.ra
  rb : t.rb = s.rb
  err : t.err = s.err
  frame : t.frame = s.frame
  dcnt : t.dcnt = s.dcnt
  flen : t.flen = s.flen
  port : t.port = s.port

theorem State.SameWork.marked (s : State) (m : RefusalMark) : s.SameWork (s.marked m) := by constructor <;> rfl

theorem State.SameWork.deliver {data : List Byte} {s t : State} (h : exec (.deliver data) s = .next t) :
    s.SameWork t := by
  rcases execDeliver_next h with ⟨-, rfl⟩ | ⟨c, -, ⟨-, rfl⟩ | ⟨-, -, rfl⟩ | ⟨-, -, rfl⟩⟩
  · exact .marked s _
  · exact .marked s _
  · constructor <;> rfl
  · constructor <;> simp [State.workBank]

theorem State.SameWork.cancel {s t : State} (h : exec .cancel s = .next t) : s.SameWork t := by
  rcases execCancel_next h with ⟨-, rfl⟩ | ⟨c, -, rfl⟩
  · exact .marked s _
  · constructor <;> rfl

/-- No operation of the environment but RESET touches the worker's work. -/
theorem State.SameWork.of_environment {i : Instr} {s t : State} (hi : i.isWorker = false)
    (hr : ∀ l e a b, i ≠ .reset l e a b) (h : exec i s = .next t) : s.SameWork t := by
  cases i with
  | reset l e a b => exact absurd rfl (hr l e a b)
  | deliver data => exact .deliver h
  | cancel => exact .cancel h
  | take | extract | search | decode | ascan | arun | aend | emit => cases hi

/-! ### The worker's operation -/

/-- Within a session a worker operation answers a next state only where it is the one the worker takes. -/
theorem workerOp_of_exec {c : Config} {i : Instr} {s t : State} (hc : s.cfg = some c) (hi : i.isWorker = true)
    (h : exec i s = .next t) : workerOp s = .ok (some i) := by
  have hne : s.cfg ≠ none := by simp [hc]
  cases i with
  | reset | deliver | cancel => cases hi
  | take =>
    obtain ⟨hn, -⟩ | ⟨_, -, hp, -⟩ := execTake_next h
    · exact absurd hn hne
    · simp [workerOp, hc, hp]
  | extract =>
    obtain ⟨hn, -⟩ | ⟨_, k, -, hp, -⟩ := execExtract_next h
    · exact absurd hn hne
    · simp [workerOp, hc, hp]
  | search =>
    obtain ⟨hn, -⟩ | ⟨_, k, -, hp, -⟩ := execSearch_next h
    · exact absurd hn hne
    · simp [workerOp, hc, hp]
  | decode =>
    obtain ⟨hn, -⟩ | ⟨_, k, -, hp, -⟩ := execDecode_next h
    · exact absurd hn hne
    · simp [workerOp, hc, hp]
  | ascan =>
    obtain ⟨hn, -⟩ | ⟨_, k, -, hp, -⟩ := execAscan_next h
    · exact absurd hn hne
    · simp [workerOp, hc, hp]
  | arun =>
    obtain ⟨hn, -⟩ | ⟨c', k, hc', hp, hgo, -⟩ := execArun_next h
    · exact absurd hn hne
    · simp [workerOp, hc', hp, hgo]
  | aend =>
    obtain ⟨hn, -⟩ | ⟨c', k, _, _, hc', hp, hgo, -⟩ := execAend_next h
    · exact absurd hn hne
    · simp [workerOp, hc', hp, hgo]
  | emit =>
    obtain ⟨hn, -⟩ | ⟨_, k, -, hp, -⟩ := execEmit_next h
    · exact absurd hn hne
    · simp [workerOp, hc, hp]

theorem workerOp_wait {c : Config} {s : State} (hc : s.cfg = some c) (hp : s.phase = .wait) :
    workerOp s = .ok (some .take) := by
  simp [workerOp, hc, hp]

/-- With no schedule the worker's operation is the step. -/
theorem step_of_workerOp {s : State} {i : Instr} (hs : s.script = []) (hi : workerOp s = .ok (some i)) :
    step s = exec i s := by
  simp [step, hs, stepWorker, hi]

/-! ### The inputs to come -/

/-- The two states hold the same schedule, and the sink ends by answering the same. -/
def State.SameInputs (s t : State) : Prop := t.script = s.script ∧ t.sinkThen = s.sinkThen

theorem sameInputs_decodeBit {c : Config} {p : Nat} {bit : Bool} {s t : State} (h : decodeBit c p bit s = .next t) :
    s.SameInputs t := by
  obtain ⟨_, _, -, -, -, -, rfl⟩ := decodeBit_next h
  exact ⟨rfl, rfl⟩

theorem sameInputs_decode {s t : State} (h : exec .decode s = .next t) : s.SameInputs t := by
  rcases execDecode_next h with
    ⟨-, rfl⟩ | ⟨c, p, -, -, ⟨-, rfl⟩ | ⟨-, x, y, a, b, -, -, -, -, ⟨_, -, h⟩ | ⟨-, e, -, ⟨-, h⟩ | ⟨-, h⟩⟩⟩⟩
  · exact ⟨rfl, rfl⟩
  · exact ⟨rfl, rfl⟩
  · exact (sameInputs_decodeBit h :)
  · obtain ⟨_, _, -, -, -, rfl⟩ := decodeAbort_next h
    exact ⟨rfl, rfl⟩
  · exact (sameInputs_decodeBit h :)

theorem sameInputs_collectBit {c : Config} {j : Nat} {s t : State} (h : collectBit c j s = .next t) :
    s.SameInputs t := by
  obtain ⟨x, d, u, v, -, -, hu, hv, rfl⟩ := collectBit_next h
  have hsu : s.SameInputs u := by
    rcases hu with ⟨-, rfl⟩ | ⟨-, hu⟩
    · exact ⟨rfl, rfl⟩
    · obtain ⟨-, _, -, rfl⟩ := setFbit_eq_ok.1 hu
      exact ⟨rfl, rfl⟩
  rcases resolveLen_eq_ok.1 hv with ⟨-, rfl⟩ | ⟨-, _, -, rfl⟩ <;> exact hsu

/-- No worker operation changes the schedule or what the sink ends by answering. -/
theorem sameInputs_of_worker {i : Instr} {s t : State} (hi : i.isWorker = true) (h : exec i s = .next t) :
    s.SameInputs t := by
  cases i with
  | reset | deliver | cancel => cases hi
  | take =>
    rcases execTake_next h with ⟨-, rfl⟩ | ⟨_, -, -, ⟨-, rfl⟩ | ⟨-, -, rfl⟩ | ⟨-, -, rfl⟩⟩ <;> exact ⟨rfl, rfl⟩
  | extract =>
    rcases execExtract_next h with ⟨-, rfl⟩ | ⟨_, _, -, -, ⟨-, _, _, -, -, -, -, rfl⟩ | ⟨-, rfl⟩⟩ <;> exact ⟨rfl, rfl⟩
  | search =>
    rcases execSearch_next h with ⟨-, rfl⟩ | ⟨_, _, -, -, ⟨-, rfl⟩ | ⟨-, -, rfl⟩ | ⟨-, -, h⟩⟩
    · exact ⟨rfl, rfl⟩
    · exact ⟨rfl, rfl⟩
    · exact ⟨rfl, rfl⟩
    · obtain ⟨_, _, -, -, -, -, -, rfl⟩ := searchMatch_next h
      exact ⟨rfl, rfl⟩
  | decode => exact sameInputs_decode h
  | ascan =>
    rcases execAscan_next h with ⟨-, rfl⟩ | ⟨_, _, -, -, ⟨-, rfl⟩ | ⟨-, _, -, ⟨-, rfl⟩ | ⟨-, rfl⟩⟩⟩ <;>
      exact ⟨rfl, rfl⟩
  | arun =>
    rcases execArun_next h with ⟨-, rfl⟩ | ⟨_, _, -, -, -, h⟩
    · exact ⟨rfl, rfl⟩
    · exact sameInputs_collectBit h
  | aend =>
    rcases execAend_next h with ⟨-, rfl⟩ | ⟨_, _, _, _, -, -, -, -, -, ⟨-, rfl⟩ | ⟨-, rfl⟩⟩ <;> exact ⟨rfl, rfl⟩
  | emit =>
    rcases execEmit_next h with ⟨-, rfl⟩ | ⟨_, _, -, -, ⟨-, rfl⟩ | ⟨-, _, _, -, -, rfl⟩⟩ <;> exact ⟨rfl, rfl⟩

/-! ### Finishing a buffer -/

/-- What is left to do: the worker's steps to the next `WAIT` (R104), and the sink's answers still to come. -/
def workLeft (c : Config) (s : State) : Nat := stepsLeft c s.phase + s.sinkAnswers.length

theorem workLeft_lt {c : Config} {s t : State} {p : Phase} (hph : s.phase = p)
    (hlt : stepsLeft c t.phase < stepsLeft c p) (hsink : t.sinkAnswers.length ≤ s.sinkAnswers.length) :
    workLeft c t < workLeft c s := by
  rw [workLeft, workLeft, hph]
  omega

/-- From `s` the worker's own operation leads to a state of `P`, and nearer to `WAIT` if the sink ends by accepting. -/
def Advances (c : Config) (P : State → Prop) (s : State) : Prop :=
  ∃ i t, i.isWorker = true ∧ exec i s = .next t ∧ P t ∧ (s.sinkThen = true → workLeft c t < workLeft c s)

/-- `P` holds on the way to `WAIT`: it speaks of the worker's work alone, and until `WAIT` every step of the worker stays
in it and advances. -/
structure OnTheWay (c : Config) (P : State → Prop) : Prop where
  cfg : ∀ {s}, P s → s.cfg = some c
  sameWork : ∀ {s t}, P s → s.SameWork t → P t
  advances : ∀ {s}, P s → s.phase ≠ .wait → Advances c P s

namespace OnTheWay

variable {c : Config} {P : State → Prop}

/-- Every operation but TAKE and RESET keeps such a predicate. -/
theorem exec_keeps (H : OnTheWay c P) {i : Instr} {s t : State} (hs : P s) (htake : i ≠ .take)
    (hreset : ∀ l e a b, i ≠ .reset l e a b) (h : exec i s = .next t) : P t := by
  cases hi : i.isWorker with
  | false => exact H.sameWork hs (.of_environment hi hreset h)
  | true =>
    have hop := workerOp_of_exec (H.cfg hs) hi h
    by_cases hw : s.phase = .wait
    · rw [workerOp_wait (H.cfg hs) hw] at hop
      simp_all
    · obtain ⟨i', t', hi', h', ht', -⟩ := H.advances hs hw
      have hii : i' = i := by simpa [workerOp_of_exec (H.cfg hs) hi' h'] using hop
      subst hii
      cases h.symm.trans h'
      exact ht'

theorem runOps_keeps (H : OnTheWay c P) {ops : List Instr} {s t : State} (hs : P s)
    (hops : ∀ i ∈ ops, i ≠ .take ∧ ∀ l e a b, i ≠ .reset l e a b) (h : runOps ops s = .next t) : P t := by
  induction ops generalizing s with
  | nil => cases h; exact hs
  | cons i ops ih =>
    rw [runOps] at h
    split at h
    · rename_i u hu
      obtain ⟨htake, hreset⟩ := hops i (by simp)
      exact ih (H.exec_keeps hs htake hreset hu) (fun j hj => hops j (by simp [hj])) h
    · cases h
    · cases h

/-- With no schedule, and a sink that ends by accepting, the model's own steps reach `WAIT`. -/
theorem exists_runSteps_wait (H : OnTheWay c P) {s : State} (hs : P s) (hscript : s.script = [])
    (hsink : s.sinkThen = true) : ∃ k t, runSteps k s = .next t ∧ t.phase = .wait ∧ P t := by
  induction hm : workLeft c s using Nat.strong_induction_on generalizing s with
  | _ m ih =>
    by_cases hw : s.phase = .wait
    · exact ⟨0, s, rfl, hw, hs⟩
    · obtain ⟨i, u, hi, hu, hPu, hlt⟩ := H.advances hs hw
      obtain ⟨h1, h2⟩ := sameInputs_of_worker hi hu
      obtain ⟨k, t, hk, ht⟩ := ih _ (hm ▸ hlt hsink) hPu (h1.trans hscript) (h2.trans hsink) rfl
      refine ⟨k + 1, t, ?_, ht⟩
      rw [runSteps, step_of_workerOp hscript (workerOp_of_exec (H.cfg hs) hi hu), hu]
      exact hk

/-- A predicate on the way to `WAIT` that fixes the port there settles which frames a buffer gives. -/
theorem finishesWith (H : OnTheWay c P) {s : State} {frames : List FrameRecord} (hs : P s)
    (hport : ∀ t, P t → t.phase = .wait → t.port = s.port ++ frames) : s.FinishesWith frames := by
  constructor
  · intro ops t hops hrun hw
    exact hport t (H.runOps_keeps hs hops hrun) hw
  · intro hscript hsink
    obtain ⟨k, t, hk, hw, ht⟩ := H.exists_runSteps_wait hs hscript hsink
    exact ⟨k, t, hk, hw, hport t ht hw⟩

end OnTheWay

end Sys2Proof.Machine

/-! ## The reception of one transmission (R53, R62, R69, R76)

The way of a buffer that holds a preamble and one frame's ideal pairs, phase by phase. -/

namespace Sys2Proof.Machine

/-! ### The transmission -/

/-- One of two levels: the high one for `true`. -/
def level (h l : Byte) (b : Bool) : Byte := if b then h else l

/-- A frame sent at two levels to a block with a configuration. -/
structure Transmission where
  c : Config
  h : Byte
  l : Byte
  f : FrameRecord

namespace Transmission

/-- What the obligation says of them: two levels, one high and one low seed, a frame whose length is fixed by its first
bit and that is zero past its length, and a buffer that ends with it. -/
structure Ideal (x : Transmission) : Prop where
  levels : x.l < x.h
  seedA : x.c.seedA < 16
  seedB : x.c.seedB < 16
  seeds : isHighOff x.c.seedB = !isHighOff x.c.seedA
  octets : x.f.octets.length = 14
  first : x.f.len = .long ↔ x.f.fbit 0 = true
  rest : ∀ t, x.f.len.bits ≤ t → x.f.fbit t = false
  size : x.c.N = 16 + 2 * x.f.len.bits

/-- Whether sample `k` is a high one: the preamble's pattern (R57), then each bit's pair, a 1 as high and low. -/
def high (x : Transmission) (k : Nat) : Bool :=
  if k < 16 then isHighOff k else x.f.fbit ((k - 16) / 2) ^^ (k % 2 == 1)

/-- The magnitude of sample `k`. -/
def mag (x : Transmission) (k : Nat) : Byte := level x.h x.l (x.high k)

/-- Cell `k` once `m` pairs of the frame are decoded: the preamble consumed, `m` bits, `m` consumed cells, and the
magnitudes of the pairs to come. -/
def cellAfter (x : Transmission) (m k : Nat) : Cell :=
  if k < 16 then .consumed
  else if k < 16 + m then Cell.mkbit (x.f.fbit (k - 16))
  else if k < 16 + 2 * m then .consumed
  else .mag (x.mag k)

variable {x : Transmission}

theorem cellAfter_preamble {m k : Nat} (hk : k < 16) : x.cellAfter m k = .consumed := by simp [cellAfter, hk]

theorem cellAfter_bit {m t : Nat} (ht : t < m) : x.cellAfter m (16 + t) = Cell.mkbit (x.f.fbit t) := by
  simp [cellAfter, ht]

theorem cellAfter_pair {m k : Nat} (h : 16 + 2 * m ≤ k) : x.cellAfter m k = .mag (x.mag k) := by
  simp [cellAfter, show ¬ k < 16 by omega, show ¬ k < 16 + m by omega, show ¬ k < 16 + 2 * m by omega]

theorem cellAfter_consumed {m k : Nat} (h1 : 16 + m ≤ k) (h2 : k < 16 + 2 * m) : x.cellAfter m k = .consumed := by
  simp [cellAfter, show ¬ k < 16 + m by omega, h2]

/-- A cell that is neither the pair just decoded nor the bit just written is as it was. -/
theorem cellAfter_succ {m k : Nat} (hbit : k ≠ 16 + m) (h0 : k ≠ 16 + 2 * m) (h1 : k ≠ 16 + 2 * m + 1) :
    x.cellAfter (m + 1) k = x.cellAfter m k := by
  unfold cellAfter
  grind

theorem mag_pair_first (x : Transmission) (m : Nat) : x.mag (16 + 2 * m) = level x.h x.l (x.f.fbit m) := by
  simp [mag, high, show (16 + 2 * m) % 2 = 0 by omega]

theorem mag_pair_second (x : Transmission) (m : Nat) : x.mag (16 + 2 * m + 1) = level x.h x.l (!x.f.fbit m) := by
  have hdiv : (16 + 2 * m + 1 - 16) / 2 = m := by omega
  rw [mag, high, if_neg (by omega), hdiv]
  simp [show (16 + 2 * m + 1) % 2 = 1 by omega]

theorem mag_preamble {k : Nat} (hk : k < 16) : x.mag k = level x.h x.l (isHighOff k) := by
  simp [mag, high, hk]

end Transmission

theorem FrameLen.le_bits (len : FrameLen) : 56 ≤ len.bits := by cases len <;> decide

theorem FrameLen.eq_of_long_iff {a b : FrameLen} (h : a = .long ↔ b = .long) : a = b := by
  cases a <;> cases b <;> simp_all

/-- A sink that refuses now and ends by accepting uses up an answer. -/
theorem sinkAsked_length_lt {s : State} (hthen : s.sinkThen = true) (ha : s.sinkAccepts = false) :
    s.sinkAsked.sinkAnswers.length < s.sinkAnswers.length := by
  cases hs : s.sinkAnswers with
  | nil => simp [State.sinkAccepts, hs, hthen] at ha
  | cons b bs => simp [hs]

/-! ### The classifier and the preamble scan at two levels -/

/-- An ideal pair after an ideal reference pair is its bit (R65 item 2). -/
theorem cls_level {h l : Byte} (hl : l < h) (ref bit : Bool) :
    cls (level h l ref) (level h l !ref) (level h l bit) (level h l !bit) = if bit then .one else .zero := by
  have hn : ¬ h < l := by bv_omega
  cases ref <;> cases bit <;> simp [cls, level, hl, hn]

/-- Over samples with the preamble's pattern the low floor stays at the low level and the high ceiling at the high one. -/
theorem preScan_level {c : Config} {s : State} {i : Nat} {h l : Byte} (hl : l < h) (offs : List Nat) {lo hi : Nat}
    (hcells : ∀ o ∈ offs, i + o < c.N ∧ s.CellIs (i + o) (.mag (level h l (isHighOff o))))
    (hlo : lo ≤ l.toNat) (hhi : h.toNat ≤ hi) : preScan c s i offs lo hi = .ok true := by
  have hlt : l.toNat < h.toNat := hl
  induction offs generalizing lo hi with
  | nil => rfl
  | cons o offs ih =>
    obtain ⟨hN, hcell⟩ := hcells o (by simp)
    have hfloor : lowFloor o lo (level h l (isHighOff o)) ≤ l.toNat := by
      cases ho : isHighOff o <;> simp [lowFloor, level, ho, hlo]
    have hceil : h.toNat ≤ highCeiling o hi (level h l (isHighOff o)) := by
      cases ho : isHighOff o <;> simp [highCeiling, level, ho, hhi]
    rw [preScan, hcell.readCell hN]
    simp only [show ¬ highCeiling o hi (level h l (isHighOff o)) ≤ lowFloor o lo (level h l (isHighOff o)) by omega,
      if_false]
    exact ih (fun o' ho' => hcells o' (by simp [ho'])) hfloor hceil

/-! ### The frame register -/

/-- The register holds the first `d` bits of `f`, and zeros after them. -/
def HoldsBits (frame : Memory 8) (f : FrameRecord) (d : Nat) : Prop :=
  frame.FullTo 14 ∧ ∀ t, t < 112 → frame.fbit t = some (decide (t < d) && f.fbit t)

theorem holdsBits_cleared (m : Memory 8) (f : FrameRecord) : HoldsBits (clearedFrame m) f 0 := by
  have hread : ∀ o, o < 14 → (clearedFrame m).read o = some 0 := fun o ho => by rw [clearedFrame_read, if_pos ho]
  refine ⟨fun o ho => ⟨0, hread o ho⟩, fun t ht => ?_⟩
  rw [Memory.fbit_of_read (hread _ (by omega))]
  simp

/-- Collecting bit `d` of `f` leaves the register with the first `d + 1` bits. -/
theorem HoldsBits.succ {frame fr : Memory 8} {f : FrameRecord} {d : Nat} (h : HoldsBits frame f d)
    (hfull : fr.FullTo 14)
    (hfr : ∀ t, fr.fbit t = if t = d ∧ f.fbit d = true then some true else frame.fbit t) : HoldsBits fr f (d + 1) := by
  refine ⟨hfull, fun t ht => ?_⟩
  rw [hfr, h.2 t ht]
  by_cases htd : t = d
  · subst htd
    cases f.fbit t <;> simp
  · simp [htd, show t < d + 1 ↔ t < d by omega]

/-- An octet is its eight frame bits. -/
theorem Memory.read_eq_of_fbit {m : Memory 8} {f : FrameRecord} {o : Nat}
    (h : ∀ b, b < 8 → m.fbit (8 * o + b) = some (f.fbit (8 * o + b))) : m.read o = some (f.octet o) := by
  have hdiv : ∀ b, b < 8 → (8 * o + b) / 8 = o := fun b hb => by omega
  cases hv : m.read o with
  | none =>
    have h0 := h 0 (by omega)
    rw [Memory.fbit, hdiv 0 (by omega), hv] at h0
    cases h0
  | some v =>
    congr 1
    apply BitVec.eq_of_getLsbD_eq
    intro i hi
    have hb := h (7 - i) (by omega)
    rw [Memory.fbit, FrameRecord.fbit, hdiv _ (by omega), hv] at hb
    simpa [show (8 * o + (7 - i)) % 8 = 7 - i by omega, show 7 - (7 - i) = i by omega] using hb

/-- With all its bits collected, the frame port shows `f`. -/
theorem HoldsBits.presented {s : State} {f : FrameRecord} (h : HoldsBits s.frame f f.len.bits)
    (hoct : f.octets.length = 14) (hrest : ∀ t, f.len.bits ≤ t → f.fbit t = false) (hl : s.flen = some f.len) :
    s.presented = .ok f := by
  refine presented_eq_ok.2 ⟨readRange_eq_ok.2 ⟨hoct, fun o ho => ⟨by omega, ?_⟩⟩, hl⟩
  have hbits : ∀ t, t < 112 → s.frame.fbit t = some (f.fbit t) := fun t ht => by
    rw [h.2 t ht]
    by_cases hlt : t < f.len.bits
    · simp [hlt]
    · simp [hlt, hrest t (by omega)]
  rw [Nat.zero_add, Memory.read_eq_of_fbit fun b hb => hbits _ (by omega)]
  simp [FrameRecord.octet, List.getD, hoct, ho]

/-! ### The way of the buffer -/

namespace Transmission

/-- The cell array once `m` pairs are decoded. -/
def Cells (x : Transmission) (m : Nat) (s : State) : Prop := ∀ k, k < x.c.N → s.CellIs k (x.cellAfter m k)

/-- The length in force once `d` bits are collected: provisional until the eighth (R72). -/
def target (x : Transmission) (d : Nat) : FrameLen := if d < 8 then .long else x.f.len

/-- The phases of the way of the buffer, from the port `port` it began with. -/
def PhaseOf (x : Transmission) (port : List FrameRecord) (s : State) : Phase → Prop
  | .extract k =>
      k ≤ x.c.N ∧ (∀ q, q < k → s.CellIs q (.mag (x.mag q))) ∧ s.port = port ∧
        ∀ q, q < x.c.N → ∃ i j, s.workBank.read (2 * q) = some i ∧ s.workBank.read (2 * q + 1) = some j ∧
          Machine.mag i j = x.mag q
  | .search i =>
      s.port = port ∧
        ((i = 0 ∧ ∀ q, q < x.c.N → s.CellIs q (.mag (x.mag q))) ∨ (i = x.c.N ∧ x.Cells x.f.len.bits s))
  | .decode p =>
      ∃ m ref, m ≤ x.f.len.bits ∧ p = 16 + 2 * m ∧ s.start = some 16 ∧ s.n = some m ∧
        s.ra = some (level x.h x.l ref) ∧ s.rb = some (level x.h x.l !ref) ∧ x.Cells m s ∧ s.port = port
  | .ascan j =>
      x.Cells x.f.len.bits s ∧
        ((j ≤ 16 ∧ s.port = port) ∨ (16 + x.f.len.bits < j ∧ j ≤ x.c.N ∧ s.port = port ++ [x.f]))
  | .arun j =>
      ∃ d, d ≤ x.f.len.bits ∧ j = 16 + d ∧ s.dcnt = some d ∧ s.flen = some (x.target d) ∧ HoldsBits s.frame x.f d ∧
        x.Cells x.f.len.bits s ∧ s.port = port
  | .emit j =>
      j = 16 + x.f.len.bits ∧ s.flen = some x.f.len ∧ HoldsBits s.frame x.f x.f.len.bits ∧
        x.Cells x.f.len.bits s ∧ s.port = port
  | .wait => s.port = port ++ [x.f]
  | .done => False

/-- The block is on the way of the transmission's buffer. -/
def Receiving (x : Transmission) (port : List FrameRecord) (s : State) : Prop :=
  s.cfg = some x.c ∧ x.PhaseOf port s s.phase

variable {x : Transmission} {port : List FrameRecord} {s t : State}

theorem Cells.congr {m : Nat} (h : x.Cells m s) (hcell : t.cell = s.cell) : x.Cells m t := fun k hk => by
  rw [State.CellIs, hcell]
  exact h k hk

/-- The way depends on the worker's work alone. -/
theorem Receiving.sameWork (h : x.Receiving port s) (hst : s.SameWork t) : x.Receiving port t := by
  obtain ⟨hc, hp⟩ := h
  refine ⟨hst.cfg.trans hc, ?_⟩
  rw [hst.phase]
  cases hph : s.phase with
  | done => rw [hph] at hp; exact hp.elim
  | _ =>
    simpa only [hph, PhaseOf, Cells, State.CellIs, hst.workBank, hst.cell, hst.start, hst.n, hst.ra, hst.rb, hst.frame,
      hst.dcnt, hst.flen, hst.port] using hp

/-- EXTRACT: the next magnitude, or the end of the pass. -/
theorem advances_extract {k : Nat} (hc : s.cfg = some x.c) (hph : s.phase = .extract k)
    (hp : x.PhaseOf port s (.extract k)) : Advances x.c (x.Receiving port) s := by
  obtain ⟨hkN, hcells, hport, hbank⟩ := hp
  by_cases hk : k < x.c.N
  · obtain ⟨i, j, hi, hj, hmag⟩ := hbank k hk
    refine ⟨.extract, _, rfl, exec_extract_pair hc hph hk hi hj, ⟨hc, hk, fun q hq => ?_, hport, hbank⟩, fun _ =>
      workLeft_lt hph (by simp only [stepsLeft]; omega) le_rfl⟩
    · rw [State.CellIs, Memory.read_write]
      split
      · next h => rw [h, hmag]
      · exact hcells q (by omega)
  · have hkN' : k = x.c.N := by omega
    exact ⟨.extract, _, rfl, exec_extract_end hc hph (by omega), ⟨hc, hport, .inl ⟨rfl, hkN' ▸ hcells⟩⟩, fun _ =>
      workLeft_lt hph (by simp only [stepsLeft]; omega) le_rfl⟩

/-- SEARCH at the end of the cells: the scan for frames begins. -/
theorem advances_search_end (hc : s.cfg = some x.c) (hph : s.phase = .search x.c.N) (hport : s.port = port)
    (hcells : x.Cells x.f.len.bits s) : Advances x.c (x.Receiving port) s := by
  exact ⟨.search, _, rfl, exec_search_end hc hph (by omega), ⟨hc, hcells, .inl ⟨by omega, hport⟩⟩, fun _ =>
    workLeft_lt hph (by simp only [stepsLeft]; omega) le_rfl⟩

variable (hx : x.Ideal)
include hx

/-- SEARCH at 0: the preamble matches and the seeds give an ideal reference pair. -/
theorem advances_search_match (hc : s.cfg = some x.c) (hph : s.phase = .search 0) (hport : s.port = port)
    (hcells : ∀ q, q < x.c.N → s.CellIs q (.mag (x.mag q))) : Advances x.c (x.Receiving port) s := by
  have hN := hx.size
  have hcell : ∀ o, o < 16 → o < x.c.N ∧ s.CellIs o (.mag (level x.h x.l (isHighOff o))) := fun o ho =>
    ⟨by omega, mag_preamble (x := x) ho ▸ hcells o (by omega)⟩
  have hpre : pre x.c s 0 = .ok true := by
    refine preScan_level hx.levels _ (fun o ho => ?_) (by omega) (by bv_omega)
    simpa using hcell o (by simpa [preLen] using ho)
  refine ⟨.search, _, rfl, exec_search_match hc hph (by omega) hpre hx.seedA hx.seedB
    (by simpa using (hcell _ hx.seedA).2) (by simpa using (hcell _ hx.seedB).2),
    ⟨hc, 0, isHighOff x.c.seedA, by omega, rfl, rfl, rfl, rfl, by rw [hx.seeds], fun k hk => ?_, hport⟩, fun _ =>
    workLeft_lt hph (by simp only [stepsLeft]; omega) le_rfl⟩
  · rw [State.CellIs, Memory.read_writeList]
    simp only [List.length_replicate, Nat.zero_le, true_and, Nat.zero_add, Nat.sub_zero, List.getElem?_replicate]
    split
    · rw [cellAfter_preamble ‹_›]
    · rw [cellAfter_pair (by omega)]
      exact hcells k hk

/-- DECODE: the next pair gives its bit, or the buffer ends. -/
theorem advances_decode {p : Nat} (hc : s.cfg = some x.c) (hph : s.phase = .decode p)
    (hp : x.PhaseOf port s (.decode p)) : Advances x.c (x.Receiving port) s := by
  obtain ⟨m, ref, hm, rfl, hst, hn, hra, hrb, hcells, hport⟩ := hp
  have hN := hx.size
  by_cases hlt : m < x.f.len.bits
  · have hfirst := hcells (16 + 2 * m) (by omega)
    have hsecond := hcells (16 + 2 * m + 1) (by omega)
    rw [cellAfter_pair (by omega), mag_pair_first] at hfirst
    rw [cellAfter_pair (by omega), mag_pair_second] at hsecond
    refine ⟨.decode, _, rfl, exec_decode_clear hc hph (by omega) hfirst hsecond hra hrb hst hn (by omega)
      (cls_level hx.levels ref (x.f.fbit m)),
      ⟨hc, m + 1, x.f.fbit m, hlt, rfl, hst, rfl, rfl, rfl, fun k hk => ?_, hport⟩, fun _ =>
      workLeft_lt hph (by simp only [stepsLeft]; omega) le_rfl⟩
    · simp only [State.CellIs, Memory.read_write]
      split
      · next h => rw [h, cellAfter_bit (by omega)]
      · split
        · next h => rw [h, cellAfter_consumed (by omega) (by omega)]
        · split
          · next h => rw [h, cellAfter_consumed (by omega) (by omega)]
          · rw [cellAfter_succ ‹_› ‹_› ‹_›]
            exact hcells k hk
  · have hme : m = x.f.len.bits := by omega
    exact ⟨.decode, _, rfl, exec_decode_end hc hph (by omega), ⟨hc, hport, .inr ⟨by omega, hme ▸ hcells⟩⟩, fun _ =>
      workLeft_lt hph (by simp only [stepsLeft]; omega) le_rfl⟩

/-- ASCAN: cells before and after the frame's bits are skipped, the first bit starts the assembly, the last cell ends
the buffer. -/
theorem advances_ascan {j : Nat} (hc : s.cfg = some x.c) (hph : s.phase = .ascan j)
    (hp : x.PhaseOf port s (.ascan j)) : Advances x.c (x.Receiving port) s := by
  obtain ⟨hcells, hj⟩ := hp
  have hN := hx.size
  have hbits := x.f.len.le_bits
  by_cases h16 : j = 16
  · have hcell := hcells j (by omega)
    rw [h16, show 16 = 16 + 0 from rfl, cellAfter_bit (by omega)] at hcell
    refine ⟨.ascan, _, rfl, exec_ascan_start hc hph (by omega) (h16 ▸ hcell) (Cell.isBit_mkbit _),
      ⟨hc, 0, by omega, h16, rfl, rfl, holdsBits_cleared _ _, hcells, ?_⟩, fun _ =>
      workLeft_lt hph (by simp only [stepsLeft]; omega) le_rfl⟩
    · exact hj.elim And.right (by omega)
  · by_cases hend : x.c.N ≤ j
    · refine ⟨.ascan, _, rfl, exec_ascan_end hc hph hend, ⟨hc, ?_⟩, fun _ =>
        workLeft_lt hph (by simp only [stepsLeft]; omega) le_rfl⟩
      · exact hj.elim (by omega) fun h => h.2.2
    · have hcell : s.CellIs j .consumed := by
        have hcell := hcells j (by omega)
        rcases hj with ⟨hj, -⟩ | ⟨hj, hjN, -⟩
        · rwa [cellAfter_preamble (by omega)] at hcell
        · rwa [cellAfter_consumed (by omega) (by omega)] at hcell
      refine ⟨.ascan, _, rfl, exec_ascan_skip hc hph (by omega) hcell rfl, ⟨hc, hcells, ?_⟩, fun _ =>
        workLeft_lt hph (by simp only [stepsLeft]; omega) le_rfl⟩
      · rcases hj with ⟨hj, hport⟩ | ⟨hj, -, hport⟩
        · exact .inl ⟨by omega, hport⟩
        · exact .inr ⟨by omega, by omega, hport⟩

/-- The collected bit that fixes the length fixes it as the frame's. -/
theorem target_succ {fr : Memory 8} {d : Nat} {len' : FrameLen} (hd : d < x.f.len.bits)
    (hfr : HoldsBits fr x.f (d + 1)) (h7 : d = 7 → (len' = .long ↔ fr.fbit 0 = some true))
    (hn7 : d ≠ 7 → len' = x.target d) : len' = x.target (d + 1) := by
  by_cases hd7 : d = 7
  · subst hd7
    have h0 : fr.fbit 0 = some (x.f.fbit 0) := by simpa using hfr.2 0 (by omega)
    exact FrameLen.eq_of_long_iff (by rw [h7 rfl, h0, Option.some.injEq, ← hx.first]; rfl)
  · rw [hn7 hd7]
    simp only [target, show d < 8 ↔ d + 1 < 8 by omega]

/-- ARUN and AEND: the next bit is collected, or the whole frame is accepted. -/
theorem advances_arun {j : Nat} (hc : s.cfg = some x.c) (hph : s.phase = .arun j)
    (hp : x.PhaseOf port s (.arun j)) : Advances x.c (x.Receiving port) s := by
  obtain ⟨d, hd, rfl, hdcnt, hflen, hframe, hcells, hport⟩ := hp
  have hN := hx.size
  have hbits := x.f.len.le_bits
  by_cases hlt : d < x.f.len.bits
  · have hcell := hcells (16 + d) (by omega)
    rw [cellAfter_bit hlt] at hcell
    have hd112 : d < 112 := Nat.lt_of_lt_of_le hlt x.f.len.bits_le
    have htarget : d < (x.target d).bits := by
      unfold target
      split
      · exact hd112
      · exact hlt
    obtain ⟨fr, len', hfull, hfr, h7, hn7, hcollect⟩ :=
      collectBit_ok hdcnt hflen (by omega : 16 + d < x.c.N) hcell hd112 hframe.1
    have hframe' := hframe.succ hfull hfr
    have hlen' := target_succ hx hlt hframe' h7 hn7
    exact ⟨.arun, _, rfl,
      (exec_arun_eq_collectBit hc hph (runContinues_bit (by omega) hcell hdcnt hflen htarget)).trans hcollect,
      ⟨hc, d + 1, hlt, rfl, rfl, by rw [hlen'], hframe', hcells, hport⟩, fun _ =>
      workLeft_lt hph (by simp only [stepsLeft]; omega) le_rfl⟩
  · have hde : d = x.f.len.bits := by omega
    have htarget : x.target d = x.f.len := by simp [target, show ¬ d < 8 by omega]
    rw [htarget] at hflen
    have hgo : runContinues x.c s (16 + d) = .ok false := by
      have hcell := hcells (16 + d) (by omega)
      rw [cellAfter_consumed (by omega) (by omega)] at hcell
      exact runContinues_eq_false.2 (.inr ⟨by omega, _, hcell, .inl rfl⟩)
    exact ⟨.aend, _, rfl, exec_aend_accept hc hph hgo hdcnt hflen (by omega),
      ⟨hc, by omega, hflen, hde ▸ hframe, hcells, hport⟩, fun _ =>
      workLeft_lt hph (by simp only [stepsLeft]; omega) le_rfl⟩

/-- EMIT: the frame is presented once the sink accepts. -/
theorem advances_emit {j : Nat} (hc : s.cfg = some x.c) (hph : s.phase = .emit j)
    (hp : x.PhaseOf port s (.emit j)) : Advances x.c (x.Receiving port) s := by
  have hN := hx.size
  cases ha : s.sinkAccepts with
  | true =>
    obtain ⟨hj, hflen, hframe, hcells, hport⟩ := hp
    refine ⟨.emit, _, rfl, exec_emit_accept hc hph ha (hframe.presented hx.octets hx.rest hflen),
      ⟨hc, hcells, .inr ⟨by omega, ?_, by rw [← hport]⟩⟩, fun _ =>
      workLeft_lt hph (by simp only [stepsLeft]; omega) (by simp)⟩
    · have := x.f.len.le_bits
      omega
  | false =>
    refine ⟨.emit, _, rfl, exec_emit_wait hc hph ha, ⟨hc, hph ▸ hp⟩, fun hthen => ?_⟩
    have := sinkAsked_length_lt hthen ha
    simp only [workLeft, State.sinkAsked_phase]
    omega

theorem onTheWay : OnTheWay x.c (x.Receiving port) where
  cfg h := h.1
  sameWork := Receiving.sameWork
  advances := by
    intro s ⟨hc, hp⟩ hw
    cases hph : s.phase with
    | wait => exact absurd hph hw
    | done => rw [hph] at hp; exact hp.elim
    | extract k => exact advances_extract hc hph (hph ▸ hp)
    | search i =>
      rw [hph] at hp
      rcases hp with ⟨hport, ⟨rfl, hcells⟩ | ⟨rfl, hcells⟩⟩
      · exact advances_search_match hx hc hph hport hcells
      · exact advances_search_end hc hph hport hcells
    | decode p => exact advances_decode hx hc hph (hph ▸ hp)
    | ascan j => exact advances_ascan hx hc hph (hph ▸ hp)
    | arun j => exact advances_arun hx hc hph (hph ▸ hp)
    | emit j => exact advances_emit hx hc hph (hph ▸ hp)

/-- From the taken buffer on, exactly the frame is presented. -/
theorem finishesWith (hc : s.cfg = some x.c) (hph : s.phase = .extract 0)
    (hbank : ∀ q, q < x.c.N → ∃ i j, s.workBank.read (2 * q) = some i ∧ s.workBank.read (2 * q + 1) = some j ∧
      Machine.mag i j = x.mag q) : s.FinishesWith [x.f] := by
  have hs : x.Receiving s.port s := ⟨hc, by rw [hph]; exact ⟨by omega, fun q hq => by omega, rfl, hbank⟩⟩
  exact (onTheWay hx).finishesWith hs fun t ht hw => by simpa [hw, PhaseOf] using ht.2

end Transmission

end Sys2Proof.Machine

/-! ## The stimulus of one transmission (R53)

The bytes of R53's expressions, sample by sample, and the obligation about an ideal transmission. -/

namespace Sys2Proof.Machine

/-! ### Lists of blocks of one length -/

section Blocks

variable {α : Type} {n : Nat} {xss : List (List α)}

theorem length_flatten_const (h : ∀ xs ∈ xss, xs.length = n) : xss.flatten.length = n * xss.length := by
  rw [List.length_flatten, List.map_congr_left h]
  simp [Nat.mul_comm]

theorem getElem?_flatten_const (h : ∀ xs ∈ xss, xs.length = n) {k r : Nat} (hr : r < n) :
    xss.flatten[n * k + r]? = xss[k]?.bind fun xs => xs[r]? := by
  induction xss generalizing k with
  | nil => simp
  | cons xs xss ih =>
    have hxs : xs.length = n := h xs (by simp)
    cases k with
    | zero => simp [List.getElem?_append_left, hxs, hr]
    | succ k =>
      rw [List.flatten_cons, List.getElem?_append_right (by rw [hxs, Nat.mul_succ]; omega), hxs,
        show n * (k + 1) + r - n = n * k + r by rw [Nat.mul_succ]; omega, ih fun ys hys => h ys (by simp [hys])]
      simp

end Blocks

/-! ### Samples -/

/-- `IQ(m)` is a pair of bytes of magnitude `m`. -/
theorem stimIQ_eq_pair {m : Nat} (hm : m ≤ 255) : ∃ i q, stimIQ m = [i, q] ∧ mag i q = BitVec.ofNat 8 m := by
  unfold stimIQ
  split
  · refine ⟨_, _, rfl, ?_⟩
    unfold mag
    congr 1
    simp only [BitVec.toNat_ofNat]
    omega
  · refine ⟨_, _, rfl, ?_⟩
    rw [show m = 255 by omega]
    decide

theorem stimIQ_length (m : Nat) : (stimIQ m).length = 2 := by
  unfold stimIQ
  split <;> rfl

theorem stimMags_length (ms : List Nat) : (stimMags ms).length = 2 * ms.length := by
  rw [stimMags, length_flatten_const (n := 2) (by simp [stimIQ_length]), List.length_map]

/-- The two bytes of sample `k` have its magnitude. -/
theorem stimMags_pair {ms : List Nat} {k m : Nat} (hk : ms[k]? = some m) (hm : m ≤ 255) :
    ∃ i q, (stimMags ms)[2 * k]? = some i ∧ (stimMags ms)[2 * k + 1]? = some q ∧ mag i q = BitVec.ofNat 8 m := by
  obtain ⟨i, q, hiq, hmag⟩ := stimIQ_eq_pair hm
  have hbyte : ∀ r, r < 2 → (stimMags ms)[2 * k + r]? = [i, q][r]? := fun r hr => by
    rw [stimMags, getElem?_flatten_const (by simp [stimIQ_length]) hr]
    simp [hk, hiq]
  exact ⟨i, q, hbyte 0 (by omega), hbyte 1 (by omega), hmag⟩

/-! ### The samples of a transmission -/

/-- The bits of the octets, most significant first. -/
def octetBits (data : List Byte) : List Bool := (data.map byteBits).flatten

/-- The magnitudes of a pair: a 1 is high and low, a 0 low and high. -/
def pairMags (h l : Nat) (b : Bool) : List Nat := if b then [h, l] else [l, h]

/-- The magnitudes that `PRE(h, l)` and `MAN(data, h, l)` expand to. -/
def transmissionMags (h l : Nat) (data : List Byte) : List Nat :=
  [h, l, h, l, l, l, l, h, l, h, l, l, l, l, l, l] ++ ((octetBits data).map (pairMags h l)).flatten

theorem stimMags_append (ms ns : List Nat) : stimMags (ms ++ ns) = stimMags ms ++ stimMags ns := by
  simp [stimMags]

theorem stimManb_eq_stimMags (bits : List Bool) (h l : Nat) :
    stimManb bits h l = stimMags (bits.map (pairMags h l)).flatten := by
  induction bits with
  | nil => rfl
  | cons b bits ih =>
    rw [List.map_cons, List.flatten_cons, stimMags_append, ← ih]
    cases b <;> simp [stimManb, stimMags, pairMags]

/-- The stimulus is the samples of its magnitudes. -/
theorem stimulus_eq_stimMags (h l : Nat) (data : List Byte) :
    stimPre h l ++ stimMan data h l = stimMags (transmissionMags h l data) := by
  rw [transmissionMags, stimMags_append, ← stimManb_eq_stimMags]
  rfl

theorem byteBits_length (v : Byte) : (byteBits v).length = 8 := by simp [byteBits]

theorem pairMags_lengths (h l : Nat) (bits : List Bool) : ∀ xs ∈ bits.map (pairMags h l), xs.length = 2 :=
  List.forall_mem_map.2 fun b _ => by cases b <;> rfl

theorem octetBits_length (data : List Byte) : (octetBits data).length = 8 * data.length := by
  rw [octetBits, length_flatten_const (n := 8) (by simp [byteBits_length]), List.length_map]

theorem octetBits_getElem? {data : List Byte} {t : Nat} (ht : t < 8 * data.length) :
    (octetBits data)[t]? = some ((data.getD (t / 8) 0).getLsbD (7 - t % 8)) := by
  have ho : t / 8 < data.length := by omega
  have hr : t % 8 < 8 := by omega
  rw [octetBits, ← Nat.div_add_mod t 8, getElem?_flatten_const (by simp [byteBits_length]) hr]
  simp [ho, byteBits, hr, List.getD, Nat.mul_add_div]

theorem transmissionMags_length (h l : Nat) (data : List Byte) :
    (transmissionMags h l data).length = 16 + 16 * data.length := by
  rw [transmissionMags, List.length_append, length_flatten_const (pairMags_lengths h l _), List.length_map,
    octetBits_length]
  simp
  omega

/-! ### The transmission of the obligation -/

/-- The frame record that a receiver of `data` presents: zeros past a short frame. -/
def paddedFrame (data : List Byte) (len : FrameLen) : FrameRecord :=
  { octets := data ++ List.replicate (14 - data.length) 0, len := len }

theorem paddedFrame_octet (data : List Byte) (len : FrameLen) (o : Nat) :
    (paddedFrame data len).octet o = data.getD o 0 := by
  unfold FrameRecord.octet paddedFrame
  grind

theorem paddedFrame_fbit (data : List Byte) (len : FrameLen) (t : Nat) :
    (paddedFrame data len).fbit t = (data.getD (t / 8) 0).getLsbD (7 - t % 8) := by
  rw [FrameRecord.fbit, paddedFrame_octet]

/-- The transmission of `data` at the levels `h` and `l`. -/
def Transmission.ofData (c : Config) (h l : Nat) (data : List Byte) (len : FrameLen) : Transmission :=
  { c := c, h := BitVec.ofNat 8 h, l := BitVec.ofNat 8 l, f := paddedFrame data len }

/-- Sample `k` of the stimulus has the transmission's magnitude. -/
theorem transmissionMags_getElem? (c : Config) (h l : Nat) {data : List Byte} (len : FrameLen) {k : Nat}
    (hk : k < 16 + 16 * data.length) :
    (transmissionMags h l data)[k]? = some (if (Transmission.ofData c h l data len).high k then h else l) := by
  by_cases h16 : k < 16
  · rw [transmissionMags, List.getElem?_append_left (by simpa using h16), Transmission.high, if_pos h16]
    interval_cases k <;> rfl
  · obtain ⟨d, r, hr, rfl⟩ : ∃ d r, r < 2 ∧ k = 16 + (2 * d + r) := ⟨(k - 16) / 2, k % 2, by omega, by omega⟩
    rw [transmissionMags, List.getElem?_append_right (by simp), Transmission.high, if_neg h16]
    simp only [List.length_cons, List.length_nil, Nat.zero_add, Nat.reduceAdd, Nat.add_sub_cancel_left]
    rw [getElem?_flatten_const (pairMags_lengths h l _) hr, List.getElem?_map, octetBits_getElem? (by omega),
      show (2 * d + r) / 2 = d by omega, Transmission.ofData, paddedFrame_fbit]
    obtain rfl | rfl : r = 0 ∨ r = 1 := by omega
    · cases (data.getD (d / 8) 0).getLsbD (7 - d % 8) <;> simp [pairMags, show (16 + 2 * d) % 2 = 0 by omega]
    · cases (data.getD (d / 8) 0).getLsbD (7 - d % 8) <;> simp [pairMags, show (16 + (2 * d + 1)) % 2 = 1 by omega]

theorem isHighOff_iff (o : Nat) : isHighOff o = true ↔ o ∈ [0, 2, 7, 9] := by
  simp [isHighOff, or_assoc]

/-- One high and one low seed. -/
theorem isHighOff_eq_not {a b : Nat} (h : a ∈ [0, 2, 7, 9] ↔ b ∉ [0, 2, 7, 9]) : isHighOff b = !isHighOff a := by
  rw [← isHighOff_iff, ← isHighOff_iff] at h
  cases ha : isHighOff a <;> simp_all

theorem seeds_lt_of_legal {c : Config} (h : c.legal = true) : c.seedA < 16 ∧ c.seedB < 16 := by
  simp [Config.legal] at h
  omega

theorem FrameLen.bits_eq {data : List Byte} {len : FrameLen} (h : data.length = len.bits / 8) :
    len.bits = 8 * data.length := by
  cases len <;> simp [FrameLen.bits] at h ⊢ <;> omega

/-- The obligation's hypotheses make its transmission an ideal one. -/
theorem Transmission.ideal_ofData {c : Config} {h l : Nat} {data : List Byte} {len : FrameLen}
    (hlegal : c.legal = true) (hl : l < h) (hh : h ≤ 255)
    (hseeds : c.seedA ∈ [0, 2, 7, 9] ↔ c.seedB ∉ [0, 2, 7, 9]) (hdata : data.length = len.bits / 8)
    (hfirst : len = .long ↔ (data.getD 0 0).getLsbD 7 = true) (hN : c.N = 16 + 16 * data.length) :
    (Transmission.ofData c h l data len).Ideal where
  levels := by
    show BitVec.ofNat 8 l < BitVec.ofNat 8 h
    rw [BitVec.lt_def, BitVec.toNat_ofNat, BitVec.toNat_ofNat]
    omega
  seedA := (seeds_lt_of_legal hlegal).1
  seedB := (seeds_lt_of_legal hlegal).2
  seeds := isHighOff_eq_not hseeds
  octets := by
    have := len.bits_le
    simp [Transmission.ofData, paddedFrame]
    omega
  first := by
    show len = .long ↔ (paddedFrame data len).fbit 0 = true
    rw [paddedFrame_fbit]
    exact hfirst
  rest t ht := by
    have hlen : data.length ≤ t / 8 := by
      have hb : len.bits ≤ t := ht
      have := FrameLen.bits_eq hdata
      omega
    show (paddedFrame data len).fbit t = false
    rw [paddedFrame_fbit, List.getD_eq_default _ _ hlen]
    simp
  size := by
    show c.N = 16 + 2 * len.bits
    have := FrameLen.bits_eq hdata
    omega

/-- Settles O45: the buffer's samples are those of an ideal transmission, and the way of such a buffer, which every
operation but TAKE and RESET keeps and every step of the worker shortens, ends in `WAIT` with its one frame. -/
theorem anIdealTransmissionIsReceived : Obligations.AnIdealTransmissionIsReceived := by
  intro s c h l data len hinv hc hph hl hh hseeds hdata hfirst hL hbank
  rw [stimulus_eq_stimMags] at hL hbank
  rw [stimMags_length, transmissionMags_length] at hL
  have hN : c.N = 16 + 16 * data.length := by unfold Config.N; omega
  have hideal := Transmission.ideal_ofData (hinv.session c hc).legal hl hh hseeds hdata hfirst hN
  refine Transmission.finishesWith hideal hc hph fun q hq => ?_
  have hqN : q < c.N := hq
  have hm := transmissionMags_getElem? c h l len (hN ▸ hqN)
  obtain ⟨i, j, hi, hj, hmag⟩ := stimMags_pair hm (by split <;> omega)
  refine ⟨i, j, (hbank _ (by omega)).trans hi, (hbank _ (by omega)).trans hj, hmag.trans ?_⟩
  rw [Transmission.mag, level]
  split <;> rfl

end Sys2Proof.Machine

/-! ## Schedules of operation records (R42, R43)

The decoder undoes the encoder, and a step performs the schedule's first record. -/

namespace Sys2Proof

/-- The groups of a natural read back, as long as the fuel reaches its last group. -/
theorem decodeNat_encodeNatGroups {fuel n : Nat} (hn : n ≤ fuel) (rest : List Byte) :
    decodeNat (encodeNatGroups fuel n ++ rest) = .ok (n, rest) := by
  induction fuel generalizing n with
  | zero =>
    obtain rfl : n = 0 := by omega
    rfl
  | succ fuel ih =>
    rw [encodeNatGroups]
    split
    · next hlt =>
      have hb : (BitVec.ofNat 8 n).toNat = n := by rw [BitVec.toNat_ofNat]; omega
      rw [List.singleton_append, decodeNat, hb, if_pos hlt]
    · have hb : (BitVec.ofNat 8 (n % 128 + 128)).toNat = n % 128 + 128 := by rw [BitVec.toNat_ofNat]; omega
      have hval : n % 128 + 128 - 128 + 128 * (n / 128) = n := by omega
      rw [List.cons_append, decodeNat, ih (by omega), hb, if_neg (by omega)]
      simp only [show n / 128 ≠ 0 by omega, if_false, hval]

theorem decodeNat_encodeNat (n : Nat) (rest : List Byte) : decodeNat (encodeNat n ++ rest) = .ok (n, rest) :=
  decodeNat_encodeNatGroups le_rfl rest

theorem decodeReset_operands {l e a b : Nat} (he : e < 256) (ha : a < 16) (hb : b < 16) (rest : List Byte) :
    decodeReset (encodeOperands (.reset l e a b) ++ rest) = .ok (.reset l e a b, rest) := by
  have he' : (BitVec.ofNat 8 e).toNat = e := by rw [BitVec.toNat_ofNat]; omega
  have hab : (BitVec.ofNat 8 (16 * a + b)).toNat = 16 * a + b := by rw [BitVec.toNat_ofNat]; omega
  rw [encodeOperands, List.append_assoc, decodeReset, decodeNat_encodeNat]
  simp only [List.cons_append, List.nil_append, he', hab, show (16 * a + b) / 16 = a by omega,
    show (16 * a + b) % 16 = b by omega]

theorem decodeDeliver_operands (data rest : List Byte) :
    decodeDeliver (encodeOperands (.deliver data) ++ rest) = .ok (.deliver data, rest) := by
  rw [encodeOperands, List.append_assoc, decodeDeliver, decodeNat_encodeNat]
  simp

/-- No operand of an operation record is lost. -/
theorem decode_encode {i : Instr} (hi : i.wellFormed = true) (rest : List Byte) :
    decode (encode i ++ rest) = .ok (i, rest) := by
  cases i with
  | reset l e a b =>
    simp only [Instr.wellFormed, Bool.and_eq_true, decide_eq_true_eq] at hi
    obtain ⟨⟨he, ha⟩, hb⟩ := hi
    exact decodeReset_operands he ha hb rest
  | deliver data => exact decodeDeliver_operands data rest
  | cancel | take | extract | search | decode | ascan | arun | aend | emit => rfl

namespace Machine

/-- A schedule that begins with an operation record has that operation performed next, past its bytes. -/
theorem step_of_decode {s : State} {i : Instr} {rest : List Byte} (h : decode s.script = .ok (i, rest)) :
    step s = exec i { s with script := rest } := by
  unfold step
  split
  · next hs => rw [hs] at h; cases h
  · rw [stepScript, h]

/-- Settles O37: a record that decodes is the step, and the decoder undoes the encoder. -/
theorem aStepPerformsTheScheduledOperation : Obligations.AStepPerformsTheScheduledOperation := by
  intro s i rest
  exact ⟨step_of_decode, fun hi hs => step_of_decode (hs ▸ decode_encode hi rest)⟩

end Machine

end Sys2Proof

/-! ## What an operation leaves alone

The handoff's elements under the worker's operations, and the effects of SEARCH, DECODE and ARUN on the state as a
whole, which their inversion lemmas give in parts. -/

namespace Sys2Proof.Machine

/-! ### Effects -/

/-- The cells after a decoded pair: it is consumed, then the bit is written at the output position (R66). -/
def Memory.consumePair (m : Memory 9) (p out : Nat) (bit : Bool) : Memory 9 :=
  ((m.write p Cell.consumed.bits).write (p + 1) Cell.consumed.bits).write out (Cell.mkbit bit).bits

theorem Memory.read_consumePair (m : Memory 9) (p out : Nat) (bit : Bool) (k : Nat) :
    (m.consumePair p out bit).read k =
      if k = out then some (Cell.mkbit bit).bits
      else if k = p ∨ k = p + 1 then some Cell.consumed.bits else m.read k := by
  simp only [Memory.consumePair, Memory.read_write]
  grind

/-- SEARCH by its effect: no window left, no match, or a match. -/
theorem execSearch_effect {s t : State} (h : exec .search s = .next t) :
    (s.cfg = none ∧ t = s.marked .notReset) ∨
    ∃ c i, s.cfg = some c ∧ s.phase = .search i ∧
      ((c.N < i + 16 ∧ t = { s with phase := .ascan 0 }) ∨
       (i + 16 ≤ c.N ∧ t = { s with phase := .search (i + 1) }) ∨
       (i + 16 ≤ c.N ∧ ∃ a b, t = { s with
          cell := s.cell.writeList i (List.replicate 16 Cell.consumed.bits), ra := some a, rb := some b,
          start := some (i + 16), n := some 0, phase := .decode (i + 16) })) := by
  rcases execSearch_next h with h | ⟨c, i, hc, hp, ⟨hN, rfl⟩ | ⟨hN, -, rfl⟩ | ⟨hN, -, h⟩⟩
  · exact .inl h
  · exact .inr ⟨c, i, hc, hp, .inl ⟨hN, rfl⟩⟩
  · exact .inr ⟨c, i, hc, hp, .inr (.inl ⟨hN, rfl⟩)⟩
  · obtain ⟨a, b, -, -, -, -, -, rfl⟩ := searchMatch_next h
    exact .inr ⟨c, i, hc, hp, .inr (.inr ⟨hN, a, b, rfl⟩)⟩

/-- DECODE by its effect: the buffer end, the abort, or a pair consumed. The last covers the pair that decodes and the
tolerated ambiguity, which differ in the reference pair, the error counter and the trace. -/
theorem execDecode_effect {s t : State} (h : exec .decode s = .next t) :
    (s.cfg = none ∧ t = s.marked .notReset) ∨
    ∃ c p, s.cfg = some c ∧ s.phase = .decode p ∧
      ((c.N ≤ p + 1 ∧ ∃ events, t = { s with err := some 0, phase := .search p, events := events }) ∨
       (∃ st m events, s.start = some st ∧ s.n = some m ∧ st + m < c.N ∧ t = { s with
          cell := s.cell.write (st + m) Cell.invalid.bits, err := some 0, phase := .search p, events := events }) ∨
       (p + 1 < c.N ∧ ∃ st m bit a b e events, s.start = some st ∧ s.n = some m ∧ st + m < c.N ∧
          (e = s.err ∨ ∃ k, k ≤ c.E ∧ e = some k) ∧ t = { s with
            cell := s.cell.consumePair p (st + m) bit, n := some (m + 1), ra := some a, rb := some b, err := e,
            phase := .decode (p + 2), events := events })) := by
  rcases execDecode_next h with h |
    ⟨c, p, hc, hp, ⟨hN, rfl⟩ | ⟨hN, x, y, a, b, -, -, -, -, ⟨bit, -, h⟩ | ⟨-, e, he, ⟨-, h⟩ | ⟨hle, h⟩⟩⟩⟩
  · exact .inl h
  · exact .inr ⟨c, p, hc, hp, .inl ⟨hN, _, rfl⟩⟩
  · obtain ⟨st, m, hst, hm, -, hsm, rfl⟩ := decodeBit_next h
    exact .inr ⟨c, p, hc, hp, .inr (.inr ⟨hN, st, m, bit, x, y, _, _, hst, hm, hsm, .inl rfl, rfl⟩)⟩
  · obtain ⟨st, m, hst, hm, hsm, rfl⟩ := decodeAbort_next h
    exact .inr ⟨c, p, hc, hp, .inr (.inl ⟨st, m, _, hst, hm, hsm, rfl⟩)⟩
  · obtain ⟨st, m, hst, hm, -, hsm, rfl⟩ := decodeBit_next h
    exact .inr ⟨c, p, hc, hp, .inr (.inr ⟨hN, st, m, false, 0, 255, _, _, hst, hm, hsm, .inr ⟨_, hle, rfl⟩, rfl⟩)⟩

/-- ARUN by its effect: it writes the frame register, at most in one octet, the target length, the count and the
cursor. -/
theorem execArun_effect {s t : State} (h : exec .arun s = .next t) :
    (s.cfg = none ∧ t = s.marked .notReset) ∨
    ∃ c j, s.cfg = some c ∧ s.phase = .arun j ∧ runContinues c s j = .ok true ∧
      ∃ (fr : Memory 8) (len : Option FrameLen) (d : Nat), (fr = s.frame ∨ ∃ o v, o < 14 ∧ fr = s.frame.write o v) ∧
        t = { s with frame := fr, flen := len, dcnt := some (d + 1), phase := .arun (j + 1) } := by
  rcases execArun_next h with h | ⟨c, j, hc, hp, hgo, h⟩
  · exact .inl h
  · obtain ⟨x, d, u, v, -, -, hu, hv, rfl⟩ := collectBit_next h
    obtain ⟨fr, hfr, rfl⟩ : ∃ fr : Memory 8, (fr = s.frame ∨ ∃ o v, o < 14 ∧ fr = s.frame.write o v) ∧
        u = { s with frame := fr } := by
      rcases hu with ⟨-, rfl⟩ | ⟨-, hu⟩
      · exact ⟨_, .inl rfl, rfl⟩
      · obtain ⟨hd, v, -, rfl⟩ := setFbit_eq_ok.1 hu
        exact ⟨_, .inr ⟨_, _, by omega, rfl⟩, rfl⟩
    obtain ⟨len, rfl⟩ : ∃ len, v = { s with frame := fr, flen := len } := by
      rcases resolveLen_eq_ok.1 hv with ⟨-, rfl⟩ | ⟨-, _, -, rfl⟩ <;> exact ⟨_, rfl⟩
    exact .inr ⟨c, j, hc, hp, hgo, fr, len, d, hfr, rfl⟩

/-- Within a session only the second case of such an effect is left. -/
theorem effect_in_session {α : Type} {s : State} {c : Config} {Q : Prop} {P : Config → α → Prop} (hc : s.cfg = some c)
    (h : (s.cfg = none ∧ Q) ∨ ∃ c' a, s.cfg = some c' ∧ P c' a) : ∃ a, P c a := by
  rcases h with ⟨hn, -⟩ | ⟨c', a, hc', h⟩
  · simp [hc] at hn
  · obtain rfl : c = c' := by simpa [hc] using hc'
    exact ⟨a, h⟩

/-! ### The handoff's elements -/

/-- The two states hold the same configuration, banks and handoff registers. -/
structure State.SameHandoff (s t : State) : Prop where
  cfg : t.cfg = s.cfg
  bank0 : t.bank0 = s.bank0
  bank1 : t.bank1 = s.bank1
  land : t.land = s.land
  pending : t.pending = s.pending
  exitf : t.exitf = s.exitf

theorem State.SameHandoff.bank {s t : State} (h : s.SameHandoff t) (b : BankSel) : t.bank b = s.bank b :=
  State.bank_congr h.bank0 h.bank1 b

/-- Of the worker's operations TAKE alone writes an element of the handoff (10_state.md R27). -/
theorem State.SameHandoff.of_worker {i : Instr} {s t : State} (hi : i.isWorker = true) (htake : i ≠ .take)
    (h : exec i s = .next t) : s.SameHandoff t := by
  cases i with
  | reset | deliver | cancel => cases hi
  | take => exact absurd rfl htake
  | extract =>
    rcases execExtract_next h with ⟨-, rfl⟩ | ⟨_, _, -, -, ⟨-, _, _, -, -, -, -, rfl⟩ | ⟨-, rfl⟩⟩ <;> constructor <;> rfl
  | search =>
    rcases execSearch_effect h with ⟨-, rfl⟩ | ⟨_, _, -, -, ⟨-, rfl⟩ | ⟨-, rfl⟩ | ⟨-, _, _, rfl⟩⟩ <;> constructor <;> rfl
  | decode =>
    rcases execDecode_effect h with ⟨-, rfl⟩ |
      ⟨_, _, -, -, ⟨-, _, rfl⟩ | ⟨_, _, _, -, -, -, rfl⟩ | ⟨-, _, _, _, _, _, _, _, -, -, -, -, rfl⟩⟩ <;>
      constructor <;> rfl
  | ascan =>
    rcases execAscan_next h with ⟨-, rfl⟩ | ⟨_, _, -, -, ⟨-, rfl⟩ | ⟨-, _, -, ⟨-, rfl⟩ | ⟨-, rfl⟩⟩⟩ <;>
      constructor <;> rfl
  | arun =>
    rcases execArun_effect h with ⟨-, rfl⟩ | ⟨_, _, -, -, -, _, _, _, -, rfl⟩ <;> constructor <;> rfl
  | aend =>
    rcases execAend_next h with ⟨-, rfl⟩ | ⟨_, _, _, _, -, -, -, -, -, ⟨-, rfl⟩ | ⟨-, rfl⟩⟩ <;> constructor <;> rfl
  | emit =>
    rcases execEmit_next h with ⟨-, rfl⟩ | ⟨_, _, -, -, ⟨-, rfl⟩ | ⟨-, _, _, -, -, rfl⟩⟩ <;> constructor <;> rfl

end Sys2Proof.Machine

/-! ## Every step keeps the invariant (R28)

Within a session the invariant is the handoff's part and the worker's part; the environment's operations and TAKE move
the first, and the worker's other operations the second. -/

namespace Sys2Proof.Machine

/-! ### Address spaces -/

/-- A space of `size` elements in canonical form. -/
structure Memory.Space {w : Nat} (size : Nat) (m : Memory w) : Prop where
  wf : m.wf = true
  within : m.Within size

section Space

variable {w size : Nat} {m : Memory w}

theorem Memory.Space.write (h : m.Space size) {k : Nat} (hk : k < size) (x : BitVec w) : (m.write k x).Space size where
  wf := Memory.wf_write k x h.wf
  within j hj := by rw [Memory.read_write_ne _ _ (by omega), h.within j hj]

theorem Memory.Space.writeList (h : m.Space size) {k : Nat} {xs : List (BitVec w)} (hk : k + xs.length ≤ size) :
    (m.writeList k xs).Space size where
  wf := Memory.wf_writeList xs k h.wf
  within j hj := by rw [Memory.read_writeList, if_neg (by omega), h.within j hj]

theorem Memory.FullTo.writeList (h : m.FullTo size) (k : Nat) (xs : List (BitVec w)) : (m.writeList k xs).FullTo size := by
  induction xs generalizing m k with
  | nil => exact h
  | cons x xs ih => exact ih (h.write k x) (k + 1)

theorem Memory.fullTo_writeList (m : Memory w) (xs : List (BitVec w)) : (m.writeList 0 xs).FullTo xs.length :=
  fun k hk => ⟨xs[k], by rw [Memory.read_writeList, if_pos (by omega)]; simp [hk]⟩

end Space

/-- The cell array's space, in which every written index holds one of R45's cells (R28 item 5). -/
structure CellArray (c : Config) (m : Memory 9) : Prop where
  space : m.Space c.N
  no_reserved : ∀ k w, m.read k = some w → ∃ x : Cell, w = x.bits

section CellArray

variable {c : Config} {m : Memory 9}

theorem CellArray.write (h : CellArray c m) {k : Nat} (hk : k < c.N) (x : Cell) : CellArray c (m.write k x.bits) where
  space := h.space.write hk _
  no_reserved j w hw := by
    rw [Memory.read_write] at hw
    split at hw
    · exact ⟨x, (Option.some.inj hw).symm⟩
    · exact h.no_reserved j w hw

theorem CellArray.fill (h : CellArray c m) {k count : Nat} (hk : k + count ≤ c.N) (x : Cell) :
    CellArray c (m.writeList k (List.replicate count x.bits)) := by
  induction count generalizing m k with
  | zero => exact h
  | succ count ih => exact ih (h.write (by omega) x) (by omega)

theorem CellArray.consumePair (h : CellArray c m) {p out : Nat} (hp : p + 1 < c.N) (hout : out < c.N) (bit : Bool) :
    CellArray c (m.consumePair p out bit) :=
  ((h.write (by omega) _).write hp _).write hout _

/-- Where no encoding is reserved, a full array is one of cells. -/
theorem CellArray.cellsFull {s : State} (h : CellArray c s.cell) (hfull : s.cell.FullTo c.N) : CellsFull c s :=
  fun k hk => by
    obtain ⟨w, hw⟩ := hfull k hk
    obtain ⟨x, rfl⟩ := h.no_reserved k w hw
    exact ⟨x, hw⟩

end CellArray

theorem CellsFull.fullTo {c : Config} {s : State} (h : CellsFull c s) : s.cell.FullTo c.N := fun k hk =>
  let ⟨_, hx⟩ := h k hk
  ⟨_, hx⟩

theorem State.MagAt.of_read_eq {s t : State} {k : Nat} (h : s.MagAt k) (hr : t.cell.read k = s.cell.read k) :
    t.MagAt k :=
  h.imp fun _ hv => hr.trans hv

theorem State.MagAt.cellIs {s : State} {k : Nat} (h : s.MagAt k) : ∃ x, s.CellIs k x :=
  let ⟨_, hv⟩ := h
  ⟨_, hv⟩

theorem State.BitAt.of_mkbit {s : State} {k : Nat} {bit : Bool} (h : s.CellIs k (Cell.mkbit bit)) : s.BitAt k := by
  cases bit
  · exact .inl h
  · exact .inr h

theorem State.BitAt.of_read_eq {s t : State} {k : Nat} (h : s.BitAt k) (hr : t.cell.read k = s.cell.read k) :
    t.BitAt k :=
  h.imp hr.trans hr.trans

theorem Cell.eq_mkbit {x : Cell} (h : x.isBit = true) : ∃ bit, x = Cell.mkbit bit := by
  cases x with
  | zero => exact ⟨false, rfl⟩
  | one => exact ⟨true, rfl⟩
  | mag | invalid | consumed => cases h

/-- Where the run continues there is a bit to collect, below the target. -/
theorem bit_of_runContinues {c : Config} {s : State} {j d : Nat} {len : FrameLen} (h : runContinues c s j = .ok true)
    (hd : s.dcnt = some d) (hl : s.flen = some len) :
    j < c.N ∧ d < len.bits ∧ ∃ bit, s.CellIs j (Cell.mkbit bit) := by
  obtain ⟨hj, x, d', len', hx, hbit, hd', hl', hlt⟩ := runContinues_eq_true.1 h
  obtain rfl : d = d' := by simpa [hd] using hd'
  obtain rfl : len = len' := by simpa [hl] using hl'
  obtain ⟨bit, rfl⟩ := Cell.eq_mkbit hbit
  exact ⟨hj, hlt, bit, hx⟩

/-! ### The frame register -/

theorem Memory.Space.cleared {m : Memory 8} (h : m.Space 14) : (clearedFrame m).Space 14 := h.writeList (by decide)

theorem AssemblyInv.cleared (m : Memory 8) : AssemblyInv (clearedFrame m) 0 .long where
  full o ho := ⟨0, by rw [clearedFrame_read, if_pos ho]⟩
  le_len := Nat.zero_le _
  provisional _ := rfl
  rest_zero t _ ht := by simp [Memory.fbit, clearedFrame_read, show t / 8 < 14 by omega]
  resolved h := absurd h (by decide)

/-- One more bit collected, the eighth of which fixes the length (R72). -/
theorem AssemblyInv.succ {frame fr : Memory 8} {d : Nat} {len len' : FrameLen} {bit : Bool}
    (h : AssemblyInv frame d len) (hd : d < len.bits) (hfull : fr.FullTo 14)
    (hfb : ∀ t, fr.fbit t = if t = d ∧ bit = true then some true else frame.fbit t)
    (h7 : d = 7 → (len' = .long ↔ fr.fbit 0 = some true)) (hn7 : d ≠ 7 → len' = len) : AssemblyInv fr (d + 1) len' where
  full := hfull
  le_len := by
    by_cases hd7 : d = 7
    · have := len'.le_bits
      omega
    · rw [hn7 hd7]
      exact hd
  provisional hlt := by
    rw [hn7 (by omega)]
    exact h.provisional (by omega)
  rest_zero t hdt ht := by
    rw [hfb, if_neg (by omega)]
    exact h.rest_zero t (by omega) ht
  resolved hd8 := by
    by_cases hd7 : d = 7
    · exact h7 hd7
    · rw [hn7 hd7, hfb, if_neg (by omega)]
      exact h.resolved (by omega)

/-! ### The two parts of the invariant -/

/-- The invariant's part about the handoff (R13). -/
structure HandoffInv (c : Config) (s : State) : Prop where
  bank : ∀ b, (s.bank b).Space c.L
  delivered : s.pending = true → s.landBank.FullTo c.L

/-- The invariant's part about the worker's work. -/
structure WorkInv (c : Config) (s : State) : Prop where
  cell : CellArray c s.cell
  frame : s.frame.Space 14
  phase : PhaseInv c s s.phase

theorem Invariant.parts {c : Config} {s : State} (h : Invariant s) (hc : s.cfg = some c) :
    c.legal = true ∧ HandoffInv c s ∧ WorkInv c s := by
  have hs := h.session c hc
  exact ⟨hs.legal, ⟨fun b => ⟨h.bank_wf b, hs.bank_within b⟩, hs.delivered⟩,
    ⟨⟨⟨h.cell_wf, hs.cell_within⟩, hs.no_reserved⟩, ⟨h.frame_wf, hs.frame_within⟩, hs.phase⟩⟩

theorem Invariant.of_parts {c : Config} {s : State} (hc : s.cfg = some c) (hlegal : c.legal = true)
    (hh : HandoffInv c s) (hw : WorkInv c s) : Invariant s := by
  refine ⟨fun b => (hh.bank b).wf, hw.cell.space.wf, hw.frame.wf, fun c' hc' => ?_⟩
  obtain rfl : c = c' := by simpa [hc] using hc'
  exact ⟨hlegal, fun b => (hh.bank b).within, hw.cell.space.within, hw.frame.within, hw.cell.no_reserved,
    hh.delivered, hw.phase⟩

/-- The phase's part speaks of the worker's work, and in `DONE` of the exit flag. -/
theorem PhaseInv.congr {c : Config} {s t : State} (hw : s.SameWork t) (he : s.exitf = true → t.exitf = true) {p : Phase}
    (h : PhaseInv c s p) : PhaseInv c t p := by
  cases p with
  | wait => trivial
  | done => exact he h
  | extract | search | decode | ascan | arun | emit =>
    simpa only [PhaseInv, CellsFull, State.MagAt, State.BitAt, State.CellIs, hw.workBank, hw.cell, hw.start, hw.n, hw.ra,
      hw.rb, hw.err, hw.frame, hw.dcnt, hw.flen] using h

theorem WorkInv.congr {c : Config} {s t : State} (hw : s.SameWork t) (he : s.exitf = true → t.exitf = true)
    (h : WorkInv c s) : WorkInv c t where
  cell := hw.cell ▸ h.cell
  frame := hw.frame ▸ h.frame
  phase := hw.phase ▸ h.phase.congr hw he

theorem HandoffInv.congr {c : Config} {s t : State} (hh : s.SameHandoff t) (h : HandoffInv c s) : HandoffInv c t where
  bank b := hh.bank b ▸ h.bank b
  delivered hp := by
    rw [State.landBank, hh.land, hh.bank]
    exact h.delivered (hh.pending ▸ hp)

/-- The invariant does not speak of the marks, the trace, or the inputs to come. -/
theorem Invariant.congr {s t : State} (hw : s.SameWork t) (hh : s.SameHandoff t) (h : Invariant s) : Invariant t := by
  cases hc : s.cfg with
  | none =>
    exact ⟨fun b => hh.bank b ▸ h.bank_wf b, hw.cell ▸ h.cell_wf, hw.frame ▸ h.frame_wf,
      fun c hc' => by simp [hw.cfg, hc] at hc'⟩
  | some c =>
    obtain ⟨hlegal, hhand, hwork⟩ := h.parts hc
    exact .of_parts (hw.cfg.trans hc) hlegal (hhand.congr hh) (hwork.congr hw fun he => hh.exitf ▸ he)

/-- A session whose elements hold no value yet, before the worker's first step. -/
theorem Invariant.of_blank {s : State} (hlegal : ∀ c, s.cfg = some c → c.legal = true) (h0 : s.bank0 = [])
    (h1 : s.bank1 = []) (hcell : s.cell = []) (hframe : s.frame = []) (hpend : s.pending = false)
    (hphase : s.phase = .wait) : Invariant s := by
  have hbank : ∀ b, s.bank b = [] := fun b => by cases b <;> assumption
  refine ⟨fun b => by rw [hbank]; rfl, by rw [hcell]; rfl, by rw [hframe]; rfl, fun c hc => ?_⟩
  exact ⟨hlegal c hc, fun b k _ => by rw [hbank]; rfl, fun k _ => by rw [hcell]; rfl, fun k _ => by rw [hframe]; rfl,
    fun k w hw => by simp [hcell] at hw, fun hp => by simp [hpend] at hp, by rw [hphase]; trivial⟩

/-! ### The environment's operations and TAKE -/

theorem Invariant.marked {s : State} (h : Invariant s) (m : RefusalMark) : Invariant (s.marked m) :=
  h.congr (.marked s m) (by constructor <;> rfl)

theorem Invariant.reset {l e a b : Nat} {s t : State} (hlegal : Config.legal ⟨l, e, a, b⟩ = true)
    (h : exec (.reset l e a b) s = .next t) : Invariant t := by
  rcases execReset_next h with ⟨hn, -⟩ | ⟨-, rfl⟩
  · simp [hlegal] at hn
  · exact .of_blank (fun c hc => Option.some.inj hc ▸ hlegal) rfl rfl rfl rfl rfl rfl

/-- A delivery fills the landing bank and leaves the other. -/
theorem HandoffInv.deliver {c : Config} {data : List Byte} {s : State} (hl : data.length = c.L) (h : HandoffInv c s) :
    HandoffInv c (s.setBank s.land (s.landBank.writeList 0 data)).signalReady where
  bank b := by
    rw [State.signalReady_bank]
    by_cases hb : b = s.land
    · subst hb
      rw [State.bank_setBank_same]
      exact (h.bank s.land).writeList (by omega)
    · rw [State.bank_setBank_ne _ _ hb]
      exact h.bank b
  delivered _ := by
    simpa [State.landBank, hl] using Memory.fullTo_writeList s.landBank data

theorem Invariant.deliver {c : Config} {data : List Byte} {s t : State} (hc : s.cfg = some c) (hinv : Invariant s)
    (h : exec (.deliver data) s = .next t) : Invariant t := by
  have hw := State.SameWork.deliver h
  rcases execDeliver_next h with ⟨-, rfl⟩ | ⟨c', hc', ⟨-, rfl⟩ | ⟨-, -, rfl⟩ | ⟨hl, -, rfl⟩⟩
  · exact hinv.marked _
  · exact hinv.marked _
  · exact hinv.congr hw (by constructor <;> rfl)
  · obtain rfl : c = c' := by simpa [hc] using hc'
    obtain ⟨hlegal, hhand, hwork⟩ := hinv.parts hc
    exact .of_parts (by simpa using hc) hlegal (hhand.deliver hl) (hwork.congr hw (by simp))

theorem Invariant.cancel {s t : State} (hinv : Invariant s) (h : exec .cancel s = .next t) : Invariant t := by
  have hw := State.SameWork.cancel h
  rcases execCancel_next h with ⟨-, rfl⟩ | ⟨c, hc, rfl⟩
  · exact hinv.marked _
  · obtain ⟨hlegal, hhand, hwork⟩ := hinv.parts hc
    exact .of_parts hc hlegal ⟨hhand.bank, hhand.delivered⟩ (hwork.congr hw fun _ => rfl)

/-- The buffer taken is full, since an untaken delivery filled it. -/
theorem Invariant.take {s t : State} (hinv : Invariant s) (h : exec .take s = .next t) : Invariant t := by
  rcases execTake_next h with ⟨-, rfl⟩ | ⟨c, hc, hp, ⟨he, rfl⟩ | ⟨-, hpend, rfl⟩ | ⟨-, -, rfl⟩⟩
  · exact hinv.marked _
  · obtain ⟨hlegal, hhand, hwork⟩ := hinv.parts hc
    exact .of_parts hc hlegal ⟨hhand.bank, hhand.delivered⟩ ⟨hwork.cell, hwork.frame, he⟩
  · obtain ⟨hlegal, hhand, hwork⟩ := hinv.parts hc
    have hfull : (s.bank s.land.other.other).FullTo c.L := by
      simpa [State.landBank] using hhand.delivered hpend
    exact .of_parts hc hlegal ⟨hhand.bank, fun hp => by simp at hp⟩
      ⟨hwork.cell, hwork.frame, Nat.zero_le _, hfull, fun q hq => absurd hq (Nat.not_lt_zero q)⟩
  · exact hinv

/-! ### The worker's operations within a buffer -/

section Worker

variable {c : Config} {s t : State}

theorem WorkInv.extract (hc : s.cfg = some c) (hw : WorkInv c s) (h : exec .extract s = .next t) : WorkInv c t := by
  obtain ⟨k, hp, h⟩ := effect_in_session hc (execExtract_next h)
  obtain ⟨hk, hbank, hmag⟩ : PhaseInv c s (.extract k) := hp ▸ hw.phase
  rcases h with ⟨hkN, i, q, -, -, -, -, rfl⟩ | ⟨hkN, rfl⟩
  · refine ⟨hw.cell.write hkN _, hw.frame, hkN, hbank, fun j hj => ?_⟩
    by_cases hjk : j = k
    · subst hjk
      exact ⟨_, Memory.read_write_same _ _ _⟩
    · exact (hmag j (by omega)).of_read_eq (Memory.read_write_ne _ _ hjk)
  · have hall : ∀ q, q < c.N → s.MagAt q := fun q hq => hmag q (by omega)
    exact ⟨hw.cell, hw.frame, Nat.zero_le _, rfl, fun q hq => (hall q hq).cellIs, fun q _ hq => hall q hq,
      fun h0 => .inl (hall 0 h0)⟩

theorem WorkInv.search (hc : s.cfg = some c) (hw : WorkInv c s) (h : exec .search s = .next t) : WorkInv c t := by
  obtain ⟨i, hp, h⟩ := effect_in_session hc (execSearch_effect h)
  obtain ⟨hi, herr, hfull, hmag, -⟩ : PhaseInv c s (.search i) := hp ▸ hw.phase
  rcases h with ⟨-, rfl⟩ | ⟨hN, rfl⟩ | ⟨hN, a, b, rfl⟩
  · exact ⟨hw.cell, hw.frame, Nat.zero_le _, hfull⟩
  · exact ⟨hw.cell, hw.frame, by omega, herr, hfull, fun q hq => hmag q (by omega),
      fun hlt => .inl (hmag _ (Nat.lt_succ_self i) hlt)⟩
  · have hcell := hw.cell.fill hN .consumed
    have hfull' := hfull.fullTo.writeList i (List.replicate 16 Cell.consumed.bits)
    have hread : ∀ q, i + 16 ≤ q → (s.cell.writeList i (List.replicate 16 Cell.consumed.bits)).read q = s.cell.read q :=
      fun q hq => by rw [Memory.read_writeList, List.length_replicate, if_neg (by omega)]
    generalize s.cell.writeList i (List.replicate 16 Cell.consumed.bits) = m at hcell hfull' hread ⊢
    exact ⟨hcell, hw.frame, i + 16, 0, 0, a, b, rfl, rfl, herr, rfl, rfl, rfl, hN, Nat.zero_le _, hcell.cellsFull hfull',
      fun q hq hqN => (hmag q (by omega) hqN).of_read_eq (hread q hq), fun q _ _ => by omega, fun q _ _ => by omega⟩

/-- The abort leaves the failing pair, or marks its first cell where the run had not collected a bit yet. -/
theorem WorkInv.decode (hc : s.cfg = some c) (hw : WorkInv c s) (h : exec .decode s = .next t) : WorkInv c t := by
  obtain ⟨p, hp, h⟩ := effect_in_session hc (execDecode_effect h)
  obtain ⟨st, m, e, a, b, hst, hm, he, ha, hb, hcur, hpN, heE, hfull, hmag, hbits, hcons⟩ : PhaseInv c s (.decode p) :=
    hp ▸ hw.phase
  rcases h with ⟨-, events, rfl⟩ | ⟨st', m', events, hst', hm', hsm, rfl⟩ |
    ⟨hpN', st', m', bit, x, y, e', events, hst', hm', hsm, he', rfl⟩
  · exact ⟨hw.cell, hw.frame, hpN, rfl, hfull, fun q hq => hmag q (by omega), fun hN => .inl (hmag p (Nat.le_refl p) hN)⟩
  all_goals
    obtain rfl : st = st' := by simpa [hst] using hst'
    obtain rfl : m = m' := by simpa [hm] using hm'
  · have hcell := hw.cell.write hsm .invalid
    refine ⟨hcell, hw.frame, hpN, rfl, hcell.cellsFull (hfull.fullTo.write _ _), fun q hq hqN => ?_, fun hN => ?_⟩
    · exact (hmag q (by omega) hqN).of_read_eq (Memory.read_write_ne _ _ (by omega))
    · by_cases hm0 : p = st + m
      · exact .inr (hm0 ▸ Memory.read_write_same _ _ _)
      · exact .inl ((hmag p (Nat.le_refl p) hN).of_read_eq (Memory.read_write_ne _ _ hm0))
  · have hcell := hw.cell.consumePair hpN' hsm bit
    have hread := s.cell.read_consumePair p (st + m) bit
    obtain ⟨e'', rfl, heE'⟩ : ∃ k, e' = some k ∧ k ≤ c.E := by
      rcases he' with rfl | ⟨k, hk, rfl⟩
      · exact ⟨e, he, heE⟩
      · exact ⟨k, rfl, hk⟩
    refine ⟨hcell, hw.frame, st, m + 1, e'', x, y, hst, rfl, rfl, rfl, rfl, by omega, hpN', heE',
      hcell.cellsFull (((hfull.fullTo.write _ _).write _ _).write _ _), fun q hq hqN => ?_, fun q h1 h2 => ?_,
      fun q h1 h2 => ?_⟩
    · refine (hmag q (by omega) hqN).of_read_eq ((hread q).trans ?_)
      rw [if_neg (by omega), if_neg (by omega)]
    · by_cases hq : q = st + m
      · exact .of_mkbit ((hread q).trans (if_pos hq))
      · refine (hbits q h1 (by omega)).of_read_eq ((hread q).trans ?_)
        rw [if_neg hq, if_neg (by omega)]
    · refine (hread q).trans ?_
      rw [if_neg (by omega)]
      split
      · rfl
      · exact hcons q (by omega) (by omega)

theorem WorkInv.ascan (hc : s.cfg = some c) (hw : WorkInv c s) (h : exec .ascan s = .next t) : WorkInv c t := by
  obtain ⟨j, hp, h⟩ := effect_in_session hc (execAscan_next h)
  obtain ⟨hj, hfull⟩ : PhaseInv c s (.ascan j) := hp ▸ hw.phase
  rcases h with ⟨-, rfl⟩ | ⟨hjN, x, -, ⟨-, rfl⟩ | ⟨-, rfl⟩⟩
  · exact ⟨hw.cell, hw.frame, trivial⟩
  · have hframe := hw.frame.cleared
    have hasm := AssemblyInv.cleared s.frame
    generalize clearedFrame s.frame = fr at hframe hasm ⊢
    exact ⟨hw.cell, hframe, by omega, hfull, 0, .long, rfl, rfl, hasm⟩
  · exact ⟨hw.cell, hw.frame, by omega, hfull⟩

theorem WorkInv.arun (hc : s.cfg = some c) (hw : WorkInv c s) (h : exec .arun s = .next t) : WorkInv c t := by
  obtain ⟨j, hp, hgo, fr, len', d', hfr, ht⟩ := effect_in_session hc (execArun_effect h)
  obtain ⟨-, hfull, d, len, hd, hl, hasm⟩ : PhaseInv c s (.arun j) := hp ▸ hw.phase
  obtain ⟨hj, hdl, bit, hx⟩ := bit_of_runContinues hgo hd hl
  obtain ⟨fr', len'', hfull', hfb, h7, hn7, hnext⟩ :=
    collectBit_ok hd hl hj hx (Nat.lt_of_lt_of_le hdl len.bits_le) hasm.full
  rw [exec_arun_eq_collectBit hc hp hgo, hnext] at h
  obtain rfl : fr' = fr := congrArg State.frame (Host.Outcome.next.inj (h.trans (congrArg _ ht)))
  cases h
  refine ⟨hw.cell, ?_, hj, hfull, d + 1, len'', rfl, rfl, hasm.succ hdl hfull' hfb h7 hn7⟩
  rcases hfr with rfl | ⟨o, v, ho, rfl⟩
  · exact hw.frame
  · exact hw.frame.write ho v

theorem WorkInv.aend (hc : s.cfg = some c) (hw : WorkInv c s) (h : exec .aend s = .next t) : WorkInv c t := by
  rcases execAend_next h with ⟨hn, -⟩ | ⟨c', j, d, len, hc', hp, -, hd, hl, h⟩
  · simp [hc] at hn
  · obtain rfl : c = c' := by simpa [hc] using hc'
    obtain ⟨hj, hfull, d', len', hd', hl', hasm⟩ : PhaseInv c s (.arun j) := hp ▸ hw.phase
    obtain rfl : d = d' := by simpa [hd] using hd'
    obtain rfl : len = len' := by simpa [hl] using hl'
    rcases h with ⟨hdl, rfl⟩ | ⟨-, rfl⟩
    · exact ⟨hw.cell, hw.frame, hj, hfull, d, len, hd, hl, hasm, hdl⟩
    · exact ⟨hw.cell, hw.frame, by omega, hfull⟩

theorem WorkInv.emit (hc : s.cfg = some c) (hw : WorkInv c s) (h : exec .emit s = .next t) : WorkInv c t := by
  obtain ⟨j, hp, h⟩ := effect_in_session hc (execEmit_next h)
  obtain ⟨hj, hfull, -⟩ : PhaseInv c s (.emit j) := hp ▸ hw.phase
  rcases h with ⟨-, rfl⟩ | ⟨-, octets, len, -, -, rfl⟩
  · exact .congr (s := s) (by constructor <;> rfl) id hw
  · exact ⟨hw.cell, hw.frame, by omega, hfull⟩

/-- The worker's operations within a buffer keep its part of the invariant. -/
theorem WorkInv.of_worker {i : Instr} (hi : i.isWorker = true) (htake : i ≠ .take) (hc : s.cfg = some c)
    (hw : WorkInv c s) (h : exec i s = .next t) : WorkInv c t := by
  cases i with
  | reset | deliver | cancel => cases hi
  | take => exact absurd rfl htake
  | extract => exact hw.extract hc h
  | search => exact hw.search hc h
  | decode => exact hw.decode hc h
  | ascan => exact hw.ascan hc h
  | arun => exact hw.arun hc h
  | aend => exact hw.aend hc h
  | emit => exact hw.emit hc h

end Worker

/-! ### Every operation and every step -/

/-- Before the first RESET every other operation is refused (70_reset_and_hazards.md R101). -/
theorem exec_eq_marked {i : Instr} {s : State} (hc : s.cfg = none) (hi : ∀ l e a b, i ≠ .reset l e a b) :
    exec i s = .next (s.marked .notReset) := by
  cases i with
  | reset l e a b => exact absurd rfl (hi l e a b)
  | deliver | cancel | take | extract | search | decode | ascan | arun | aend | emit => exact session_none hc _

theorem Invariant.worker {c : Config} {i : Instr} {s t : State} (hinv : Invariant s) (hi : i.isWorker = true)
    (htake : i ≠ .take) (hc : s.cfg = some c) (h : exec i s = .next t) : Invariant t := by
  obtain ⟨hlegal, hhand, hwork⟩ := hinv.parts hc
  have hsame := State.SameHandoff.of_worker hi htake h
  exact .of_parts (hsame.cfg.trans hc) hlegal (hhand.congr hsame) (hwork.of_worker hi htake hc h)

theorem Invariant.exec {i : Instr} {s t : State} (hinv : Invariant s) (h : exec i s = .next t) : Invariant t := by
  by_cases hreset : ∃ l e a b, i = .reset l e a b
  · obtain ⟨l, e, a, b, rfl⟩ := hreset
    cases hlegal : Config.legal ⟨l, e, a, b⟩ with
    | true => exact .reset hlegal h
    | false =>
      rcases execReset_next h with ⟨-, rfl⟩ | ⟨ht, -⟩
      · exact hinv.marked _
      · simp [hlegal] at ht
  · cases hc : s.cfg with
    | none =>
      rw [exec_eq_marked hc fun l e a b hi => hreset ⟨l, e, a, b, hi⟩] at h
      cases h
      exact hinv.marked _
    | some c =>
      cases i with
      | reset l e a b => exact absurd ⟨l, e, a, b, rfl⟩ hreset
      | deliver data => exact hinv.deliver hc h
      | cancel => exact hinv.cancel h
      | take => exact hinv.take h
      | extract | search | decode | ascan | arun | aend | emit =>
        exact hinv.worker rfl (by simp) hc h

/-- A step performs an operation, of the worker or of the schedule past its record, or it changes no more than the
schedule and the marks. -/
theorem step_next {s t : State} (h : step s = .next t) :
    ∃ script, (∃ i, exec i { s with script := script } = .next t) ∨
      ∃ refusals, t = { s with script := script, refusals := refusals } := by
  unfold step at h
  split at h
  · obtain ⟨op, -, h⟩ := readThen_eq_next.1 h
    cases op with
    | some i => exact ⟨s.script, .inl ⟨i, h⟩⟩
    | none =>
      cases h
      exact ⟨_, .inr ⟨_, rfl⟩⟩
  · unfold stepScript at h
    split at h
    · exact ⟨_, .inl ⟨_, h⟩⟩
    · cases refuse_eq_next.1 h
      exact ⟨_, .inr ⟨_, rfl⟩⟩
    · cases h

/-- Settles O40: the step performs an operation, and every operation keeps the invariant. -/
theorem everyStepKeepsTheInvariant : Obligations.EveryStepKeepsTheInvariant := by
  intro s t hinv h
  obtain ⟨script, ⟨i, h⟩ | ⟨refusals, rfl⟩⟩ := step_next h
  · exact (hinv.congr (by constructor <;> rfl) (by constructor <;> rfl) : Invariant { s with script := script }).exec h
  · exact hinv.congr (by constructor <;> rfl) (by constructor <;> rfl)

/-- Settles O39: no element holds a value, and the worker waits with nothing pending. -/
theorem invariantHoldsAfterReset : Obligations.InvariantHoldsAfterReset :=
  ⟨.of_blank nofun rfl rfl rfl rfl rfl rfl, .of_blank (fun _ hc => Option.some.inj hc ▸ rfl) rfl rfl rfl rfl rfl rfl,
    fun _ _ _ _ _ _ hlegal h => .reset hlegal h⟩

end Sys2Proof.Machine

/-! ## Who writes what, and the order of the phases (R18, R27)

The rest of R27's table of rights, and the successors of each phase. -/

namespace Sys2Proof.Machine

/-! ### Rights of writing -/

/-- DELIVER writes the landing bank and the readiness signal. -/
theorem handoff_of_deliver {data : List Byte} {s t : State} (h : exec (.deliver data) s = .next t) :
    t.cfg = s.cfg ∧ t.bank s.land.other = s.bank s.land.other ∧ t.land = s.land ∧ t.exitf = s.exitf := by
  rcases execDeliver_next h with ⟨-, rfl⟩ | ⟨_, -, ⟨-, rfl⟩ | ⟨-, -, rfl⟩ | ⟨-, -, rfl⟩⟩
  · exact ⟨rfl, rfl, rfl, rfl⟩
  · exact ⟨rfl, rfl, rfl, rfl⟩
  · exact ⟨rfl, rfl, rfl, rfl⟩
  · simp

/-- CANCEL writes the exit flag. -/
theorem handoff_of_cancel {s t : State} (h : exec .cancel s = .next t) :
    t.cfg = s.cfg ∧ t.bank0 = s.bank0 ∧ t.bank1 = s.bank1 ∧ t.land = s.land ∧ t.pending = s.pending := by
  rcases execCancel_next h with ⟨-, rfl⟩ | ⟨_, -, rfl⟩ <;> exact ⟨rfl, rfl, rfl, rfl, rfl⟩

/-- TAKE writes no bank and not the exit flag. -/
theorem handoff_of_take {s t : State} (h : exec .take s = .next t) :
    t.cfg = s.cfg ∧ t.bank0 = s.bank0 ∧ t.bank1 = s.bank1 ∧ t.exitf = s.exitf := by
  rcases execTake_next h with ⟨-, rfl⟩ | ⟨_, -, -, ⟨-, rfl⟩ | ⟨-, -, rfl⟩ | ⟨-, -, rfl⟩⟩ <;> exact ⟨rfl, rfl, rfl, rfl⟩

/-- Settles O14: the environment's operations leave the worker's work, and each operation leaves what its part of the
handoff does not name. -/
theorem eachElementHasOnlyItsWriters : Obligations.EachElementHasOnlyItsWriters := by
  intro i s t hreset h
  have hwork : i.isWorker = false →
      t.phase = s.phase ∧ t.cell = s.cell ∧ t.start = s.start ∧ t.n = s.n ∧ t.ra = s.ra ∧ t.rb = s.rb ∧
      t.err = s.err ∧ t.frame = s.frame ∧ t.dcnt = s.dcnt ∧ t.flen = s.flen ∧ t.port = s.port := fun hi => by
    have hw := State.SameWork.of_environment hi hreset h
    exact ⟨hw.phase, hw.cell, hw.start, hw.n, hw.ra, hw.rb, hw.err, hw.frame, hw.dcnt, hw.flen, hw.port⟩
  cases i with
  | reset l e a b => exact absurd rfl (hreset l e a b)
  | deliver data =>
    obtain ⟨hcfg, hbank, hland, hexit⟩ := handoff_of_deliver h
    exact ⟨hcfg, fun hd => absurd rfl (hd data), hbank, fun _ => hland, fun _ hd => absurd rfl (hd data),
      fun _ => hexit, hwork⟩
  | cancel =>
    obtain ⟨hcfg, h0, h1, hland, hpend⟩ := handoff_of_cancel h
    exact ⟨hcfg, fun _ => ⟨h0, h1⟩, State.bank_congr h0 h1 _, fun _ => hland, fun _ _ => hpend,
      fun hc => absurd rfl hc, hwork⟩
  | take =>
    obtain ⟨hcfg, h0, h1, hexit⟩ := handoff_of_take h
    exact ⟨hcfg, fun _ => ⟨h0, h1⟩, State.bank_congr h0 h1 _, fun ht => absurd rfl ht, fun ht => absurd rfl ht,
      fun _ => hexit, hwork⟩
  | extract | search | decode | ascan | arun | aend | emit =>
    have hh := State.SameHandoff.of_worker rfl (by simp) h
    exact ⟨hh.cfg, fun _ => ⟨hh.bank0, hh.bank1⟩, hh.bank _, fun _ => hh.land, fun _ _ => hh.pending,
      fun _ => hh.exitf, hwork⟩

/-! ### Phases -/

/-- Settles O36: the cursors that each operation's effect gives. -/
theorem phasesFollowTheirOrder : Obligations.PhasesFollowTheirOrder := by
  intro i s t c hc hen h
  cases i with
  | reset | deliver | cancel => cases hen
  | take =>
    obtain ⟨hp, hwake⟩ := hen
    rw [hp]
    rcases execTake_next h with ⟨hn, -⟩ | ⟨_, -, -, ⟨-, rfl⟩ | ⟨-, -, rfl⟩ | ⟨he, hpend, -⟩⟩
    · simp [hc] at hn
    · exact .inr rfl
    · exact .inl rfl
    · simp [he, hpend] at hwake
  | extract =>
    obtain ⟨k, hp, h⟩ := effect_in_session hc (execExtract_next h)
    rw [hp]
    rcases h with ⟨-, _, _, -, -, -, -, rfl⟩ | ⟨-, rfl⟩
    · exact .inl rfl
    · exact .inr rfl
  | search =>
    obtain ⟨i, hp, h⟩ := effect_in_session hc (execSearch_effect h)
    rw [hp]
    rcases h with ⟨-, rfl⟩ | ⟨-, rfl⟩ | ⟨-, _, _, rfl⟩
    · exact .inr (.inr rfl)
    · exact .inl rfl
    · exact .inr (.inl rfl)
  | decode =>
    obtain ⟨p, hp, h⟩ := effect_in_session hc (execDecode_effect h)
    rw [hp]
    rcases h with ⟨-, _, rfl⟩ | ⟨_, _, _, -, -, -, rfl⟩ | ⟨-, _, _, _, _, _, _, _, -, -, -, -, rfl⟩
    · exact .inr rfl
    · exact .inr rfl
    · exact .inl rfl
  | ascan =>
    obtain ⟨j, hp, h⟩ := effect_in_session hc (execAscan_next h)
    rw [hp]
    rcases h with ⟨-, rfl⟩ | ⟨-, _, -, ⟨-, rfl⟩ | ⟨-, rfl⟩⟩
    · exact .inr (.inr rfl)
    · exact .inr (.inl rfl)
    · exact .inl rfl
  | arun =>
    obtain ⟨j, hp, -, _, _, _, -, rfl⟩ := effect_in_session hc (execArun_effect h)
    rw [hp]
    exact .inl rfl
  | aend =>
    rcases execAend_next h with ⟨hn, -⟩ | ⟨_, j, _, _, -, hp, -, -, -, h⟩
    · simp [hc] at hn
    · rw [hp]
      rcases h with ⟨-, rfl⟩ | ⟨-, rfl⟩
      · exact .inr (.inl rfl)
      · exact .inr (.inr rfl)
  | emit =>
    obtain ⟨_, -, haccept⟩ := hen
    obtain ⟨j, hp, h⟩ := effect_in_session hc (execEmit_next h)
    rw [hp]
    rcases h with ⟨hwait, -⟩ | ⟨-, _, _, -, -, rfl⟩
    · simp [haccept] at hwait
    · exact rfl

end Sys2Proof.Machine

/-! ## What the worker sees of the handoff (R13, R27)

The inversion lemmas' cases that the forward lemmas above leave out, and then: what a worker operation other than TAKE
does is the same whatever the banks, the readiness signal and the exit flag hold, as long as the work bank is the same. -/

namespace Sys2Proof.Machine

/-! ### Forward lemmas -/

section Forward

variable {s t : State} {c : Config}

theorem exec_search_next {i : Nat} (hc : s.cfg = some c) (hp : s.phase = .search i) (hi : i + 16 ≤ c.N)
    (hpre : pre c s i = .ok false) : exec .search s = .next { s with phase := .search (i + 1) } := by
  simp [exec, execSearch, hc, hp, Nat.not_lt.2 hi, hpre]

theorem exec_search_eq_searchMatch {i : Nat} (hc : s.cfg = some c) (hp : s.phase = .search i) (hi : i + 16 ≤ c.N)
    (hpre : pre c s i = .ok true) : exec .search s = searchMatch c i s := by
  simp [exec, execSearch, hc, hp, Nat.not_lt.2 hi, hpre]

theorem searchMatch_ok {i : Nat} {a b : Byte} (hA : i + c.seedA < c.N) (hB : i + c.seedB < c.N) (hi : i + 16 ≤ c.N)
    (ha : s.CellIs (i + c.seedA) (.mag a)) (hb : s.CellIs (i + c.seedB) (.mag b)) :
    searchMatch c i s = .next { s with
      cell := s.cell.writeList i (List.replicate 16 Cell.consumed.bits), ra := some a, rb := some b,
      start := some (i + 16), n := some 0, phase := .decode (i + 16) } := by
  have hf := fillCells_eq_ok (s := s) (x := .consumed) |>.2 ⟨hi, rfl⟩
  simp [searchMatch, preLen, ha.readVal hA, hb.readVal hB, hf]

theorem exec_decode_eq_decodeAmbig {p : Nat} {x y a b : Byte} (hc : s.cfg = some c) (hp : s.phase = .decode p)
    (hN : p + 1 < c.N) (hx : s.CellIs p (.mag x)) (hy : s.CellIs (p + 1) (.mag y)) (ha : s.ra = some a)
    (hb : s.rb = some b) (hcls : cls a b x y = .ambig) : exec .decode s = decodeAmbig c p s := by
  simp [exec, execDecode, hc, hp, Nat.not_le.2 hN, hx.readVal (c := c) (by omega), hy.readVal hN, ha, hb, hcls]

theorem decodeAmbig_abort {p st m e : Nat} (he : s.err = some e) (hE : c.E < e + 1) (hst : s.start = some st)
    (hm : s.n = some m) (hsm : st + m < c.N) : decodeAmbig c p s = .next { s with
      cell := s.cell.write (st + m) Cell.invalid.bits, err := some 0, phase := .search p,
      events := s.events ++ [.runAbort p m (e + 1)] } := by
  have hw := writeCell_eq_ok (s := s) (x := .invalid) |>.2 ⟨hsm, rfl⟩
  rw [decodeAmbig, he, readReg_some, readThen_ok, overTolerance, if_pos (by simpa using hE)]
  simp [decodeAbort, hst, hm, hw, State.record]

theorem decodeAmbig_tolerate {p st m e : Nat} (he : s.err = some e) (hE : e + 1 ≤ c.E) (hst : s.start = some st)
    (hm : s.n = some m) (hN : p + 1 < c.N) (hsm : st + m < c.N) : decodeAmbig c p s = .next { s with
      cell := ((s.cell.write p Cell.consumed.bits).write (p + 1) Cell.consumed.bits).write (st + m)
        (Cell.mkbit false).bits
      n := some (m + 1), ra := some 0, rb := some 255, err := some (e + 1), phase := .decode (p + 2),
      events := s.events ++ [.ambigTolerated p (e + 1)] } := by
  rw [decodeAmbig, he, readReg_some, readThen_ok, overTolerance, if_neg (by simpa using hE)]
  exact decodeBit_ok hst hm hN hsm

theorem exec_aend_drop {j d : Nat} {len : FrameLen} (hc : s.cfg = some c) (hp : s.phase = .arun j)
    (hgo : runContinues c s j = .ok false) (hd : s.dcnt = some d) (hl : s.flen = some len) (hdl : d < len.bits - 1) :
    exec .aend s = .next { s with phase := .ascan (j + 1), events := s.events ++ [.frameDrop j d len] } := by
  have he : enoughBits d len = false := by
    simp only [enoughBits, decide_eq_false_iff_not]
    omega
  simp [exec, execAend, endRun, hc, hp, hgo, hd, hl, he, State.record]

/-- The preamble scan reads the cells alone. -/
theorem pre_congr (h : t.cell = s.cell) (i : Nat) : pre c t i = pre c s i := by
  have hread : ∀ k, readCell c t k = readCell c s k := fun k => by rw [readCell, h, ← readCell]
  suffices ∀ offs lo hi, preScan c t i offs lo hi = preScan c s i offs lo hi from this _ _ _
  intro offs
  induction offs with
  | nil => exact fun _ _ => rfl
  | cons o offs ih => intro lo hi; simp only [preScan, hread, ih]

end Forward

/-! ### Other contents of the handoff -/

/-- The state with other banks, another readiness signal and another exit flag. -/
def State.withHandoff (s : State) (bank0 bank1 : Memory 8) (pending exitf : Bool) : State :=
  { s with bank0 := bank0, bank1 := bank1, pending := pending, exitf := exitf }

section WithHandoff

variable {s t : State} {c : Config} (b0 b1 : Memory 8) (pd ex : Bool)

theorem collectBit_withHandoff {j : Nat} (hj : j < c.N) (h : collectBit c j s = .next t) :
    collectBit c j (s.withHandoff b0 b1 pd ex) = .next (t.withHandoff b0 b1 pd ex) := by
  obtain ⟨x, d, u, v, hx, hd, hu, hv, rfl⟩ := collectBit_next h
  have hu' : (if x.isOne then setFbit (s.withHandoff b0 b1 pd ex) d else .ok (s.withHandoff b0 b1 pd ex)) =
      .ok (u.withHandoff b0 b1 pd ex) := by
    rcases hu with ⟨h1, rfl⟩ | ⟨h1, hu⟩
    · simp [h1]
    · obtain ⟨hd, w, hw, rfl⟩ := setFbit_eq_ok.1 hu
      rw [if_pos h1]
      exact setFbit_eq_ok.2 ⟨hd, w, hw, rfl⟩
  have hv' : resolveLen d (u.withHandoff b0 b1 pd ex) = .ok (v.withHandoff b0 b1 pd ex) := by
    rcases resolveLen_eq_ok.1 hv with ⟨h7, rfl⟩ | ⟨h7, o, ho, rfl⟩
    · exact resolveLen_eq_ok.2 (.inl ⟨h7, rfl⟩)
    · exact resolveLen_eq_ok.2 (.inr ⟨h7, o, ho, rfl⟩)
  have hx' : readCell c (s.withHandoff b0 b1 pd ex) j = .ok x := readCell_eq_ok.2 ⟨hj, hx⟩
  have hd' : (s.withHandoff b0 b1 pd ex).dcnt = some d := hd
  rw [collectBit, hx', readThen_ok, hd', readReg_some, readThen_ok, hu', readThen_ok, hv', readThen_ok]
  rfl

theorem decode_withHandoff (h : exec .decode s = .next t) :
    exec .decode (s.withHandoff b0 b1 pd ex) = .next (t.withHandoff b0 b1 pd ex) := by
  rcases execDecode_next h with ⟨hn, rfl⟩ |
    ⟨c, p, hc, hp, ⟨hN, rfl⟩ | ⟨hN, x, y, a, b, hx, hy, ha, hb, ⟨bit, hcls, h⟩ | ⟨hcls, e, he, ⟨hE, h⟩ | ⟨hE, h⟩⟩⟩⟩
  · exact exec_eq_marked hn (by simp)
  · exact exec_decode_end hc hp hN
  · obtain ⟨st, m, hst, hm, -, hsm, rfl⟩ := decodeBit_next h
    exact exec_decode_clear (s := s.withHandoff b0 b1 pd ex) hc hp hN hx hy ha hb hst hm hsm hcls
  · obtain ⟨st, m, hst, hm, hsm, rfl⟩ := decodeAbort_next h
    rw [exec_decode_eq_decodeAmbig (s := s.withHandoff b0 b1 pd ex) hc hp hN hx hy ha hb hcls]
    exact decodeAmbig_abort he hE hst hm hsm
  · obtain ⟨st, m, hst, hm, -, hsm, rfl⟩ := decodeBit_next h
    rw [exec_decode_eq_decodeAmbig (s := s.withHandoff b0 b1 pd ex) hc hp hN hx hy ha hb hcls]
    exact decodeAmbig_tolerate he hE hst hm hN hsm

/-- Of the handoff's contents a worker operation other than TAKE reads the work bank alone, and writes none. -/
theorem exec_withHandoff {i : Instr} (hi : i.isWorker = true) (htake : i ≠ .take)
    (hwork : (s.withHandoff b0 b1 pd ex).workBank = s.workBank) (h : exec i s = .next t) :
    exec i (s.withHandoff b0 b1 pd ex) = .next (t.withHandoff b0 b1 pd ex) := by
  cases i with
  | reset | deliver | cancel => cases hi
  | take => exact absurd rfl htake
  | extract =>
    rcases execExtract_next h with ⟨hn, rfl⟩ | ⟨c, k, hc, hp, ⟨hk, i, q, -, -, hi, hq, rfl⟩ | ⟨hk, rfl⟩⟩
    · exact exec_eq_marked hn (by simp)
    · rw [← hwork] at hi hq
      exact exec_extract_pair hc hp hk hi hq
    · exact exec_extract_end hc hp hk
  | search =>
    rcases execSearch_next h with ⟨hn, rfl⟩ | ⟨c, i, hc, hp, ⟨hN, rfl⟩ | ⟨hN, hpre, rfl⟩ | ⟨hN, hpre, h⟩⟩
    · exact exec_eq_marked hn (by simp)
    · exact exec_search_end hc hp hN
    · exact exec_search_next hc hp hN ((pre_congr rfl i).trans hpre)
    · obtain ⟨a, b, hA, hB, -, ha, hb, rfl⟩ := searchMatch_next h
      -- both sides as record updates, so that the marked window is compared unevaluated
      rw [exec_search_eq_searchMatch (s := s.withHandoff b0 b1 pd ex) hc hp hN ((pre_congr rfl i).trans hpre)]
      simpa only [State.withHandoff] using searchMatch_ok (s := s.withHandoff b0 b1 pd ex) hA hB hN ha hb
  | decode => exact decode_withHandoff b0 b1 pd ex h
  | ascan =>
    rcases execAscan_next h with ⟨hn, rfl⟩ | ⟨c, j, hc, hp, ⟨hN, rfl⟩ | ⟨hN, x, hx, ⟨hbit, rfl⟩ | ⟨hbit, rfl⟩⟩⟩
    · exact exec_eq_marked hn (by simp)
    · exact exec_ascan_end hc hp hN
    · simpa only [State.withHandoff] using exec_ascan_start (s := s.withHandoff b0 b1 pd ex) hc hp hN hx hbit
    · exact exec_ascan_skip hc hp hN hx hbit
  | arun =>
    rcases execArun_next h with ⟨hn, rfl⟩ | ⟨c, j, hc, hp, hgo, h⟩
    · exact exec_eq_marked hn (by simp)
    · obtain ⟨hj, -⟩ := runContinues_eq_true.1 hgo
      rw [exec_arun_eq_collectBit (s := s.withHandoff b0 b1 pd ex) hc hp hgo]
      exact collectBit_withHandoff b0 b1 pd ex hj h
  | aend =>
    rcases execAend_next h with ⟨hn, rfl⟩ | ⟨c, j, d, len, hc, hp, hgo, hd, hl, ⟨hdl, rfl⟩ | ⟨hdl, rfl⟩⟩
    · exact exec_eq_marked hn (by simp)
    · exact exec_aend_accept hc hp hgo hd hl hdl
    · exact exec_aend_drop hc hp hgo hd hl hdl
  | emit =>
    rcases execEmit_next h with ⟨hn, rfl⟩ | ⟨c, j, hc, hp, ⟨ha, rfl⟩ | ⟨ha, octets, len, ho, hl, rfl⟩⟩
    · exact exec_eq_marked hn (by simp)
    · exact exec_emit_wait hc hp ha
    · exact exec_emit_accept hc hp ha (presented_eq_ok.2 ⟨ho, hl⟩)

end WithHandoff

theorem State.SameHandoff.refl (s : State) : s.SameHandoff s := by constructor <;> rfl

/-- A bank replaced, as other contents of a handoff that is still the one of `s`. -/
theorem State.SameHandoff.setBank_eq {s t : State} (h : s.SameHandoff t) (b : BankSel) (m : Memory 8) :
    t.setBank b m = t.withHandoff (s.setBank b m).bank0 (s.setBank b m).bank1 s.pending s.exitf := by
  rw [State.withHandoff, ← h.pending, ← h.exitf]
  cases b
  · simp only [State.setBank, ← h.bank1]
  · simp only [State.setBank, ← h.bank0]

/-- Settles O13: the landing bank is not the work bank, and the operation keeps the handoff. -/
theorem theWorkerIsBlindToTheLandingBank : Obligations.TheWorkerIsBlindToTheLandingBank := by
  intro i s t m hi htake h
  have hs := (State.SameHandoff.refl s).setBank_eq s.land m
  have ht := (State.SameHandoff.of_worker hi htake h).setBank_eq s.land m
  rw [hs, ht]
  refine exec_withHandoff _ _ _ _ hi htake ?_ h
  rw [← hs]
  simp [State.workBank]

end Sys2Proof.Machine

/-! ## Records as bytes, backwards (R42, R43, R52)

Whatever decodes is the encoding of what it decodes to, and a reserved code decodes to nothing. -/

namespace Sys2Proof

/-- Settles O49: each operand reads back from its own bytes. -/
theorem decodeInvertsEncode : Obligations.DecodeInvertsEncode := fun _ rest hi => decode_encode hi rest

/-! ### Bytes that decode -/

/-- The bytes of a natural are its groups, whatever fuel reaches the last of them. -/
theorem eq_encodeNatGroups_of_decodeNat {bs rest : List Byte} {n fuel : Nat} (h : decodeNat bs = .ok (n, rest))
    (hn : n ≤ fuel) : bs = encodeNatGroups fuel n ++ rest := by
  induction bs generalizing n fuel with
  | nil => cases h
  | cons b bs ih =>
    have hbyte := b.isLt
    rw [decodeNat] at h
    split at h
    · next hlt =>
      cases h
      cases fuel <;> simp [encodeNatGroups, hlt]
    · split at h
      · cases h
      · next m rest' hm =>
        split at h
        · cases h
        · cases h
          obtain ⟨fuel, rfl⟩ : ∃ f, fuel = f + 1 := ⟨fuel - 1, by omega⟩
          rw [encodeNatGroups, if_neg (by omega), ih hm (fuel := fuel) (by omega),
            show (b.toNat - 128 + 128 * m) % 128 + 128 = b.toNat by omega,
            show (b.toNat - 128 + 128 * m) / 128 = m by omega]
          simp

theorem eq_encodeNat_of_decodeNat {bs rest : List Byte} {n : Nat} (h : decodeNat bs = .ok (n, rest)) :
    bs = encodeNat n ++ rest :=
  eq_encodeNatGroups_of_decodeNat h le_rfl

/-- `i` is an operation that a record can carry, and `bs` begins with its operands. -/
def Instr.OperandsOf (i : Instr) (bs rest : List Byte) : Prop :=
  i.wellFormed = true ∧ bs = encodeOperands i ++ rest

theorem operandsOf_decodeReset {bs rest : List Byte} {i : Instr} (h : decodeReset bs = .ok (i, rest)) :
    i.code = 0x0 ∧ i.OperandsOf bs rest := by
  unfold decodeReset at h
  split at h
  · cases h
  · next l e seeds rest' hl =>
    cases h
    have he := e.isLt
    have hs := seeds.isLt
    refine ⟨rfl, ?_, ?_⟩
    · simp only [Instr.wellFormed, Bool.and_eq_true, decide_eq_true_eq]
      omega
    · rw [eq_encodeNat_of_decodeNat hl, encodeOperands, Nat.div_add_mod]
      simp
  · cases h

theorem operandsOf_decodeDeliver {bs rest : List Byte} {i : Instr} (h : decodeDeliver bs = .ok (i, rest)) :
    i.code = 0x1 ∧ i.OperandsOf bs rest := by
  unfold decodeDeliver at h
  split at h
  · cases h
  · next count rest' hcount =>
    split at h
    · cases h
    · next hlen =>
      cases h
      have htake : (rest'.take count).length = count := by
        rw [List.length_take]
        omega
      refine ⟨rfl, rfl, ?_⟩
      rw [eq_encodeNat_of_decodeNat hcount, encodeOperands, htake, List.append_assoc, List.take_append_drop]

/-- A code with bytes after it decodes only to an operation of that code, with those operands. -/
theorem operandsOf_decodeCode {code : Nat} {bs rest : List Byte} {i : Instr} (h : decodeCode code bs = .ok (i, rest)) :
    i.code.toNat = code ∧ i.OperandsOf bs rest := by
  unfold decodeCode at h
  split at h
  · obtain ⟨hcode, hops⟩ := operandsOf_decodeReset h
    exact ⟨by rw [hcode]; rfl, hops⟩
  · obtain ⟨hcode, hops⟩ := operandsOf_decodeDeliver h
    exact ⟨by rw [hcode]; rfl, hops⟩
  all_goals cases h <;> exact ⟨rfl, rfl, rfl⟩

theorem wellFormed_and_eq_encode_of_decode {bytes rest : List Byte} {i : Instr} (h : decode bytes = .ok (i, rest)) :
    i.wellFormed = true ∧ bytes = encode i ++ rest := by
  cases bytes with
  | nil => cases h
  | cons b bs =>
    rw [decode] at h
    split at h
    · obtain ⟨hcode, hwf, hbs⟩ := operandsOf_decodeCode h
      have hb : i.code.setWidth 8 = b := by
        apply BitVec.eq_of_toNat_eq
        rw [BitVec.toNat_setWidth, hcode, Nat.mod_eq_of_lt b.isLt]
      exact ⟨hwf, by rw [encode, hb, hbs, List.cons_append]⟩
    · cases h

/-- Settles O50: a code byte fixes the operation, and each operand has one canonical form. -/
theorem encodeInvertsDecode : Obligations.EncodeInvertsDecode := fun _ _ _ h => wellFormed_and_eq_encode_of_decode h

/-- Settles O51: the decoder's answer to each record, computed. -/
theorem writtenOutRecordsDecode : Obligations.WrittenOutRecordsDecode :=
  ⟨rfl, rfl, rfl, rfl, rfl, rfl, rfl, rfl, rfl, rfl, rfl⟩

/-! ### Reserved codes -/

theorem decodeCode_reserved {code : Nat} (h : 0xB ≤ code) (rest : List Byte) :
    decodeCode code rest = .error (.reservedOp (BitVec.ofNat 4 code) rest) := by
  obtain ⟨k, rfl⟩ : ∃ k, code = k + 11 := ⟨code - 11, by omega⟩
  rfl

namespace Machine

/-- Settles O52: such a code byte decodes to the reserved code, which the schedule's step refuses. -/
theorem reservedCodesAreRefused : Obligations.ReservedCodesAreRefused := by
  intro s b rest hlo hhi hs
  have hdecode : decode s.script = .error (.reservedOp (b.setWidth 4) rest) := by
    rw [hs, decode, if_pos (by omega), decodeCode_reserved hlo, BitVec.ofNat_toNat]
  unfold step
  split
  · next hnil => simp [hs] at hnil
  · rw [stepScript, hdecode]
    rfl

end Machine

end Sys2Proof

/-! ## Cells, frame records, raw lines and samples as bits (R45, R50, R51, R53) -/

namespace Sys2Proof.Machine

/-! ### Cells -/

/-- The encodings are the values up to that of `CONSUMED`. -/
theorem Cell.ofBits_eq_none {w : BitVec 9} : Cell.ofBits w = none ↔ 260 ≤ w.toNat := by
  unfold Cell.ofBits
  grind

theorem bit8_eq_true {w : BitVec 9} : w.getLsbD 8 = true ↔ 256 ≤ w.toNat := by
  have hw := w.isLt
  rw [BitVec.getLsbD, Nat.testBit_eq_decide_div_mod_eq, decide_eq_true_eq]
  omega

theorem bits2to7_ne_zero {w : BitVec 9} : w.extractLsb' 2 6 ≠ 0 ↔ 4 ≤ w.toNat % 256 := by
  rw [ne_eq, ← BitVec.toNat_inj, BitVec.extractLsb'_toNat, Nat.shiftRight_eq_div_pow]
  simp
  omega

/-- Settles O53: the reserved values are those above `CONSUMED`'s, which bit 8 and the bits from 2 to 7 tell. -/
theorem cellsAreEncodedAsTabled : Obligations.CellsAreEncodedAsTabled := by
  refine ⟨fun v => BitVec.setWidth_eq_append (by decide : 8 ≤ 9), rfl, rfl, rfl, rfl, Cell.ofBits_bits, fun w => ?_⟩
  have hw := w.isLt
  rw [Cell.ofBits_eq_none, bit8_eq_true, bits2to7_ne_zero]
  omega

/-! ### The record word -/

/-- What is appended after an octet is skipped, and what is appended before it is not reached. -/
theorem FrameRecord.word_octet (f : FrameRecord) {o : Nat} (ho : o < 14) :
    f.word.extractLsb' (1 + 8 * (13 - o)) 8 = f.octet o := by
  unfold FrameRecord.word
  interval_cases o
  all_goals
    simp (disch := decide) only [BitVec.extractLsb'_append_eq_of_le, BitVec.extractLsb'_append_eq_of_add_le]
    exact BitVec.extractLsb'_eq_self

theorem FrameRecord.word_len (f : FrameRecord) : f.word.getLsbD 0 = decide (f.len = .long) := by
  unfold FrameRecord.word
  rw [BitVec.getLsbD_append]
  cases f.len <;> rfl

/-- Settles O54: the octets' slices and the length bit of the appended word. -/
theorem recordWordHoldsOctetsAndLength : Obligations.RecordWordHoldsOctetsAndLength := fun f =>
  ⟨fun _ ho => f.word_octet ho, f.word_len⟩

/-! ### The raw line -/

theorem hexDigit_range {x : Nat} (hx : x < 16) :
    (0x30 ≤ (hexDigit x).toNat ∧ (hexDigit x).toNat ≤ 0x39) ∨
      (0x41 ≤ (hexDigit x).toNat ∧ (hexDigit x).toNat ≤ 0x46) := by
  unfold hexDigit
  split <;> simp only [BitVec.toNat_ofNat] <;> omega

/-- The digits of a record's raw line. -/
def FrameRecord.hexDigits (f : FrameRecord) : List Byte :=
  ((List.range (f.len.bits / 8)).map fun o => hexPair (f.octet o)).flatten

theorem FrameRecord.hexPair_lengths (f : FrameRecord) :
    ∀ xs ∈ (List.range (f.len.bits / 8)).map fun o => hexPair (f.octet o), xs.length = 2 :=
  List.forall_mem_map.2 fun _ _ => rfl

theorem FrameRecord.hexDigits_length (f : FrameRecord) : f.hexDigits.length = f.len.bits / 4 := by
  rw [hexDigits, length_flatten_const f.hexPair_lengths, List.length_map, List.length_range]
  cases f.len <;> rfl

theorem FrameRecord.hexDigits_getElem? (f : FrameRecord) {o r : Nat} (ho : o < f.len.bits / 8) (hr : r < 2) :
    f.hexDigits[2 * o + r]? = (hexPair (f.octet o))[r]? := by
  rw [hexDigits, getElem?_flatten_const f.hexPair_lengths hr]
  simp [ho]

theorem FrameRecord.hexDigits_range (f : FrameRecord) :
    ∀ d ∈ f.hexDigits, (0x30 ≤ d.toNat ∧ d.toNat ≤ 0x39) ∨ (0x41 ≤ d.toNat ∧ d.toNat ≤ 0x46) := by
  intro d hd
  obtain ⟨xs, hxs, hd⟩ := List.mem_flatten.1 hd
  obtain ⟨o, -, rfl⟩ := List.mem_map.1 hxs
  have hv := (f.octet o).isLt
  rcases List.mem_pair.1 hd with rfl | rfl <;> exact hexDigit_range (by omega)

/-- Settles O55: the line is two digits for each octet, between its marks. -/
theorem rawLineIsUpperCaseHex : Obligations.RawLineIsUpperCaseHex :=
  ⟨by decide, fun f => ⟨f.hexDigits, rfl, f.hexDigits_length, f.hexDigits_range,
    fun _ ho => ⟨f.hexDigits_getElem? ho (by decide : 0 < 2), f.hexDigits_getElem? ho (by decide : 1 < 2)⟩⟩⟩

/-! ### Samples -/

/-- Settles O56: the magnitude, as a byte, of the pair is `m`, which a byte holds. -/
theorem stimulusPairHasItsMagnitude : Obligations.StimulusPairHasItsMagnitude := fun m hm => by
  obtain ⟨i, q, hiq, hmag⟩ := stimIQ_eq_pair hm
  refine ⟨i, q, hiq, ?_⟩
  rw [hmag, BitVec.toNat_ofNat]
  omega

end Sys2Proof.Machine

/-! ## The frame port (R43, R47, R48, R50)

EMIT alone presents a record, which the trace holds too; in an assembly that the invariant describes it is a frame. -/

namespace Sys2Proof.Machine

/-! ### What an operation presents -/

theorem presented_length {s : State} {f : FrameRecord} (h : s.presented = .ok f) : f.octets.length = 14 :=
  (readRange_eq_ok.1 (presented_eq_ok.1 h).1).1

/-- EMIT presents what the frame port shows, if it is performed. -/
theorem port_of_emit {s t : State} (h : exec .emit s = .next t) :
    (performs .emit s = false ∧ t.port = s.port) ∨
    (performs .emit s = true ∧ ∃ f, s.presented = .ok f ∧ t.port = s.port ++ [f]) := by
  rcases execEmit_next h with ⟨hn, rfl⟩ | ⟨c, j, hc, -, ⟨ha, rfl⟩ | ⟨ha, octets, len, ho, hl, rfl⟩⟩
  · exact .inl ⟨by simp [performs, hn], rfl⟩
  · exact .inl ⟨by simp [performs, hc, ha], rfl⟩
  · exact .inr ⟨by simp [performs, hc, ha], ⟨octets, len⟩, presented_eq_ok.2 ⟨ho, hl⟩, rfl⟩

/-- No other operation presents a record. -/
theorem port_of_ne_emit {i : Instr} {s t : State} (hi : i ≠ .emit) (h : exec i s = .next t) : t.port = s.port := by
  cases i with
  | reset l e a b => rcases execReset_next h with ⟨-, rfl⟩ | ⟨-, rfl⟩ <;> rfl
  | deliver | cancel => exact (State.SameWork.of_environment rfl (by simp) h).port
  | take =>
    rcases execTake_next h with ⟨-, rfl⟩ | ⟨_, -, -, ⟨-, rfl⟩ | ⟨-, -, rfl⟩ | ⟨-, -, rfl⟩⟩ <;> rfl
  | extract =>
    rcases execExtract_next h with ⟨-, rfl⟩ | ⟨_, _, -, -, ⟨-, _, _, -, -, -, -, rfl⟩ | ⟨-, rfl⟩⟩ <;> rfl
  | search =>
    rcases execSearch_effect h with ⟨-, rfl⟩ | ⟨_, _, -, -, ⟨-, rfl⟩ | ⟨-, rfl⟩ | ⟨-, _, _, rfl⟩⟩ <;> rfl
  | decode =>
    rcases execDecode_effect h with ⟨-, rfl⟩ |
      ⟨_, _, -, -, ⟨-, _, rfl⟩ | ⟨_, _, _, -, -, -, rfl⟩ | ⟨-, _, _, _, _, _, _, _, -, -, -, -, rfl⟩⟩ <;> rfl
  | ascan =>
    rcases execAscan_next h with ⟨-, rfl⟩ | ⟨_, _, -, -, ⟨-, rfl⟩ | ⟨-, _, -, ⟨-, rfl⟩ | ⟨-, rfl⟩⟩⟩ <;> rfl
  | arun =>
    rcases execArun_effect h with ⟨-, rfl⟩ | ⟨_, _, -, -, -, _, _, _, -, rfl⟩ <;> rfl
  | aend =>
    rcases execAend_next h with ⟨-, rfl⟩ | ⟨_, _, _, _, -, -, -, -, -, ⟨-, rfl⟩ | ⟨-, rfl⟩⟩ <;> rfl
  | emit => exact absurd rfl hi

/-! ### The trace -/

theorem carriedBy_of_ne_emit {i : Instr} (hi : i ≠ .emit) (s : State) : carriedBy i s = none := by
  cases i with
  | emit => exact absurd rfl hi
  | reset | deliver | cancel | take | extract | search | decode | ascan | arun | aend => rfl

/-- What one operation adds to the trace. -/
def traceStep (i : Instr) (s : State) : List TraceRecord := if performs i s then [⟨i, carriedBy i s⟩] else []

theorem traceOf_cons {i : Instr} {is : List Instr} {s t : State} (h : exec i s = .next t) :
    traceOf (i :: is) s = traceStep i s ++ traceOf is t := by
  rw [traceOf, h, traceStep]

/-- An operation presents on the port the records that it adds to the trace. -/
theorem port_of_exec {i : Instr} {s t : State} (h : exec i s = .next t) :
    t.port = s.port ++ (traceStep i s).filterMap TraceRecord.carried := by
  by_cases hi : i = .emit
  · subst hi
    rcases port_of_emit h with ⟨hp, ht⟩ | ⟨hp, f, hf, ht⟩
    · simp [ht, traceStep, hp]
    · simp [ht, traceStep, hp, carriedBy, hf, Except.toOption]
  · rw [port_of_ne_emit hi h, traceStep, carriedBy_of_ne_emit hi]
    split <;> simp

/-- The records that an operation adds to the trace are well formed. -/
theorem wellFormed_of_mem_traceStep {i : Instr} {s t : State} (hi : i.wellFormed = true) (h : exec i s = .next t)
    {r : TraceRecord} (hr : r ∈ traceStep i s) : r.wellFormed = true := by
  obtain ⟨hp, rfl⟩ : performs i s = true ∧ r = ⟨i, carriedBy i s⟩ := by simpa [traceStep] using hr
  by_cases he : i = .emit
  · subst he
    rcases port_of_emit h with ⟨hn, -⟩ | ⟨-, f, hf, -⟩
    · simp [hp] at hn
    · simp [TraceRecord.wellFormed, carriedBy, hf, Except.toOption, presented_length hf, frameOctets, hi]
  · simp [TraceRecord.wellFormed, carriedBy_of_ne_emit he, hi, he]

/-- No operand of a trace record is lost. -/
theorem decodeTraceRecord_bytes {r : TraceRecord} (hr : r.wellFormed = true) (rest : List Byte) :
    decodeTraceRecord (r.bytes ++ rest) = .ok (r, rest) := by
  obtain ⟨op, carried⟩ := r
  simp only [TraceRecord.wellFormed, Bool.and_eq_true] at hr
  obtain ⟨hop, hcarried⟩ := hr
  rw [TraceRecord.bytes, List.append_assoc, decodeTraceRecord, decode_encode hop]
  cases carried with
  | none =>
    have hne : op ≠ .emit := by simpa using hcarried
    simp [hne]
  | some f =>
    obtain ⟨rfl, hlen⟩ : op = .emit ∧ f.octets.length = frameOctets := by simpa using hcarried
    simp [decodeFrameRecord_bytes hlen]

/-- Settles O57: by induction on the operations, each of which adds to the port what it adds to the trace. -/
theorem traceRecordsCarryTheirOperands : Obligations.TraceRecordsCarryTheirOperands := by
  refine ⟨fun r rest hr => decodeTraceRecord_bytes hr rest, fun ops => ?_⟩
  induction ops with
  | nil =>
    intro s t _ h
    cases h
    simp [traceOf]
  | cons i ops ih =>
    intro s t hops h
    rw [runOps] at h
    split at h
    · next u hu =>
      obtain ⟨hwf, hport⟩ := ih u t (fun j hj => hops j (List.mem_cons_of_mem i hj)) h
      rw [traceOf_cons hu, List.filterMap_append, ← List.append_assoc, ← port_of_exec hu]
      refine ⟨fun r hr => ?_, hport⟩
      rcases List.mem_append.1 hr with hr | hr
      · exact wellFormed_of_mem_traceStep (hops i List.mem_cons_self) hu hr
      · exact hwf r hr
    · cases h
    · cases h

/-! ### The record of an assembly -/

/-- The bits of the record shown are those of the frame register. -/
theorem fbit_of_presented {s : State} {f : FrameRecord} (h : s.presented = .ok f) {t : Nat} (ht : t < 112) :
    s.frame.fbit t = some (f.fbit t) := by
  obtain ⟨hlen, hread⟩ := readRange_eq_ok.1 (presented_eq_ok.1 h).1
  have ho : t / 8 < f.octets.length := by omega
  obtain ⟨-, hoct⟩ := hread (t / 8) (by omega)
  rw [Nat.zero_add, List.getElem?_eq_getElem ho] at hoct
  rw [Memory.fbit_of_read hoct, FrameRecord.fbit, FrameRecord.octet, List.getD_eq_getElem _ _ ho]

/-- The first bit is the top bit of DF. -/
theorem FrameRecord.fbit_zero_eq_true {f : FrameRecord} : f.fbit 0 = true ↔ 16 ≤ f.df.toNat := by
  have hv := (f.octet 0).isLt
  rw [fbit, df, BitVec.extractLsb'_toNat, Nat.shiftRight_eq_div_pow, BitVec.getLsbD,
    Nat.testBit_eq_decide_div_mod_eq, decide_eq_true_eq]
  simp
  omega

/-- An octet is zero if its frame bits are. -/
theorem FrameRecord.octet_eq_zero {f : FrameRecord} {o : Nat} (h : ∀ t, 8 * o ≤ t → t < 8 * o + 8 → f.fbit t = false) :
    f.octet o = 0 := by
  apply BitVec.eq_of_getLsbD_eq
  intro i hi
  have hb := h (8 * o + (7 - i)) (by omega) (by omega)
  rw [fbit, show (8 * o + (7 - i)) / 8 = o by omega, show 7 - (8 * o + (7 - i)) % 8 = i by omega] at hb
  simpa using hb

/-- A finished assembly has its length resolved, and past a short frame's bits the register is still clear. -/
theorem AssemblyInv.presented {s : State} {f : FrameRecord} {d : Nat} (h : AssemblyInv s.frame d f.len)
    (hd : f.len.bits - 1 ≤ d) (hf : s.presented = .ok f) :
    (f.len = .long ↔ f.fbit 0 = true) ∧ (f.len = .short → ∀ o, 7 ≤ o → o < 14 → f.octet o = 0) := by
  have hbits := f.len.le_bits
  refine ⟨?_, fun hshort o h7 h14 => FrameRecord.octet_eq_zero fun t hlo hhi => ?_⟩
  · rw [h.resolved (by omega), fbit_of_presented hf (by omega), Option.some.injEq]
  · have hle : d ≤ 56 := by simpa [hshort, FrameLen.bits] using h.le_len
    have hzero := h.rest_zero t (by omega) (by omega)
    rwa [fbit_of_presented hf (by omega), Option.some.injEq] at hzero

/-- Settles O33: the record presented is the one the frame port shows at the end of an assembly. -/
theorem emittedRecordsAreFrames : Obligations.EmittedRecordsAreFrames := by
  intro s t c j f hinv hc hph h hport
  have hf : s.presented = .ok f := by
    rcases port_of_emit h with ⟨-, hport'⟩ | ⟨-, f', hf', hport'⟩
    · simp [hport'] at hport
    · obtain rfl : f' = f := by simpa [hport'] using hport
      exact hf'
  obtain ⟨-, -, d, len, -, hl, hasm, hd⟩ : PhaseInv c s (.emit j) := hph ▸ (hinv.session c hc).phase
  obtain rfl : len = f.len := by simpa [hl] using (presented_eq_ok.1 hf).2
  obtain ⟨hlong, hshort⟩ := hasm.presented hd hf
  exact ⟨presented_length hf, hlong, f.fbit_zero_eq_true, hshort⟩

end Sys2Proof.Machine

/-! ## Which operations are enabled (R42)

In a state that meets the invariant every read of an enabled worker operation has a value, so the operation is a step;
a worker operation that is not enabled waits, where it answers a next state at all. -/

namespace Sys2Proof.Machine

section Enabled

variable {c : Config} {s t : State}

/-! ### SEARCH -/

theorem preScan_ok (i : Nat) (offs : List Nat) (hcell : ∀ o ∈ offs, ∃ x, readCell c s (i + o) = .ok x) (lo hi : Nat) :
    ∃ found, preScan c s i offs lo hi = .ok found := by
  induction offs generalizing lo hi with
  | nil => exact ⟨true, rfl⟩
  | cons o offs ih =>
    obtain ⟨x, hx⟩ := hcell o List.mem_cons_self
    rw [preScan, hx]
    cases x with
    | mag v =>
      dsimp only
      split
      · exact ⟨false, rfl⟩
      · exact ih (fun o' ho' => hcell o' (List.mem_cons_of_mem o ho')) _ _
    | zero | one | invalid | consumed => exact ⟨false, rfl⟩

/-- A scan that succeeds has seen magnitudes only. -/
theorem magAt_of_preScan {i : Nat} {offs : List Nat} {lo hi : Nat} (h : preScan c s i offs lo hi = .ok true) :
    ∀ o ∈ offs, s.MagAt (i + o) := by
  induction offs generalizing lo hi with
  | nil => exact fun _ ho => nomatch ho
  | cons o offs ih =>
    rw [preScan] at h
    split at h
    · cases h
    · next v hv =>
      split at h
      · cases h
      · exact List.forall_mem_cons.2 ⟨⟨v, (readCell_eq_ok.1 hv).2⟩, ih h⟩
    all_goals cases h

theorem exec_search_ok {i : Nat} (hc : s.cfg = some c) (hlegal : c.legal = true) (hp : s.phase = .search i)
    (hinv : PhaseInv c s (.search i)) : ∃ t, exec .search s = .next t := by
  obtain ⟨-, -, hfull, -⟩ := hinv
  by_cases hN : c.N < i + 16
  · exact ⟨_, exec_search_end hc hp hN⟩
  · have hcell : ∀ o ∈ List.range preLen, ∃ x, readCell c s (i + o) = .ok x := fun o ho => by
      have ho16 : o < 16 := List.mem_range.1 ho
      have hk : i + o < c.N := by omega
      obtain ⟨x, hx⟩ := hfull _ hk
      exact ⟨x, hx.readCell hk⟩
    obtain ⟨found, hpre⟩ : ∃ found, pre c s i = .ok found := preScan_ok i _ hcell 0 255
    cases found with
    | false => exact ⟨_, exec_search_next hc hp (by omega) hpre⟩
    | true =>
      obtain ⟨hA, hB⟩ := seeds_lt_of_legal hlegal
      obtain ⟨a, ha⟩ := magAt_of_preScan hpre c.seedA (List.mem_range.2 hA)
      obtain ⟨b, hb⟩ := magAt_of_preScan hpre c.seedB (List.mem_range.2 hB)
      exact ⟨_, exec_search_match hc hp (by omega) hpre hA hB ha hb⟩

/-! ### The other operations within a buffer -/

theorem exec_extract_ok {k : Nat} (hc : s.cfg = some c) (hp : s.phase = .extract k)
    (hinv : PhaseInv c s (.extract k)) : ∃ t, exec .extract s = .next t := by
  obtain ⟨-, hbank, -⟩ := hinv
  by_cases hk : k < c.N
  · have hL : 2 * k + 1 < c.L := by
      unfold Config.N at hk
      omega
    obtain ⟨i, hi⟩ := hbank (2 * k) (by omega)
    obtain ⟨q, hq⟩ := hbank (2 * k + 1) hL
    exact ⟨_, exec_extract_pair hc hp hk hi hq⟩
  · exact ⟨_, exec_extract_end hc hp (by omega)⟩

theorem exec_decode_ok {p : Nat} (hc : s.cfg = some c) (hp : s.phase = .decode p)
    (hinv : PhaseInv c s (.decode p)) : ∃ t, exec .decode s = .next t := by
  obtain ⟨st, m, e, a, b, hst, hm, he, ha, hb, hcur, -, -, -, hmag, -⟩ := hinv
  by_cases hN : c.N ≤ p + 1
  · exact ⟨_, exec_decode_end hc hp hN⟩
  · have hpN : p + 1 < c.N := by omega
    have hsm : st + m < c.N := by omega
    obtain ⟨x, hx⟩ := hmag p (by omega) (by omega)
    obtain ⟨y, hy⟩ := hmag (p + 1) (by omega) hpN
    cases hcls : cls a b x y with
    | one => exact ⟨_, exec_decode_clear (bit := true) hc hp hpN hx hy ha hb hst hm hsm hcls⟩
    | zero => exact ⟨_, exec_decode_clear (bit := false) hc hp hpN hx hy ha hb hst hm hsm hcls⟩
    | ambig =>
      rw [exec_decode_eq_decodeAmbig hc hp hpN hx hy ha hb hcls]
      by_cases hE : c.E < e + 1
      · exact ⟨_, decodeAmbig_abort he hE hst hm hsm⟩
      · exact ⟨_, decodeAmbig_tolerate he (by omega) hst hm hpN hsm⟩

theorem exec_ascan_ok {j : Nat} (hc : s.cfg = some c) (hp : s.phase = .ascan j)
    (hinv : PhaseInv c s (.ascan j)) : ∃ t, exec .ascan s = .next t := by
  obtain ⟨-, hfull⟩ := hinv
  by_cases hj : c.N ≤ j
  · exact ⟨_, exec_ascan_end hc hp hj⟩
  · have hjN : j < c.N := by omega
    obtain ⟨x, hx⟩ := hfull j hjN
    cases hb : x.isBit with
    | true => exact ⟨_, exec_ascan_start hc hp hjN hx hb⟩
    | false => exact ⟨_, exec_ascan_skip hc hp hjN hx hb⟩

/-- The run's test reads a cell and two registers. -/
theorem runContinues_ok {j : Nat} (hinv : PhaseInv c s (.arun j)) : ∃ go, runContinues c s j = .ok go := by
  obtain ⟨-, hfull, d, len, hd, hl, -⟩ := hinv
  by_cases hj : j < c.N
  · obtain ⟨x, hx⟩ := hfull j hj
    rw [runContinues, if_pos hj, hx.readCell hj, hd, hl]
    cases hb : x.isBit with
    | true => exact ⟨decide (d < len.bits), by simp [hb]⟩
    | false => exact ⟨false, by simp [hb]⟩
  · exact ⟨false, runContinues_eq_false.2 (.inl (by omega))⟩

theorem exec_arun_ok {j : Nat} (hc : s.cfg = some c) (hp : s.phase = .arun j) (hinv : PhaseInv c s (.arun j))
    (hgo : runContinues c s j = .ok true) : ∃ t, exec .arun s = .next t := by
  obtain ⟨-, -, d, len, hd, hl, hasm⟩ := hinv
  obtain ⟨hj, hdl, bit, hx⟩ := bit_of_runContinues hgo hd hl
  obtain ⟨fr, len', -, -, -, -, hnext⟩ :=
    collectBit_ok hd hl hj hx (Nat.lt_of_lt_of_le hdl len.bits_le) hasm.full
  exact ⟨_, (exec_arun_eq_collectBit hc hp hgo).trans hnext⟩

theorem exec_aend_ok {j : Nat} (hc : s.cfg = some c) (hp : s.phase = .arun j) (hinv : PhaseInv c s (.arun j))
    (hgo : runContinues c s j = .ok false) : ∃ t, exec .aend s = .next t := by
  obtain ⟨-, -, d, len, hd, hl, -⟩ := hinv
  by_cases hdl : len.bits - 1 ≤ d
  · exact ⟨_, exec_aend_accept hc hp hgo hd hl hdl⟩
  · exact ⟨_, exec_aend_drop hc hp hgo hd hl (by omega)⟩

/-- The frame port shows the 14 octets of an assembly. -/
theorem presented_ok {len : FrameLen} (hfull : s.frame.FullTo 14) (hl : s.flen = some len) :
    ∃ f, s.presented = .ok f := by
  choose v hv using hfull
  refine ⟨⟨List.ofFn fun o : Fin 14 => v o o.isLt, len⟩, presented_eq_ok.2 ⟨readRange_eq_ok.2 ⟨by simp, ?_⟩, hl⟩⟩
  intro o ho
  refine ⟨by omega, ?_⟩
  rw [Nat.zero_add, hv o ho, List.getElem?_ofFn, dif_pos ho]

theorem exec_emit_ok {j : Nat} (hc : s.cfg = some c) (hp : s.phase = .emit j) (hinv : PhaseInv c s (.emit j))
    (ha : s.sinkAccepts = true) : ∃ t, exec .emit s = .next t := by
  obtain ⟨-, -, d, len, -, hl, hasm, -⟩ := hinv
  obtain ⟨f, hf⟩ := presented_ok hasm.full hl
  exact ⟨_, exec_emit_accept hc hp ha hf⟩

/-- TAKE in `WAIT` ends the session, takes the buffer, or waits. -/
theorem exec_take_ok (hc : s.cfg = some c) (hp : s.phase = .wait) : ∃ t, exec .take s = .next t := by
  simp only [exec, execTake, session_some hc, hp]
  split
  · exact ⟨_, rfl⟩
  · split <;> exact ⟨_, rfl⟩

/-! ### Enabled operations -/

/-- An enabled worker operation is a step. -/
theorem exec_ok_of_workerEnabled {i : Instr} (hinv : Invariant s) (hc : s.cfg = some c) (hen : workerEnabled c s i) :
    ∃ t, exec i s = .next t := by
  have hs := hinv.session c hc
  have hphase : ∀ {p}, s.phase = p → PhaseInv c s p := fun hp => hp ▸ hs.phase
  cases i with
  | reset | deliver | cancel => exact hen.elim
  | take => exact exec_take_ok hc hen.1
  | extract => obtain ⟨k, hp⟩ := hen; exact exec_extract_ok hc hp (hphase hp)
  | search => obtain ⟨i, hp⟩ := hen; exact exec_search_ok hc hs.legal hp (hphase hp)
  | decode => obtain ⟨p, hp⟩ := hen; exact exec_decode_ok hc hp (hphase hp)
  | ascan => obtain ⟨j, hp⟩ := hen; exact exec_ascan_ok hc hp (hphase hp)
  | arun => obtain ⟨j, hp, hgo⟩ := hen; exact exec_arun_ok hc hp (hphase hp) hgo
  | aend => obtain ⟨j, hp, hgo⟩ := hen; exact exec_aend_ok hc hp (hphase hp) hgo
  | emit => obtain ⟨j, hp, ha⟩ := hen; exact exec_emit_ok hc hp (hphase hp) ha

/-- An enabled worker operation is the one the worker takes. -/
theorem workerOp_of_workerEnabled {i : Instr} (hc : s.cfg = some c) (hen : workerEnabled c s i) :
    workerOp s = .ok (some i) := by
  cases i with
  | reset | deliver | cancel => exact hen.elim
  | take => exact workerOp_wait hc hen.1
  | extract | search | decode | ascan => obtain ⟨k, hp⟩ := hen; simp [workerOp, hc, hp]
  | arun | aend => obtain ⟨j, hp, hgo⟩ := hen; simp [workerOp, hc, hp, hgo]
  | emit => obtain ⟨j, hp, -⟩ := hen; simp [workerOp, hc, hp]

/-- A worker operation that answers a next state is enabled, or it is a TAKE or an EMIT that waits. -/
theorem workerEnabled_of_exec {i : Instr} (hc : s.cfg = some c) (hi : i.isWorker = true) (h : exec i s = .next t) :
    workerEnabled c s i ∨ (i = .take ∧ t = s) ∨ (i = .emit ∧ t = s.sinkAsked) := by
  cases i with
  | reset | deliver | cancel => cases hi
  | take =>
    rcases execTake_next h with ⟨hn, -⟩ | ⟨_, -, hp, ⟨he, -⟩ | ⟨-, hpend, -⟩ | ⟨-, -, rfl⟩⟩
    · simp [hc] at hn
    · exact .inl ⟨hp, .inr he⟩
    · exact .inl ⟨hp, .inl hpend⟩
    · exact .inr (.inl ⟨rfl, rfl⟩)
  | extract => obtain ⟨k, hp, -⟩ := effect_in_session hc (execExtract_next h); exact .inl ⟨k, hp⟩
  | search => obtain ⟨i, hp, -⟩ := effect_in_session hc (execSearch_next h); exact .inl ⟨i, hp⟩
  | decode => obtain ⟨p, hp, -⟩ := effect_in_session hc (execDecode_next h); exact .inl ⟨p, hp⟩
  | ascan => obtain ⟨j, hp, -⟩ := effect_in_session hc (execAscan_next h); exact .inl ⟨j, hp⟩
  | arun => obtain ⟨j, hp, hgo, -⟩ := effect_in_session hc (execArun_next h); exact .inl ⟨j, hp, hgo⟩
  | aend =>
    rcases execAend_next h with ⟨hn, -⟩ | ⟨c', j, _, _, hc', hp, hgo, -⟩
    · simp [hc] at hn
    · obtain rfl : c = c' := by simpa [hc] using hc'
      exact .inl ⟨j, hp, hgo⟩
  | emit =>
    obtain ⟨j, hp, ⟨-, rfl⟩ | ⟨ha, -⟩⟩ := effect_in_session hc (execEmit_next h)
    · exact .inr (.inr ⟨rfl, rfl⟩)
    · exact .inl ⟨j, hp, ha⟩

/-- The worker has nothing to do: it has terminated, nothing wakes it, or the sink does not accept (R42, R91, R92). -/
theorem exists_workerEnabled_iff (hinv : Invariant s) (hc : s.cfg = some c) :
    (∃ i, workerEnabled c s i) ↔
      ¬ (s.phase = .done ∨ (s.phase = .wait ∧ s.pending = false ∧ s.exitf = false) ∨
        ((∃ j, s.phase = .emit j) ∧ s.sinkAccepts = false)) := by
  constructor
  · rintro ⟨i, hen⟩ hnone
    have hop := workerOp_of_workerEnabled hc hen
    rcases hnone with hp | ⟨hp, hpend, hexit⟩ | ⟨⟨j, hp⟩, ha⟩
    · simp [workerOp, hc, hp] at hop
    · obtain rfl : .take = i := by simpa [workerOp, hc, hp] using hop
      simp [workerEnabled, hpend, hexit] at hen
    · obtain rfl : .emit = i := by simpa [workerOp, hc, hp] using hop
      simp [workerEnabled, ha] at hen
  · intro h
    cases hp : s.phase with
    | wait =>
      refine ⟨.take, hp, ?_⟩
      grind
    | extract k => exact ⟨.extract, k, hp⟩
    | search i => exact ⟨.search, i, hp⟩
    | decode p => exact ⟨.decode, p, hp⟩
    | ascan j => exact ⟨.ascan, j, hp⟩
    | arun j =>
      obtain ⟨go, hgo⟩ := runContinues_ok (hp ▸ (hinv.session c hc).phase : PhaseInv c s (.arun j))
      cases go with
      | true => exact ⟨.arun, j, hp, hgo⟩
      | false => exact ⟨.aend, j, hp, hgo⟩
    | emit j =>
      refine ⟨.emit, j, hp, ?_⟩
      grind
    | done => exact absurd (.inl hp) h

end Enabled

/-! ### The environment's operations -/

theorem exec_reset_ok (l e a b : Nat) (s : State) : ∃ t, exec (.reset l e a b) s = .next t := by
  simp only [exec, execReset, refuse]
  split <;> exact ⟨_, rfl⟩

theorem exec_deliver_ok (data : List Byte) (s : State) : ∃ t, exec (.deliver data) s = .next t := by
  simp only [exec, execDeliver, session, refuse]
  split
  · split
    · exact ⟨_, rfl⟩
    · split <;> exact ⟨_, rfl⟩
  · exact ⟨_, rfl⟩

theorem exec_cancel_ok (s : State) : ∃ t, exec .cancel s = .next t := by
  simp only [exec, execCancel, session, refuse]
  split <;> exact ⟨_, rfl⟩

/-- Settles O35: an enabled worker operation is the one its phase gives, and its reads have values by the invariant. -/
theorem operationsAreEnabledAsTabled : Obligations.OperationsAreEnabledAsTabled := by
  refine ⟨⟨fun _ _ _ _ => ⟨rfl, rfl⟩, fun _ => ⟨rfl, rfl⟩, ⟨rfl, rfl⟩, rfl, by decide⟩,
    fun s l e a b => exec_reset_ok l e a b s, ?_⟩
  intro s c hinv hc
  refine ⟨fun data => exec_deliver_ok data s, exec_cancel_ok s, fun i j hi hj => ?_,
    fun i => exec_ok_of_workerEnabled hinv hc, fun i hi hen t h => ?_, exists_workerEnabled_iff hinv hc⟩
  · have hop := workerOp_of_workerEnabled hc hi
    rw [workerOp_of_workerEnabled hc hj] at hop
    simpa using hop.symm
  · rcases workerEnabled_of_exec hc hi h with hen' | ⟨-, rfl⟩ | ⟨rfl, rfl⟩
    · exact absurd hen' hen
    · exact ⟨rfl, fun _ => rfl⟩
    · exact ⟨rfl, fun hne => absurd rfl hne⟩

end Sys2Proof.Machine

/-! ## The extraction of magnitudes (R54, R55, R56)

What `mag` is as a number, and the pass of EXTRACT over a taken buffer. -/

namespace Sys2Proof.Machine

/-! ### The magnitude (R54) -/

theorem toNat_mag (i q : Byte) :
    (mag i q).toNat = min (((i.toNat : Int) - 128).natAbs + ((q.toNat : Int) - 128).natAbs) 255 := by
  rw [mag, BitVec.toNat_ofNat, Nat.mod_eq_of_lt (by omega)]

theorem mag_comm (i q : Byte) : mag i q = mag q i := by
  rw [mag, mag, Nat.add_comm]

/-- Each distance is at most 128, and 128 at the byte 0 alone, so only the pair of zeros sums to more than 255. -/
theorem clamped_iff (i q : Byte) :
    255 < ((i.toNat : Int) - 128).natAbs + ((q.toNat : Int) - 128).natAbs ↔ i = 0 ∧ q = 0 := by
  have hi := i.isLt
  have hq := q.isLt
  have h0 : (0 : Byte).toNat = 0 := rfl
  rw [← BitVec.toNat_inj, ← BitVec.toNat_inj, h0]
  omega

/-- Settles O15: the clamp keeps the sum within a byte. -/
theorem magnitudeIsTheClampedSum : Obligations.MagnitudeIsTheClampedSum := fun i q =>
  ⟨toNat_mag i q, mag_comm i q, clamped_iff i q⟩

/-! ### One EXTRACT (R55) -/

/-- Settles O16: the two branches of EXTRACT. -/
theorem extractConvertsOnePair : Obligations.ExtractConvertsOnePair := fun _ _ _ hc hp =>
  ⟨fun _ _ hk hi hq => exec_extract_pair hc hp hk hi hq, fun hk => exec_extract_end hc hp hk.ge⟩

/-! ### The pass (R56) -/

/-- The cells below `k` hold the magnitudes of the pairs of `bytes`, pair by pair. -/
def State.HoldsMagnitudes (s : State) (bytes : List Byte) (k : Nat) : Prop :=
  ∀ j, j < k → ∃ i q, bytes[2 * j]? = some i ∧ bytes[2 * j + 1]? = some q ∧ s.CellIs j (.mag (mag i q))

/-- EXTRACT stands at pair `k` of the buffer `bytes` in the work bank, with the pairs before it converted. -/
structure Extracting (c : Config) (bytes : List Byte) (k : Nat) (s : State) : Prop where
  cfg : s.cfg = some c
  phase : s.phase = .extract k
  length : bytes.length = c.L
  bank : ∀ j, j < c.L → s.workBank.read j = bytes[j]?
  done : s.HoldsMagnitudes bytes k

section Pass

variable {c : Config} {bytes : List Byte} {k : Nat} {s : State}

/-- Writing cell `k` keeps the cells before it and adds its own pair's magnitude. -/
theorem State.HoldsMagnitudes.succ {t : State} {i q : Byte} (h : s.HoldsMagnitudes bytes k)
    (hi : bytes[2 * k]? = some i) (hq : bytes[2 * k + 1]? = some q)
    (ht : t.cell = s.cell.write k (Cell.mag (mag i q)).bits) : t.HoldsMagnitudes bytes (k + 1) := fun j hj => by
  rcases Nat.lt_succ_iff_lt_or_eq.1 hj with hlt | rfl
  · obtain ⟨x, y, hx, hy, hcell⟩ := h j hlt
    exact ⟨x, y, hx, hy, by rw [State.CellIs, ht, Memory.read_write_ne _ _ hlt.ne, hcell]⟩
  · exact ⟨i, q, hi, hq, by rw [State.CellIs, ht, Memory.read_write_same]⟩

theorem Extracting.exec_pair (h : Extracting c bytes k s) (hk : k < c.N) :
    ∃ t, exec .extract s = .next t ∧ Extracting c bytes (k + 1) t := by
  have hL : 2 * k + 1 < c.L := by
    unfold Config.N at hk
    omega
  have hlen := h.length
  have hi : bytes[2 * k]? = some bytes[2 * k] := List.getElem?_eq_getElem (by omega)
  have hq : bytes[2 * k + 1]? = some bytes[2 * k + 1] := List.getElem?_eq_getElem (by omega)
  exact ⟨_, exec_extract_pair h.cfg h.phase hk ((h.bank _ (by omega)).trans hi) ((h.bank _ hL).trans hq),
    h.cfg, rfl, h.length, h.bank, h.done.succ hi hq rfl⟩

/-- The rest of the pass: one EXTRACT for each of the `m` pairs left, and one that ends it. -/
theorem Extracting.runOps_rest {m : Nat} (h : Extracting c bytes k s) (hm : k + m = c.N) :
    ∃ t, runOps (List.replicate (m + 1) .extract) s = .next t ∧ t.phase = .search 0 ∧
      t.HoldsMagnitudes bytes c.N := by
  induction m generalizing k s with
  | zero =>
    obtain rfl : k = c.N := hm
    refine ⟨{ s with err := some 0, phase := .search 0 }, ?_, rfl, h.done⟩
    simp only [List.replicate, runOps, exec_extract_end h.cfg h.phase le_rfl]
  | succ m ih =>
    obtain ⟨u, hu, hnext⟩ := h.exec_pair (by omega)
    obtain ⟨t, hrun, ht⟩ := ih hnext (by omega)
    exact ⟨t, by rw [List.replicate_succ, runOps, hu]; exact hrun, ht⟩

end Pass

/-- Settles O17: by induction on the pairs left, the cells before the cursor holding their pairs' magnitudes. -/
theorem extractionIsElementWise : Obligations.ExtractionIsElementWise := by
  intro s c bytes hc _ hp hlen hbank
  have hstart : Extracting c bytes 0 s := ⟨hc, hp, hlen, hbank, fun j hj => absurd hj j.not_lt_zero⟩
  exact hstart.runOps_rest (Nat.zero_add c.N)

end Sys2Proof.Machine

/-! ## The preamble search (R58 to R63)

The scan of a window by its running floor and ceiling, the three ends of a SEARCH, what the entries to SEARCH do, and
the passes over a buffer without a preamble. -/

namespace Sys2Proof.Machine

/-! ### The scan (R58, R59) -/

section Scan

variable {c : Config} {s : State} {i : Nat}

/-- The low-floor after the samples `v` at the offsets `offs`. -/
def floorOver (v : Nat → Byte) (offs : List Nat) (lo : Nat) : Nat := offs.foldl (fun lo o => lowFloor o lo (v o)) lo

/-- The high-ceiling after the samples `v` at the offsets `offs`. -/
def ceilingOver (v : Nat → Byte) (offs : List Nat) (hi : Nat) : Nat :=
  offs.foldl (fun hi o => highCeiling o hi (v o)) hi

theorem le_floorOver (v : Nat → Byte) (offs : List Nat) (lo : Nat) : lo ≤ floorOver v offs lo := by
  induction offs generalizing lo with
  | nil => exact le_rfl
  | cons o offs ih =>
    have hstep : lo ≤ lowFloor o lo (v o) := by
      unfold lowFloor
      split <;> omega
    exact hstep.trans (ih _)

theorem ceilingOver_le (v : Nat → Byte) (offs : List Nat) (hi : Nat) : ceilingOver v offs hi ≤ hi := by
  induction offs generalizing hi with
  | nil => exact le_rfl
  | cons o offs ih =>
    have hstep : highCeiling o hi (v o) ≤ hi := by
      unfold highCeiling
      split <;> omega
    exact (ih _).trans hstep

/-- The early exit changes no answer: once the floor has met the ceiling, no later sample parts them. -/
theorem preScan_mags {v : Nat → Byte} {offs : List Nat} {lo hi : Nat}
    (hcells : ∀ o ∈ offs, i + o < c.N ∧ s.CellIs (i + o) (.mag (v o))) (hlt : lo < hi) :
    preScan c s i offs lo hi = .ok (decide (floorOver v offs lo < ceilingOver v offs hi)) := by
  induction offs generalizing lo hi with
  | nil => simp [preScan, floorOver, ceilingOver, hlt]
  | cons o offs ih =>
    obtain ⟨⟨hN, hcell⟩, hrest⟩ := List.forall_mem_cons.1 hcells
    rw [preScan, hcell.readCell hN]
    dsimp only
    split
    · next hexit =>
      have hmet : ceilingOver v (o :: offs) hi ≤ floorOver v (o :: offs) lo :=
        (ceilingOver_le v offs _).trans (hexit.trans (le_floorOver v offs _))
      rw [decide_eq_false hmet.not_gt]
    · next hgo => exact ih hrest (Nat.lt_of_not_le hgo)

/-- The low offsets alone raise the floor. -/
theorem floorOver_eq (v : Nat → Byte) (offs : List Nat) (lo : Nat) :
    floorOver v offs lo = (offs.filter (!isHighOff ·)).foldl (fun lo o => max lo (v o).toNat) lo := by
  rw [List.foldl_filter]
  refine congrArg (List.foldl · lo offs) (funext₂ fun lo o => ?_)
  cases ho : isHighOff o <;> simp [lowFloor, ho]

/-- The high offsets alone lower the ceiling. -/
theorem ceilingOver_eq (v : Nat → Byte) (offs : List Nat) (hi : Nat) :
    ceilingOver v offs hi = (offs.filter isHighOff).foldl (fun hi o => min hi (v o).toNat) hi := by
  simp [ceilingOver, highCeiling, List.foldl_filter]

theorem lowOffs_eq : (List.range preLen).filter (!isHighOff ·) = [1, 3, 4, 5, 6, 8, 10, 11, 12, 13, 14, 15] := by decide

theorem highOffs_eq : (List.range preLen).filter isHighOff = [0, 2, 7, 9] := by decide

theorem floorOver_window (v : Nat → Byte) : floorOver v (List.range preLen) 0 =
    max (v 1).toNat (max (v 3).toNat (max (v 4).toNat (max (v 5).toNat (max (v 6).toNat (max (v 8).toNat
      (max (v 10).toNat (max (v 11).toNat (max (v 12).toNat (max (v 13).toNat
        (max (v 14).toNat (v 15).toNat)))))))))) := by
  simp only [floorOver_eq, lowOffs_eq, List.foldl_cons, List.foldl_nil, Nat.zero_max, max_assoc]

theorem ceilingOver_window (v : Nat → Byte) : ceilingOver v (List.range preLen) 255 =
    min (v 0).toNat (min (v 2).toNat (min (v 7).toNat (v 9).toNat)) := by
  have hbyte : min 255 (v 0).toNat = (v 0).toNat := Nat.min_eq_right (by omega)
  simp only [ceilingOver_eq, highOffs_eq, List.foldl_cons, List.foldl_nil, hbyte, min_assoc]

/-- A match has seen magnitudes in the whole window. -/
theorem magAt_of_pre (h : pre c s i = .ok true) {o : Nat} (ho : o < 16) : s.MagAt (i + o) :=
  magAt_of_preScan h o (List.mem_range.2 ho)

end Scan

/-- Settles O18: on magnitudes the early exit changes no answer, and on a readable window the scan answers, but never
with a match over a cell that is no magnitude. -/
theorem preambleScanIsMinHighAboveMaxLow : Obligations.PreambleScanIsMinHighAboveMaxLow := by
  refine ⟨fun c s i v hcells => ?_, fun c s i hcells ⟨o, ho, hnomag⟩ => ?_⟩
  · have hwindow : ∀ o ∈ List.range preLen, i + o < c.N ∧ s.CellIs (i + o) (.mag (v o)) :=
      fun o ho => hcells o (List.mem_range.1 ho)
    rw [pre, preScan_mags hwindow (by decide), floorOver_window, ceilingOver_window]
  · obtain ⟨found, hpre⟩ : ∃ found, pre c s i = .ok found := preScan_ok i _ (fun o ho => by
      obtain ⟨hN, x, hx⟩ := hcells o (List.mem_range.1 ho)
      exact ⟨x, hx.readCell hN⟩) 0 255
    cases found with
    | false => exact hpre
    | true => exact absurd (magAt_of_pre hpre ho) hnomag

/-! ### One SEARCH (R61, R62) -/

/-- What a fill leaves: its value inside its range, and everything else as before. -/
theorem Memory.read_fill {w : Nat} (m : Memory w) (k count j : Nat) (x : BitVec w) :
    (m.writeList k (List.replicate count x)).read j = if k ≤ j ∧ j < k + count then some x else m.read j := by
  rw [Memory.read_writeList, List.length_replicate]
  split
  · exact List.getElem?_replicate_of_lt (by omega)
  · rfl

/-- Settles O19: a match has seen magnitudes at the seed offsets, so both seeds have a value. -/
theorem searchEndsMovesOnOrMatches : Obligations.SearchEndsMovesOnOrMatches := by
  intro s c i hc hp
  refine ⟨exec_search_end hc hp, exec_search_next hc hp, fun hi hpre hA hB => ?_⟩
  have hA16 : c.seedA < 16 := by omega
  have hB16 : c.seedB < 16 := by omega
  obtain ⟨a, ha⟩ := magAt_of_pre hpre hA16
  obtain ⟨b, hb⟩ := magAt_of_pre hpre hB16
  exact ⟨a, b, _, ha, hb, fun k => Memory.read_fill s.cell i 16 k _, exec_search_match hc hp hi hpre hA16 hB16 ha hb⟩

/-! ### Entries to SEARCH (R60) -/

/-- An operation that answers SEARCH was in SEARCH already and leaves the error counter, or it ends the extraction, or
it ends a decode run at its own cursor. -/
theorem search_entered_from {i : Instr} {s t : State} {k : Nat} (h : exec i s = .next t) (ht : t.phase = .search k) :
    (∃ j, s.phase = .search j ∧ t.err = s.err) ∨
    (t.err = some 0 ∧ ∃ c q, s.cfg = some c ∧ s.phase = .extract q ∧ c.N ≤ q ∧ k = 0) ∨
    (t.err = some 0 ∧ s.phase = .decode k) := by
  cases i with
  | reset l e a b =>
    rcases execReset_next h with ⟨-, rfl⟩ | ⟨-, rfl⟩
    · exact .inl ⟨k, ht, rfl⟩
    · cases ht
  | deliver | cancel =>
    have hw := State.SameWork.of_environment rfl (by simp) h
    exact .inl ⟨k, hw.phase ▸ ht, hw.err⟩
  | take =>
    rcases execTake_next h with ⟨-, rfl⟩ | ⟨_, -, -, ⟨-, rfl⟩ | ⟨-, -, rfl⟩ | ⟨-, -, rfl⟩⟩
    · exact .inl ⟨k, ht, rfl⟩
    · cases ht
    · cases ht
    · exact .inl ⟨k, ht, rfl⟩
  | extract =>
    rcases execExtract_next h with ⟨-, rfl⟩ | ⟨c, q, hc, hp, ⟨-, _, _, -, -, -, -, rfl⟩ | ⟨hq, rfl⟩⟩
    · exact .inl ⟨k, ht, rfl⟩
    · cases ht
    · cases ht
      exact .inr (.inl ⟨rfl, c, q, hc, hp, hq, rfl⟩)
  | search =>
    rcases execSearch_effect h with ⟨-, rfl⟩ | ⟨_, j, -, hp, ⟨-, rfl⟩ | ⟨-, rfl⟩ | ⟨-, _, _, rfl⟩⟩
    · exact .inl ⟨k, ht, rfl⟩
    · cases ht
    · exact .inl ⟨j, hp, rfl⟩
    · cases ht
  | decode =>
    rcases execDecode_effect h with ⟨-, rfl⟩ |
      ⟨_, p, -, hp, ⟨-, _, rfl⟩ | ⟨_, _, _, -, -, -, rfl⟩ | ⟨-, _, _, _, _, _, _, _, -, -, -, -, rfl⟩⟩
    · exact .inl ⟨k, ht, rfl⟩
    · cases ht
      exact .inr (.inr ⟨rfl, hp⟩)
    · cases ht
      exact .inr (.inr ⟨rfl, hp⟩)
    · cases ht
  | ascan =>
    rcases execAscan_next h with ⟨-, rfl⟩ | ⟨_, _, -, -, ⟨-, rfl⟩ | ⟨-, _, -, ⟨-, rfl⟩ | ⟨-, rfl⟩⟩⟩
    · exact .inl ⟨k, ht, rfl⟩
    all_goals cases ht
  | arun =>
    rcases execArun_effect h with ⟨-, rfl⟩ | ⟨_, _, -, -, -, _, _, _, -, rfl⟩
    · exact .inl ⟨k, ht, rfl⟩
    · cases ht
  | aend =>
    rcases execAend_next h with ⟨-, rfl⟩ | ⟨_, _, _, _, -, -, -, -, -, ⟨-, rfl⟩ | ⟨-, rfl⟩⟩
    · exact .inl ⟨k, ht, rfl⟩
    all_goals cases ht
  | emit =>
    rcases execEmit_next h with ⟨-, rfl⟩ | ⟨_, j, -, hp, ⟨-, rfl⟩ | ⟨-, _, _, -, -, rfl⟩⟩
    · exact .inl ⟨k, ht, rfl⟩
    · exact .inl ⟨k, ht, rfl⟩
    · cases ht

/-- Settles O20: by the three ways to answer SEARCH. -/
theorem enteringSearchClearsTheErrorCounter : Obligations.EnteringSearchClearsTheErrorCounter := by
  intro i s t k h ht
  rcases search_entered_from h ht with ⟨j, hp, herr⟩ | ⟨herr, c, q, hc, hp, hq, hk⟩ | ⟨herr, hp⟩
  · exact ⟨fun hne => absurd hp (hne j), fun _ => herr⟩
  · exact ⟨fun _ => ⟨herr, .inl ⟨c, q, hc, hp, hq, hk⟩⟩, fun ⟨j, hj⟩ => by simp [hp] at hj⟩
  · exact ⟨fun _ => ⟨herr, .inr hp⟩, fun ⟨j, hj⟩ => by simp [hp] at hj⟩

/-! ### A buffer without a preamble (R63) -/

section Passes

variable {c : Config} {s : State}

theorem runOps_append {is js : List Instr} {s t : State} (h : runOps is s = .next t) :
    runOps (is ++ js) s = runOps js t := by
  induction is generalizing s with
  | nil => cases h; rfl
  | cons i is ih =>
    rw [runOps] at h
    split at h
    · next u hu => rw [List.cons_append, runOps, hu]; exact ih h
    all_goals cases h

theorem runOps_singleton (i : Instr) (s : State) : runOps [i] s = exec i s := by
  rw [runOps]
  cases exec i s <;> rfl

/-- A pass: one operation again and again, whose `k`-th run leads from `f k` to `f (k + 1)`. -/
theorem runOps_replicate {i : Instr} {f : Nat → State} {m : Nat}
    (h : ∀ k, k < m → exec i (f k) = .next (f (k + 1))) : runOps (List.replicate m i) (f 0) = .next (f m) := by
  induction m with
  | zero => rfl
  | succ m ih =>
    rw [List.replicate_succ', runOps_append (ih fun k hk => h k (by omega)), runOps_singleton, h m (by omega)]

theorem runOps_search_pass (hc : s.cfg = some c) (hpre : ∀ i, i + 16 ≤ c.N → pre c s i = .ok false) {k : Nat}
    (hk : k + 15 ≤ c.N) :
    runOps (List.replicate k .search) { s with phase := .search 0 } = .next { s with phase := .search k } :=
  runOps_replicate (f := fun i => { s with phase := .search i }) fun i hi =>
    exec_search_next hc rfl (by omega) ((pre_congr rfl i).trans (hpre i (by omega)))

theorem runOps_ascan_pass (hc : s.cfg = some c) (hmag : ∀ k, k < c.N → s.MagAt k) :
    runOps (List.replicate c.N .ascan) { s with phase := .ascan 0 } = .next { s with phase := .ascan c.N } :=
  runOps_replicate (f := fun j => { s with phase := .ascan j }) fun j hj => by
    obtain ⟨v, hv⟩ := hmag j hj
    exact exec_ascan_skip hc rfl hj hv rfl

end Passes

/-- Settles O21: the two passes, each followed by the operation that ends it. -/
theorem noPreambleGivesNoFrame : Obligations.NoPreambleGivesNoFrame := by
  intro s c hc hN hp hmag hpre
  have hstart : { s with phase := .search 0 } = s := by rw [← hp]
  have hsearch : ∀ k, k + 15 ≤ c.N → runOps (List.replicate k .search) s = .next { s with phase := .search k } :=
    fun k hk => hstart ▸ runOps_search_pass hc hpre hk
  have hsearchEnd : runOps (List.replicate (c.N - 14) .search) s = .next { s with phase := .ascan 0 } := by
    rw [show c.N - 14 = c.N - 15 + 1 by omega, List.replicate_succ', runOps_append (hsearch (c.N - 15) (by omega)),
      runOps_singleton]
    exact exec_search_end hc rfl (by omega)
  have hascanEnd : runOps (List.replicate (c.N + 1) .ascan) { s with phase := .ascan 0 } =
      .next { s with phase := .wait } := by
    rw [List.replicate_succ', runOps_append (runOps_ascan_pass hc hmag), runOps_singleton]
    exact exec_ascan_end hc rfl le_rfl
  exact ⟨fun k hk => hsearch k (by omega), hsearchEnd, (runOps_append hsearchEnd).trans hascanEnd⟩

end Sys2Proof.Machine

/-! ## The Manchester decoder (R64 to R70)

The classifier by its table, one DECODE by its four outcomes, and the runs: what the state holds once `k` pairs are
decoded. -/

namespace Sys2Proof.Machine

/-! ### The classifier (R64, R65) -/

section Classifier

variable {a b c d : Byte}

/-- The rows of ONE, told apart by which byte of the reference pair is the high one. -/
theorem cls_eq_one_iff : cls a b c d = .one ↔
    (c > d ∧ a > b ∧ c > b ∧ d < a) ∨ (c > d ∧ ¬ a > b ∧ c > a ∧ d < b) := by
  by_cases hbc : c > d <;> by_cases hbp : a > b <;> grind [cls]

/-- The rows of ZERO, likewise. -/
theorem cls_eq_zero_iff : cls a b c d = .zero ↔
    (¬ c > d ∧ a > b ∧ c < a ∧ d > b) ∨ (¬ c > d ∧ ¬ a > b ∧ c < b ∧ d > a) := by
  by_cases hbc : c > d <;> by_cases hbp : a > b <;> grind [cls]

theorem cls_eq_ambig_iff : cls a b c d = .ambig ↔ cls a b c d ≠ .one ∧ cls a b c d ≠ .zero := by
  cases cls a b c d <;> simp

/-- An unambiguous answer is the order of the current pair (R65 item 1). -/
theorem cls_eq_of_ne_ambig (h : cls a b c d ≠ .ambig) : cls a b c d = if c > d then .one else .zero := by
  cases hcls : cls a b c d with
  | one =>
    rw [cls_eq_one_iff] at hcls
    rw [if_pos (by tauto)]
  | zero =>
    rw [cls_eq_zero_iff] at hcls
    rw [if_neg (by tauto)]
  | ambig => exact absurd hcls h

/-- The reference pair of a tolerated ambiguity leaves only the flat pairs at the two ends ambiguous (R65 item 3). -/
theorem cls_zero_max_eq_ambig_iff : cls 0 255 c d = .ambig ↔ (c = 0 ∧ d = 0) ∨ (c = 255 ∧ d = 255) := by
  rw [cls_eq_ambig_iff, ne_eq, ne_eq, cls_eq_one_iff, cls_eq_zero_iff]
  bv_omega

/-- A flat pair is never ONE, and ZERO strictly inside the reference's range (R65 item 4). -/
theorem cls_flat_pair : cls a b c c = if (a < c ∧ c < b) ∨ (b < c ∧ c < a) then .zero else .ambig := by
  split
  · rw [cls_eq_zero_iff]
    grind
  · rw [cls_eq_ambig_iff, ne_eq, ne_eq, cls_eq_one_iff, cls_eq_zero_iff]
    grind

/-- After a flat reference the pair has to cross it (R65 item 5). -/
theorem cls_flat_reference :
    cls a a c d = if d < a ∧ a < c then .one else if c < a ∧ a < d then .zero else .ambig := by
  split
  · rw [cls_eq_one_iff]
    grind
  · split
    · rw [cls_eq_zero_iff]
      grind
    · rw [cls_eq_ambig_iff, ne_eq, ne_eq, cls_eq_one_iff, cls_eq_zero_iff]
      grind

end Classifier

theorem level_not (h l : Byte) (b : Bool) : level h l (!b) = if b then l else h := by cases b <;> rfl

/-- Settles O22: the table's rows. -/
theorem classifierFollowsItsTable : Obligations.ClassifierFollowsItsTable := fun _ _ _ _ =>
  ⟨cls_eq_one_iff, cls_eq_zero_iff⟩

/-- Settles O23: a lemma per item; after `(0, 255)` every pair but the two ambiguous ones answers its order. -/
theorem classifierProperties : Obligations.ClassifierProperties := by
  refine ⟨fun _ _ _ _ => cls_eq_of_ne_ambig, fun h l prev cur hl => ?_, fun c d => ?_, fun _ _ _ => cls_flat_pair,
    fun _ _ _ => cls_flat_reference⟩
  · have hcls := cls_level hl prev cur
    rwa [level_not, level_not] at hcls
  · have horder (h : ¬ ((c = 0 ∧ d = 0) ∨ (c = 255 ∧ d = 255))) : cls 0 255 c d = if c > d then .one else .zero :=
      cls_eq_of_ne_ambig (mt cls_zero_max_eq_ambig_iff.1 h)
    refine ⟨fun hgt => ?_, fun hlt => ?_, fun heq h0 h255 => ?_, cls_zero_max_eq_ambig_iff⟩
    · rw [horder (by bv_omega), if_pos hgt]
    · rw [horder (by bv_omega), if_neg (by bv_omega)]
    · rw [horder (by bv_omega), if_neg (by bv_omega)]

/-! ### One DECODE (R66, R67) -/

section Decode

variable {s : State} {c : Config} {p st m e : Nat} {x y a b : Byte} (hc : s.cfg = some c) (hp : s.phase = .decode p)
  (hN : p + 1 < c.N) (hx : s.CellIs p (.mag x)) (hy : s.CellIs (p + 1) (.mag y)) (ha : s.ra = some a)
  (hb : s.rb = some b) (hst : s.start = some st) (hm : s.n = some m) (hsm : st + m < c.N)
  (hcls : cls a b x y = .ambig) (he : s.err = some e)

include hc hp hN hx hy ha hb hst hm hsm hcls he

/-- A tolerated ambiguity: the error counter, the reference pair `(0, 255)` and the bit 0. -/
theorem exec_decode_tolerate (hE : e + 1 ≤ c.E) : exec .decode s = .next { s with
      cell := s.cell.consumePair p (st + m) false, ra := some 0, rb := some 255, err := some (e + 1), n := some (m + 1)
      phase := .decode (p + 2), events := s.events ++ [.ambigTolerated p (e + 1)] } :=
  (exec_decode_eq_decodeAmbig hc hp hN hx hy ha hb hcls).trans (decodeAmbig_tolerate he hE hst hm hN hsm)

/-- The ambiguity beyond the tolerance: the output position is marked and the search takes over at the pair. -/
theorem exec_decode_abort (hE : c.E < e + 1) : exec .decode s = .next { s with
      cell := s.cell.write (st + m) Cell.invalid.bits, err := some 0, phase := .search p
      events := s.events ++ [.runAbort p m (e + 1)] } :=
  (exec_decode_eq_decodeAmbig hc hp hN hx hy ha hb hcls).trans (decodeAmbig_abort he hE hst hm hsm)

end Decode

/-- Settles O24: by the outcomes of DECODE; a consumed pair reads back under the bit. -/
theorem decodeConsumesOnePair : Obligations.DecodeConsumesOnePair := by
  intro s c p hc hp
  refine ⟨exec_decode_end hc hp, fun x y a b st m hN hx hy ha hb hst hm hle => ?_⟩
  have hsm : st + m < c.N := by omega
  refine ⟨fun bit hcls => ?_, fun e hcls he hE => ?_, fun e hcls he hE => ?_⟩
  · exact ⟨_, s.cell.read_consumePair p (st + m) bit, exec_decode_clear hc hp hN hx hy ha hb hst hm hsm hcls⟩
  · exact ⟨_, s.cell.read_consumePair p (st + m) false,
      exec_decode_tolerate hc hp hN hx hy ha hb hst hm hsm hcls he hE⟩
  · exact exec_decode_abort hc hp hN hx hy ha hb hst hm hsm hcls he hE

/-! ### The classifications of a run (R66) -/

/-- The reference pair after a pair: the pair itself, or `(0, 255)` after an ambiguity. -/
def nextRef (ref pair : Byte × Byte) : Byte × Byte :=
  if cls ref.1 ref.2 pair.1 pair.2 = .ambig then (0, 255) else pair

/-- The reference pair after a list of pairs. -/
def refAfter (ref : Byte × Byte) (pairs : List (Byte × Byte)) : Byte × Byte := pairs.foldl nextRef ref

theorem classifyRun_cons (ref pair : Byte × Byte) (pairs : List (Byte × Byte)) :
    classifyRun ref.1 ref.2 (pair :: pairs) =
      cls ref.1 ref.2 pair.1 pair.2 :: classifyRun (nextRef ref pair).1 (nextRef ref pair).2 pairs := by
  rw [classifyRun, nextRef]
  cases cls ref.1 ref.2 pair.1 pair.2 <;> rfl

theorem classifyRun_length (ref : Byte × Byte) (pairs : List (Byte × Byte)) :
    (classifyRun ref.1 ref.2 pairs).length = pairs.length := by
  induction pairs generalizing ref with
  | nil => rfl
  | cons pair pairs ih => rw [classifyRun_cons, List.length_cons, List.length_cons, ih]

theorem lt_length_of_classifyRun {ref : Byte × Byte} {pairs : List (Byte × Byte)} {k : Nat} {v : Classified}
    (h : (classifyRun ref.1 ref.2 pairs)[k]? = some v) : k < pairs.length :=
  classifyRun_length ref pairs ▸ (List.getElem?_eq_some_iff.1 h).1

/-- Each pair is classified against the reference pair after the pairs before it. -/
theorem classifyRun_getElem? {ref pair : Byte × Byte} {pairs : List (Byte × Byte)} {k : Nat}
    (h : pairs[k]? = some pair) : (classifyRun ref.1 ref.2 pairs)[k]? =
      some (cls (refAfter ref (pairs.take k)).1 (refAfter ref (pairs.take k)).2 pair.1 pair.2) := by
  induction pairs generalizing ref k with
  | nil => simp at h
  | cons pair' pairs ih =>
    rw [classifyRun_cons]
    cases k with
    | zero =>
      obtain rfl : pair' = pair := by simpa using h
      rfl
    | succ k => exact ih (by simpa using h)

theorem refAfter_take_succ {ref pair : Byte × Byte} {pairs : List (Byte × Byte)} {k : Nat}
    (h : pairs[k]? = some pair) : refAfter ref (pairs.take (k + 1)) = nextRef (refAfter ref (pairs.take k)) pair := by
  rw [refAfter, List.take_add_one, h, List.foldl_append]
  rfl

theorem ambiguities_take_succ {xs : List Classified} {k : Nat} {v : Classified} (h : xs[k]? = some v) :
    ambiguities (xs.take (k + 1)) = ambiguities (xs.take k) + if v = .ambig then 1 else 0 := by
  rw [ambiguities, List.take_add_one, h, List.count_append]
  cases v <;> rfl

theorem ambiguities_take_le (xs : List Classified) (k : Nat) : ambiguities (xs.take k) ≤ ambiguities xs :=
  (List.take_sublist k xs).count_le _

/-- Among more than `e` ambiguities one has exactly `e` before it. -/
theorem exists_ambig_of_lt {xs : List Classified} {e : Nat} (h : e < ambiguities xs) :
    ∃ q, xs[q]? = some .ambig ∧ ambiguities (xs.take q) = e := by
  have hq := List.idxOfNth_lt_length_of_lt_count h
  refine ⟨xs.idxOfNth .ambig e, ?_, ?_⟩
  · rw [List.getElem?_eq_getElem hq, List.getElem_idxOfNth_eq]
  · rw [ambiguities, ← List.countBefore_eq_count_take, List.countBefore_idxOfNth_of_lt_count h]

/-- The unambiguous classification of a bit. -/
def Classified.ofBit (bit : Bool) : Classified := if bit then .one else .zero

@[simp] theorem Classified.bit_ofBit (bit : Bool) : (ofBit bit).bit = bit := by cases bit <;> rfl

@[simp] theorem Classified.ofBit_ne_ambig (bit : Bool) : ofBit bit ≠ .ambig := by cases bit <;> simp [ofBit]

theorem Classified.eq_ofBit {v : Classified} (h : v ≠ .ambig) : v = ofBit v.bit := by
  cases v with
  | one | zero => rfl
  | ambig => exact absurd rfl h

theorem ambiguities_ofBit (bits : List Bool) : ambiguities (bits.map Classified.ofBit) = 0 := by
  simp [ambiguities, List.count_eq_zero]

/-! ### Runs (R69, R70) -/

/-- A decode run from `st` that has consumed `k` of its pairs: their bits lie at `st` and on, the error counter holds
their ambiguities, and the other pairs are untouched. -/
structure Decoding (c : Config) (st : Nat) (ref : Byte × Byte) (pairs : List (Byte × Byte)) (k : Nat) (s : State) :
    Prop where
  cfg : s.cfg = some c
  phase : s.phase = .decode (st + 2 * k)
  start : s.start = some st
  n : s.n = some k
  err : s.err = some (ambiguities ((classifyRun ref.1 ref.2 pairs).take k))
  ra : s.ra = some (refAfter ref (pairs.take k)).1
  rb : s.rb = some (refAfter ref (pairs.take k)).2
  room : st + 2 * pairs.length ≤ c.N
  todo : ∀ i x y, k ≤ i → pairs[i]? = some (x, y) →
    s.CellIs (st + 2 * i) (.mag x) ∧ s.CellIs (st + 2 * i + 1) (.mag y)
  bits : ∀ i v, i < k → (classifyRun ref.1 ref.2 pairs)[i]? = some v → s.CellIs (st + i) (Cell.mkbit v.bit)

section Runs

variable {c : Config} {st : Nat} {ref : Byte × Byte} {pairs : List (Byte × Byte)} {k : Nat} {s : State} {x y : Byte}
  {v : Classified}

/-- Consuming the next pair, with the bit of its classification. -/
theorem Decoding.succ (h : Decoding c st ref pairs k s) (hpair : pairs[k]? = some (x, y))
    (hv : (classifyRun ref.1 ref.2 pairs)[k]? = some v) (events : List Event) :
    Decoding c st ref pairs (k + 1) { s with
      cell := s.cell.consumePair (st + 2 * k) (st + k) v.bit
      ra := some (refAfter ref (pairs.take (k + 1))).1, rb := some (refAfter ref (pairs.take (k + 1))).2
      err := some (ambiguities ((classifyRun ref.1 ref.2 pairs).take (k + 1)))
      n := some (k + 1), phase := .decode (st + 2 * k + 2), events := events } where
  cfg := h.cfg
  phase := rfl
  start := h.start
  n := rfl
  err := rfl
  ra := rfl
  rb := rfl
  room := h.room
  todo i x y hi hxy := by
    obtain ⟨hx, hy⟩ := h.todo i x y (by omega) hxy
    simp only [State.CellIs, Memory.read_consumePair]
    rw [if_neg (by omega), if_neg (by omega), if_neg (by omega), if_neg (by omega)]
    exact ⟨hx, hy⟩
  bits i w hi hw := by
    rw [State.CellIs, Memory.read_consumePair]
    by_cases hik : i = k
    · subst hik
      obtain rfl : v = w := by simpa [hv] using hw
      rw [if_pos rfl]
    · rw [if_neg (by omega), if_neg (by omega)]
      exact h.bits i w (by omega) hw

/-- Within the tolerance DECODE consumes the next pair. -/
theorem Decoding.exec_decode (h : Decoding c st ref pairs k s) (hk : k < pairs.length)
    (hE : ambiguities ((classifyRun ref.1 ref.2 pairs).take (k + 1)) ≤ c.E) :
    ∃ t, exec .decode s = .next t ∧ Decoding c st ref pairs (k + 1) t := by
  obtain ⟨⟨x, y⟩, hpair⟩ : ∃ pair, pairs[k]? = some pair := ⟨_, List.getElem?_eq_getElem hk⟩
  have hv := classifyRun_getElem? (ref := ref) hpair
  have hroom := h.room
  obtain ⟨hx, hy⟩ := h.todo k x y le_rfl hpair
  have hnext := h.succ hpair hv
  rw [ambiguities_take_succ hv] at hE
  simp only [refAfter_take_succ hpair, ambiguities_take_succ hv, nextRef] at hnext
  by_cases hcls : cls (refAfter ref (pairs.take k)).1 (refAfter ref (pairs.take k)).2 x y = .ambig
  · simp only [hcls, if_true] at hnext hE
    exact ⟨_, exec_decode_tolerate h.cfg h.phase (by omega) hx hy h.ra h.rb h.start h.n (by omega) hcls h.err hE,
      hnext _⟩
  · simp only [hcls, if_false, Nat.add_zero, ← h.err] at hnext
    exact ⟨_, exec_decode_clear h.cfg h.phase (by omega) hx hy h.ra h.rb h.start h.n (by omega)
      (Classified.eq_ofBit hcls), hnext _⟩

/-- Within the tolerance a run consumes any number of its pairs. -/
theorem Decoding.runOps_decode (h : Decoding c st ref pairs 0 s) (hk : k ≤ pairs.length)
    (hE : ambiguities ((classifyRun ref.1 ref.2 pairs).take k) ≤ c.E) :
    ∃ t, runOps (List.replicate k .decode) s = .next t ∧ Decoding c st ref pairs k t := by
  induction k with
  | zero => exact ⟨s, rfl, h⟩
  | succ k ih =>
    have hle : ambiguities ((classifyRun ref.1 ref.2 pairs).take k) ≤ c.E := by
      rw [← Nat.min_eq_left k.le_succ, ← List.take_take]
      exact (ambiguities_take_le _ _).trans hE
    obtain ⟨u, hu, hrun⟩ := ih (by omega) hle
    obtain ⟨t, ht, hnext⟩ := hrun.exec_decode hk hE
    refine ⟨t, ?_, hnext⟩
    rw [List.replicate_succ', runOps_append hu, runOps_singleton, ht]

/-- The ambiguity beyond the tolerance aborts the run, with one bit for each pair before it. -/
theorem Decoding.exec_decode_abort (h : Decoding c st ref pairs k s)
    (hv : (classifyRun ref.1 ref.2 pairs)[k]? = some .ambig)
    (hE : ambiguities ((classifyRun ref.1 ref.2 pairs).take k) = c.E) :
    ∃ t, exec .decode s = .next t ∧ t.phase = .search (st + 2 * k) ∧ t.n = some k ∧ t.CellIs (st + k) .invalid ∧
      ∀ i w, i < k → (classifyRun ref.1 ref.2 pairs)[i]? = some w → t.CellIs (st + i) (Cell.mkbit w.bit) := by
  have hk := lt_length_of_classifyRun hv
  obtain ⟨⟨x, y⟩, hpair⟩ : ∃ pair, pairs[k]? = some pair := ⟨_, List.getElem?_eq_getElem hk⟩
  have hroom := h.room
  have hcls := Option.some.inj ((classifyRun_getElem? (ref := ref) hpair).symm.trans hv)
  obtain ⟨hx, hy⟩ := h.todo k x y le_rfl hpair
  refine ⟨_, Machine.exec_decode_abort h.cfg h.phase (by omega) hx hy h.ra h.rb h.start h.n (by omega) hcls h.err
    (by omega), rfl, h.n, Memory.read_write_same _ _ _, fun i w hi hw => ?_⟩
  rw [State.CellIs, Memory.read_write_ne _ _ (by omega)]
  exact h.bits i w hi hw

end Runs

/-- Settles O26: within the tolerance the run consumes all its pairs; beyond it the run reaches the `(E+1)`-th ambiguity,
which aborts it. -/
theorem errorToleranceBoundary : Obligations.ErrorToleranceBoundary := by
  intro s c st a b pairs hc hp hst hn herr hra hrb hroom hcells
  have h : Decoding c st (a, b) pairs 0 s :=
    ⟨hc, hp, hst, hn, herr, hra, hrb, hroom, fun i x y _ => hcells i x y, by simp⟩
  have hall : (classifyRun a b pairs).take pairs.length = classifyRun a b pairs :=
    List.take_of_length_le (classifyRun_length (a, b) pairs).le
  refine ⟨fun hE => ?_, fun hE => ?_⟩
  · obtain ⟨t, ht, hrun⟩ := h.runOps_decode le_rfl (hall.symm ▸ hE)
    refine ⟨t, ht, hrun.phase, hrun.n, hrun.err.trans (by rw [hall]), fun i x hx => hrun.bits i x ?_ hx⟩
    exact lt_length_of_classifyRun (ref := (a, b)) hx
  · obtain ⟨q, hq, hcount⟩ := exists_ambig_of_lt hE
    have hqlt : q < pairs.length := lt_length_of_classifyRun (ref := (a, b)) hq
    obtain ⟨u, hu, hrun⟩ := h.runOps_decode hqlt.le hcount.le
    obtain ⟨t, ht, hphase, htn, hinvalid, hbits⟩ := hrun.exec_decode_abort hq hcount
    refine ⟨q, t, hqlt, hq, hcount, ?_, hphase, htn, hinvalid, hbits⟩
    rw [List.replicate_succ', runOps_append hu, runOps_singleton, ht]

/-! ### Ideal pairs (R69) -/

/-- The pair that sends a bit at the levels `h` and `l`. -/
def idealPair (h l : Byte) (bit : Bool) : Byte × Byte := (level h l bit, level h l !bit)

/-- Ideal pairs after an ideal reference pair classify as their bits (R65 item 2). -/
theorem classifyRun_idealPairs {h l : Byte} (hl : l < h) (ref : Bool) (bits : List Bool) :
    classifyRun (idealPair h l ref).1 (idealPair h l ref).2 (bits.map (idealPair h l)) =
      bits.map Classified.ofBit := by
  induction bits generalizing ref with
  | nil => rfl
  | cons bit bits ih =>
    have hcls : cls (idealPair h l ref).1 (idealPair h l ref).2 (idealPair h l bit).1 (idealPair h l bit).2 =
        Classified.ofBit bit := cls_level hl ref bit
    rw [List.map_cons, List.map_cons, classifyRun_cons, hcls, nextRef, hcls, if_neg (Classified.ofBit_ne_ambig bit), ih]

/-- Settles O25: ideal pairs have no ambiguities, so the run stays within any tolerance. -/
theorem losslessRoundTrip : Obligations.LosslessRoundTrip := by
  intro s c st h l ref bits hc hl hp hst hn herr hra hrb hroom hcells k hk
  have hstart : Decoding c st (idealPair h l ref) (bits.map (idealPair h l)) 0 s := by
    refine ⟨hc, hp, hst, hn, herr, hra, ?_, by simpa using hroom, fun i x y _ hi => ?_, by simp⟩
    · rw [hrb, ← level_not]
      rfl
    · obtain ⟨bit, hbit, hpair⟩ : ∃ bit, bits[i]? = some bit ∧ idealPair h l bit = (x, y) := by simpa using hi
      cases hpair
      rw [level_not]
      exact hcells i bit hbit
  have hrun := classifyRun_idealPairs hl ref bits
  have hamb : ambiguities ((classifyRun (idealPair h l ref).1 (idealPair h l ref).2
      (bits.map (idealPair h l))).take k) = 0 := by
    rw [hrun, ← List.map_take, ambiguities_ofBit]
  obtain ⟨t, ht, hdec⟩ := hstart.runOps_decode (k := k) (by simpa using hk) (hamb.le.trans c.E.zero_le)
  refine ⟨t, ht, hdec.phase, hdec.n, hamb ▸ hdec.err, fun i bit hi hbit => ?_⟩
  simpa using hdec.bits i (.ofBit bit) hi (by simp [hrun, hbit])

end Sys2Proof.Machine

/-! ## The frame assembler (R71 to R76)

The frame register by its octets, the assembler's operations one by one, the run of eight bit cells that fixes the
length, and the simulation of R76's reference function: its inner loop by ARUN, its outer loop by ASCAN, AEND and EMIT. -/

namespace Sys2Proof.Machine

/-! ### The frame register by octets -/

/-- The frame register holds the 14 octets `f`. -/
def HoldsOctets (frame : Memory 8) (f : List Byte) : Prop :=
  f.length = 14 ∧ ∀ o, o < 14 → frame.read o = f[o]?

theorem holdsOctets_cleared (m : Memory 8) : HoldsOctets (clearedFrame m) (List.replicate 14 0) :=
  ⟨List.length_replicate, fun o ho => by rw [clearedFrame_read, if_pos ho, List.getElem?_replicate, if_pos ho]⟩

section Octets

variable {s : State} {f : List Byte} {d : Nat} {len : FrameLen}

theorem HoldsOctets.read {m : Memory 8} (h : HoldsOctets m f) {o : Nat} (ho : o < 14) :
    m.read o = some (f.getD o 0) := by
  rw [h.2 o ho, List.getD_eq_getElem?_getD, List.getElem?_eq_getElem (h.1 ▸ ho), Option.getD_some]

/-- Setting `fbit d` in its octet is R76's `addFbit`. -/
theorem HoldsOctets.addFbit {m : Memory 8} (h : HoldsOctets m f) :
    HoldsOctets (m.write (d / 8) (f.getD (d / 8) 0 ||| fbitMask d)) (addFbit f d) := by
  refine ⟨(List.length_set ..).trans h.1, fun o ho => ?_⟩
  rw [Memory.read_write, Machine.addFbit, List.getElem?_set, h.2 o ho]
  by_cases hod : o = d / 8
  · rw [if_pos hod, if_pos hod.symm, if_pos (by have := h.1; omega)]
  · rw [if_neg hod, if_neg (Ne.symm hod)]

theorem HoldsOctets.setFbit_ok (h : HoldsOctets s.frame f) (hd : d < 112) (bit : Bool) :
    ∃ fr, HoldsOctets fr (if bit then Machine.addFbit f d else f) ∧
      (if bit then setFbit s d else .ok s) = .ok { s with frame := fr } := by
  cases bit with
  | false => exact ⟨s.frame, h, rfl⟩
  | true => exact ⟨_, h.addFbit, setFbit_eq_ok.2 ⟨hd, _, h.read (by omega), rfl⟩⟩

theorem HoldsOctets.resolveLen_ok (h : HoldsOctets s.frame f) (hl : s.flen = some len) (d : Nat) :
    resolveLen d s = .ok { s with flen := some (if d = 7 then lenOfOctet0 (f.getD 0 0) else len) } := by
  by_cases hd : d = 7
  · rw [if_pos hd]
    exact resolveLen_eq_ok.2 (.inr ⟨hd, _, h.read (by omega), rfl⟩)
  · rw [if_neg hd, ← hl]
    exact resolveLen_eq_ok.2 (.inl ⟨hd, rfl⟩)

theorem HoldsOctets.presented (h : HoldsOctets s.frame f) (hl : s.flen = some len) : s.presented = .ok ⟨f, len⟩ :=
  presented_eq_ok.2 ⟨readRange_eq_ok.2 ⟨h.1, fun o ho => ⟨by omega, by rw [Nat.zero_add, h.2 o ho]⟩⟩, hl⟩

end Octets

/-! ### The operations (R71 to R74) -/

theorem Cell.isBit_eq_false {x : Cell} (h0 : x ≠ .zero) (h1 : x ≠ .one) : x.isBit = false := by
  cases x with
  | zero => exact absurd rfl h0
  | one => exact absurd rfl h1
  | mag | invalid | consumed => rfl

theorem State.BitAt.exists_mkbit {s : State} {k : Nat} (h : s.BitAt k) : ∃ bit, s.CellIs k (Cell.mkbit bit) :=
  h.elim (fun h0 => ⟨false, h0⟩) fun h1 => ⟨true, h1⟩

/-- Settles O27: the three forward lemmas of ASCAN. -/
theorem ascanSkipsOrStartsAnAssembly : Obligations.AscanSkipsOrStartsAnAssembly := by
  intro s c j hc hp
  refine ⟨exec_ascan_end hc hp, fun x hj hx h0 h1 => exec_ascan_skip hc hp hj hx (Cell.isBit_eq_false h0 h1),
    fun hj hbit => ?_⟩
  obtain ⟨bit, hx⟩ := hbit.exists_mkbit
  exact ⟨clearedFrame s.frame, clearedFrame_read s.frame, exec_ascan_start hc hp hj hx (Cell.isBit_mkbit bit)⟩

section Operations

variable {c : Config} {s t : State} {f : List Byte} {j d : Nat} {len : FrameLen} {bit : Bool}

/-- ARUN where the run continues, by the frame bits. -/
theorem exec_arun_bit (hc : s.cfg = some c) (hp : s.phase = .arun j) (hd : s.dcnt = some d) (hl : s.flen = some len)
    (hj : j < c.N) (hx : s.CellIs j (Cell.mkbit bit)) (hdl : d < len.bits) (hf : s.frame.FullTo 14) :
    ∃ (fr : Memory 8) (len' : FrameLen), fr.FullTo 14 ∧
      (∀ t, fr.fbit t = if t = d ∧ bit = true then some true else s.frame.fbit t) ∧
      (d = 7 → (len' = .long ↔ fr.fbit 0 = some true)) ∧ (d ≠ 7 → len' = len) ∧
      exec .arun s = .next { s with
        frame := fr, flen := some len', dcnt := some (d + 1), phase := .arun (j + 1) } := by
  rw [exec_arun_eq_collectBit hc hp (runContinues_bit hj hx hd hl hdl)]
  exact collectBit_ok hd hl hj hx (hdl.trans_le len.bits_le) hf

/-- ARUN where the run continues, by the octets: one round of R76's inner loop. -/
theorem exec_arun_octets (hc : s.cfg = some c) (hp : s.phase = .arun j) (hd : s.dcnt = some d)
    (hl : s.flen = some len) (hj : j < c.N) (hx : s.CellIs j (Cell.mkbit bit)) (hdl : d < len.bits)
    (hf : HoldsOctets s.frame f) :
    ∃ fr, HoldsOctets fr (if bit then addFbit f d else f) ∧ exec .arun s = .next { s with
      frame := fr
      flen := some (if d = 7 then lenOfOctet0 ((if bit then addFbit f d else f).getD 0 0) else len)
      dcnt := some (d + 1), phase := .arun (j + 1) } := by
  obtain ⟨fr, hfr, hset⟩ := hf.setFbit_ok (hdl.trans_le len.bits_le) bit
  refine ⟨fr, hfr, ?_⟩
  rw [exec_arun_eq_collectBit hc hp (runContinues_bit hj hx hd hl hdl), collectBit, hx.readCell hj, readThen_ok, hd,
    readReg_some, readThen_ok, Cell.isOne_mkbit, hset, readThen_ok,
    HoldsOctets.resolveLen_ok (s := { s with frame := fr }) hfr hl, readThen_ok]

/-- ARUN writes no octet past the frame register's 14. -/
theorem frame_read_of_arun (hc : s.cfg = some c) (h : exec .arun s = .next t) {o : Nat} (ho : 14 ≤ o) :
    t.frame.read o = s.frame.read o := by
  obtain ⟨-, -, -, fr, -, -, rfl | ⟨o', v, ho', rfl⟩, rfl⟩ := effect_in_session hc (execArun_effect h)
  · rfl
  · exact Memory.read_write_ne _ v (by omega)

/-- The run has stopped: past the cells, on a cell that is no bit, or with all the bits of the target. -/
theorem runContinues_stopped (hd : s.dcnt = some d) (hl : s.flen = some len)
    (h : c.N ≤ j ∨ (∃ x, s.CellIs j x ∧ x.isBit = false) ∨ (s.BitAt j ∧ len.bits ≤ d)) :
    runContinues c s j = .ok false := by
  refine runContinues_eq_false.2 ((Nat.lt_or_ge j c.N).symm.imp_right fun hj => ⟨hj, ?_⟩)
  rcases h with hN | ⟨x, hx, hb⟩ | ⟨hbit, hle⟩
  · omega
  · exact ⟨x, hx, .inl hb⟩
  · obtain ⟨bit, hx⟩ := hbit.exists_mkbit
    exact ⟨_, hx, .inr ⟨d, len, Cell.isBit_mkbit bit, hd, hl, hle⟩⟩

end Operations

/-- Settles O28: while the run continues by the forward lemma of ARUN; once it has stopped no ARUN is a step. -/
theorem arunCollectsOneBit : Obligations.ArunCollectsOneBit := by
  intro s c j d len hc hp hd hl
  refine ⟨fun bit hj hx hdl hf => ?_, fun hstop t h => ?_⟩
  · obtain ⟨fr, len', -, hfb, h7, hn7, hnext⟩ := exec_arun_bit hc hp hd hl hj hx hdl hf
    exact ⟨fr, len', fun t _ => hfb t, fun o ho => frame_read_of_arun hc hnext ho, h7, hn7, hnext⟩
  · obtain ⟨j', hp', hgo, -⟩ := effect_in_session hc (execArun_next h)
    obtain rfl : j = j' := by simpa [hp] using hp'
    obtain ⟨hj, hdl, bit, hbit⟩ := bit_of_runContinues hgo hd hl
    rcases hstop with hN | ⟨x, hx, h0, h1⟩ | hle
    · omega
    · obtain rfl := Cell.bits_injective (Option.some.inj (hx.symm.trans hbit))
      exact absurd (Cell.isBit_mkbit bit) (by simp [Cell.isBit_eq_false h0 h1])
    · omega

/-- Settles O29: each stop position stops the run, and the bit count decides; where it continues no AEND is a step. -/
theorem aendAcceptsOrDiscards : Obligations.AendAcceptsOrDiscards := by
  intro s c j d len hc hp hd hl
  refine ⟨fun hstop => ?_, fun hj hbit hdl t h => ?_⟩
  · have hgo : runContinues c s j = .ok false :=
      runContinues_stopped hd hl <| hstop.imp_right <| Or.imp
        (fun ⟨x, hx, h0, h1⟩ => ⟨x, hx, Cell.isBit_eq_false h0 h1⟩) (And.imp_right Eq.ge)
    exact ⟨exec_aend_accept hc hp hgo hd hl, exec_aend_drop hc hp hgo hd hl⟩
  · obtain ⟨bit, hx⟩ := hbit.exists_mkbit
    have hgo := runContinues_bit hj hx hd hl hdl
    simp [exec, execAend, hc, hp, hgo] at h

/-- Settles O30: the frame port shows the register's octets, and a sink that does not accept only gives its answer. -/
theorem emitPresentsTheFrame : Obligations.EmitPresentsTheFrame := by
  intro s c j hc hp
  refine ⟨fun octets len ha hoct hread hl => ?_, fun ha t h => ?_⟩
  · have hocts : HoldsOctets s.frame octets := ⟨hoct, hread⟩
    exact ⟨s.sinkAnswers.tail, exec_emit_accept hc hp ha (hocts.presented hl)⟩
  · obtain rfl := Host.Outcome.next.inj ((exec_emit_wait hc hp ha).symm.trans h)
    rfl

/-! ### The length of a run (R75) -/

/-- A pass whose `k`-th operation leads from a state with `P k` to one with `P (k + 1)`. -/
theorem exists_runOps_replicate {i : Instr} {m : Nat} {P : Nat → State → Prop} {s : State}
    (hstep : ∀ k u, k < m → P k u → ∃ t, exec i u = .next t ∧ P (k + 1) t) (h0 : P 0 s) :
    ∃ t, runOps (List.replicate m i) s = .next t ∧ P m t := by
  induction m with
  | zero => exact ⟨s, rfl, h0⟩
  | succ m ih =>
    obtain ⟨u, hu, hpu⟩ := ih fun k v hk => hstep k v (by omega)
    obtain ⟨t, ht, hpt⟩ := hstep m u m.lt_succ_self hpu
    refine ⟨t, ?_, hpt⟩
    rw [List.replicate_succ', runOps_append hu, runOps_singleton, ht]

/-- A run over the bit cells `bits 0` to `bits 7` from `j` on that has collected the first `k` of them. -/
structure CollectingEight (c : Config) (j : Nat) (bits : Nat → Bool) (k : Nat) (s : State) : Prop where
  cfg : s.cfg = some c
  phase : s.phase = .arun (j + k)
  dcnt : s.dcnt = some k
  frame : ∃ len, s.flen = some len ∧ AssemblyInv s.frame k len
  first : 0 < k → s.frame.fbit 0 = some (bits 0)
  room : j + 8 ≤ c.N
  cells : ∀ i, i < 8 → s.CellIs (j + i) (Cell.mkbit (bits i))

section Eight

variable {c : Config} {j k : Nat} {bits : Nat → Bool} {s : State}

/-- ARUN collects the next of the eight bits, the target being at least 56. -/
theorem CollectingEight.exec_arun (h : CollectingEight c j bits k s) (hk : k < 8) :
    ∃ t, exec .arun s = .next t ∧ CollectingEight c j bits (k + 1) t := by
  obtain ⟨len, hl, hasm⟩ := h.frame
  have hroom := h.room
  have hlen := len.le_bits
  obtain ⟨fr, len', hfull, hfb, h7, hn7, hnext⟩ :=
    exec_arun_bit h.cfg h.phase h.dcnt hl (by omega) (h.cells k hk) (by omega) hasm.full
  refine ⟨_, hnext, h.cfg, rfl, rfl, ⟨len', rfl, hasm.succ (by omega) hfull hfb h7 hn7⟩, fun _ => ?_, hroom, h.cells⟩
  show fr.fbit 0 = _
  rw [hfb]
  rcases Nat.eq_zero_or_pos k with rfl | hpos
  · rw [hasm.rest_zero 0 le_rfl (by omega)]
    cases bits 0 <;> rfl
  · rw [if_neg (by omega), h.first hpos]

/-- With all eight collected, the first of them has fixed the length. -/
theorem CollectingEight.flen (h : CollectingEight c j bits 8 s) :
    s.flen = some (if bits 0 then .long else .short) := by
  obtain ⟨len, hl, hasm⟩ := h.frame
  have hlong : len = .long ↔ bits 0 = true := by
    rw [hasm.resolved le_rfl, h.first (by omega), Option.some.injEq]
  rw [hl, Option.some.injEq]
  exact FrameLen.eq_of_long_iff (by rw [hlong]; cases bits 0 <;> simp)

end Eight

/-- Settles O32: ASCAN starts the run of eight; in fewer bits the target is still the provisional 112. -/
theorem lengthIsFixedByTheFirstBit : Obligations.LengthIsFixedByTheFirstBit := by
  refine ⟨fun s c j first hc hp hroom hx hbits => ?_, fun s t c j d hinv hc hp hd hd8 h => ?_⟩
  · choose! bits hcells using fun k hk => (hbits k hk).exists_mkbit
    have hfirst : bits 0 = first := by
      have hmk := Cell.bits_injective (Option.some.inj ((hcells 0 (by omega)).symm.trans hx))
      simpa using congrArg Cell.isOne hmk
    have hstart := exec_ascan_start hc hp (by omega) hx (Cell.isBit_mkbit first)
    have h0 : CollectingEight c j bits 0 { s with
        frame := clearedFrame s.frame, dcnt := some 0, flen := some .long, phase := .arun j } :=
      ⟨hc, rfl, rfl, ⟨.long, rfl, .cleared s.frame⟩, fun h => absurd h (by decide), hroom, hcells⟩
    obtain ⟨t, hrun, ht⟩ := exists_runOps_replicate (m := 8) (fun k u hk hu => hu.exec_arun hk) h0
    refine ⟨t, ?_, ht.phase, ht.dcnt, hfirst ▸ ht.flen⟩
    rw [runOps, hstart]
    exact hrun
  · obtain ⟨-, -, d', len, hd', hl, hasm⟩ : PhaseInv c s (.arun j) := hp ▸ (hinv.session c hc).phase
    obtain rfl : d = d' := by simpa [hd] using hd'
    obtain rfl : len = .long := hasm.provisional hd8
    rcases execAend_next h with ⟨hn, -⟩ | ⟨c', j', d', len', -, hp', -, hd', hl', ⟨hle, -⟩ | ⟨-, rfl⟩⟩
    · simp [hc] at hn
    · obtain rfl : d = d' := by simpa [hd] using hd'
      obtain rfl : FrameLen.long = len' := by simpa [hl] using hl'
      simp only [FrameLen.bits] at hle
      omega
    · obtain rfl : j = j' := by simpa [hp] using hp'
      rfl

/-! ### The reference function (R76) -/

theorem Cell.mkbit_eq_one {bit : Bool} : Cell.mkbit bit = .one ↔ bit = true := by cases bit <;> decide

theorem collectRun_cons_bit {bit : Bool} {d : Nat} {len : FrameLen} (h : d < len.bits) (f : List Byte)
    (cells : List Cell) :
    collectRun (Cell.mkbit bit :: cells) f d len =
      collectRun cells (if bit then addFbit f d else f) (d + 1)
        (if d = 7 then lenOfOctet0 ((if bit then addFbit f d else f).getD 0 0) else len) := by
  simp [collectRun, h, Cell.mkbit_eq_one]

/-- The operations of FrameAssembler. -/
def isAssemblerOp : Instr → Bool
  | .ascan | .arun | .aend | .emit => true
  | .reset _ _ _ _ | .deliver _ | .cancel | .take | .extract | .search | .decode => false

theorem isAssemblerOp_iff {i : Instr} :
    isAssemblerOp i = true ↔ i = .ascan ∨ i = .arun ∨ i = .aend ∨ i = .emit := by
  cases i <;> simp [isAssemblerOp]

/-- Some of the assembler's operations in a row lead from `s` to `t`. -/
def State.AssemblesTo (s t : State) : Prop :=
  ∃ ops, (∀ i ∈ ops, isAssemblerOp i = true) ∧ runOps ops s = .next t

theorem State.AssemblesTo.refl (s : State) : s.AssemblesTo s := ⟨[], by simp, rfl⟩

theorem State.AssemblesTo.head {s t u : State} {i : Instr} (h : exec i s = .next t)
    (hi : isAssemblerOp i = true) : t.AssemblesTo u → s.AssemblesTo u
  | ⟨ops, hops, hrun⟩ => ⟨i :: ops, List.forall_mem_cons.2 ⟨hi, hops⟩, by rw [runOps, h]; exact hrun⟩

theorem State.AssemblesTo.trans {s t u : State} : s.AssemblesTo t → t.AssemblesTo u → s.AssemblesTo u
  | ⟨ops, hops, hrun⟩, ⟨ops', hops', hrun'⟩ =>
    ⟨ops ++ ops', List.forall_mem_append.2 ⟨hops, hops'⟩, (runOps_append hrun).trans hrun'⟩

/-- The assembler works over the array `cells`, before a sink that accepts. -/
structure State.Over (s : State) (c : Config) (cells : List Cell) : Prop where
  cfg : s.cfg = some c
  sinkAnswers : s.sinkAnswers = []
  sinkThen : s.sinkThen = true
  size : cells.length = c.N
  cell : ∀ k x, cells[k]? = some x → s.CellIs k x

section Reference

variable {c : Config} {cells : List Cell} {s t : State}

/-- What the assembler's operations write is no part of it. -/
theorem State.Over.exec {i : Instr} (h : s.Over c cells) (hnext : exec i s = .next t)
    (hi : isAssemblerOp i = true) : t.Over c cells := by
  obtain ⟨hcfg, hcell, hanswers, hthen⟩ : t.cfg = s.cfg ∧ t.cell = s.cell ∧
      (s.sinkAnswers = [] → t.sinkAnswers = []) ∧ t.sinkThen = s.sinkThen := by
    rcases isAssemblerOp_iff.1 hi with rfl | rfl | rfl | rfl
    · obtain ⟨-, -, ⟨-, rfl⟩ | ⟨-, -, -, ⟨-, rfl⟩ | ⟨-, rfl⟩⟩⟩ := effect_in_session h.cfg (execAscan_next hnext)
      all_goals exact ⟨rfl, rfl, id, rfl⟩
    · obtain ⟨-, -, -, -, -, -, -, rfl⟩ := effect_in_session h.cfg (execArun_effect hnext)
      exact ⟨rfl, rfl, id, rfl⟩
    · obtain ⟨hn, -⟩ | ⟨-, -, -, -, -, -, -, -, -, ⟨-, rfl⟩ | ⟨-, rfl⟩⟩ := execAend_next hnext
      · simp [h.cfg] at hn
      all_goals exact ⟨rfl, rfl, id, rfl⟩
    · obtain ⟨-, -, ⟨-, rfl⟩ | ⟨-, -, -, -, -, rfl⟩⟩ := effect_in_session h.cfg (execEmit_next hnext)
      all_goals exact ⟨rfl, rfl, congrArg List.tail, rfl⟩
  exact ⟨hcfg.trans h.cfg, hanswers h.sinkAnswers, hthen.trans h.sinkThen, h.size, fun k x hk =>
    (congrArg (Memory.read · k) hcell).trans (h.cell k x hk)⟩

theorem State.Over.sinkAccepts (h : s.Over c cells) : s.sinkAccepts = true := by
  rw [State.sinkAccepts, h.sinkAnswers, h.sinkThen]

/-- The cell at the cursor is the first of those still to come. -/
theorem State.Over.cell_of_drop (h : s.Over c cells) {j : Nat} {x : Cell} {xs : List Cell}
    (hxs : cells.drop j = x :: xs) : j < c.N ∧ s.CellIs j x ∧ cells.drop (j + 1) = xs := by
  have hx : cells[j]? = some x := by rw [← List.head?_drop, hxs, List.head?_cons]
  refine ⟨h.size ▸ (List.getElem?_eq_some_iff.1 hx).1, h.cell j x hx, ?_⟩
  rw [← List.tail_drop, hxs, List.tail_cons]

theorem State.Over.le_of_drop_nil (h : s.Over c cells) {j : Nat} (hxs : cells.drop j = []) : c.N ≤ j :=
  h.size ▸ List.drop_eq_nil_iff.1 hxs

/-- The assembly at the cursor `j`: the octets `f`, `d` bits of them collected toward the target `len`. -/
structure Assembling (c : Config) (cells : List Cell) (port : List FrameRecord) (j : Nat) (f : List Byte) (d : Nat)
    (len : FrameLen) (s : State) : Prop where
  work : s.Over c cells
  port : s.port = port
  phase : s.phase = .arun j
  frame : HoldsOctets s.frame f
  dcnt : s.dcnt = some d
  flen : s.flen = some len

variable {port : List FrameRecord} {j d fuel : Nat} {f : List Byte} {len : FrameLen}

/-- ARUNs carry an assembly to the stop position of R76's inner loop. -/
theorem Assembling.collects (h : Assembling c cells port j f d len s) :
    ∃ t j' f' d' len', s.AssemblesTo t ∧ j ≤ j' ∧ collectRun (cells.drop j) f d len = (f', d', len', cells.drop j') ∧
      Assembling c cells port j' f' d' len' t ∧ runContinues c t j' = .ok false := by
  induction hxs : cells.drop j generalizing j f d len s with
  | nil =>
    exact ⟨s, j, f, d, len, .refl s, le_rfl, by rw [collectRun, hxs], h,
      runContinues_stopped h.dcnt h.flen (.inl (h.work.le_of_drop_nil hxs))⟩
  | cons x xs ih =>
    obtain ⟨hj, hx, htail⟩ := h.work.cell_of_drop hxs
    cases hb : x.isBit with
    | false =>
      exact ⟨s, j, f, d, len, .refl s, le_rfl, by simp [collectRun, hb, hxs], h,
        runContinues_stopped h.dcnt h.flen (.inr (.inl ⟨x, hx, hb⟩))⟩
    | true =>
      obtain ⟨bit, rfl⟩ := Cell.eq_mkbit hb
      by_cases hdl : d < len.bits
      · obtain ⟨fr, hfr, hnext⟩ := exec_arun_octets h.work.cfg h.phase h.dcnt h.flen hj hx hdl h.frame
        obtain ⟨t, j', f', d', len', hto, hjj, hrun, ht⟩ :=
          ih ⟨h.work.exec hnext rfl, h.port, rfl, hfr, rfl, rfl⟩ htail
        exact ⟨t, j', f', d', len', .head hnext rfl hto, by omega, (collectRun_cons_bit hdl f xs).trans hrun, ht⟩
      · exact ⟨s, j, f, d, len, .refl s, le_rfl, by simp [collectRun, hdl, hxs], h,
          runContinues_stopped h.dcnt h.flen (.inr (.inr ⟨.of_mkbit hx, by omega⟩))⟩

/-- From a stop position AEND, and EMIT where it accepts, resume the scan past it with the frame presented that R76's
outer loop gives. -/
theorem Assembling.ends (h : Assembling c cells port j f d len s) (hgo : runContinues c s j = .ok false) :
    ∃ t, s.AssemblesTo t ∧ t.Over c cells ∧ t.phase = .ascan (j + 1) ∧
      t.port = port ++ (if enoughBits d len then [⟨f, len⟩] else []) := by
  have hc := h.work.cfg
  by_cases hdl : len.bits - 1 ≤ d
  · have haend := exec_aend_accept hc h.phase hgo h.dcnt h.flen hdl
    have hemit := exec_emit_accept (s := { s with phase := .emit j }) hc rfl h.work.sinkAccepts
      (HoldsOctets.presented h.frame h.flen)
    refine ⟨_, .head haend rfl (.head hemit rfl (.refl _)), (h.work.exec haend rfl).exec hemit rfl, rfl, ?_⟩
    simp [enoughBits, hdl, h.port]
  · have haend := exec_aend_drop hc h.phase hgo h.dcnt h.flen (by omega)
    refine ⟨_, .head haend rfl (.refl _), h.work.exec haend rfl, rfl, ?_⟩
    simp [enoughBits, hdl, h.port]

theorem framesFrom_cons_bit {x : Cell} {xs rest : List Cell} (hb : x.isBit = true)
    (hrun : collectRun (x :: xs) (List.replicate 14 0) 0 .long = (f, d, len, rest)) :
    framesFrom (fuel + 1) (x :: xs) =
      (if enoughBits d len then [⟨f, len⟩] else []) ++ framesFrom fuel rest.tail := by
  rw [framesFrom, if_pos hb, hrun]

theorem State.Over.assembles_end (h : s.Over c cells) (hp : s.phase = .ascan j) (hj : c.N ≤ j) :
    ∃ t, s.AssemblesTo t ∧ t.phase = .wait ∧ t.port = s.port ++ [] :=
  ⟨_, .head (exec_ascan_end h.cfg hp hj) rfl (.refl _), rfl, (List.append_nil _).symm⟩

/-- From `ASCAN(j)` the assembler presents R76's frames of the cells still to come; every round moves the cursor, so the
fuel covers them. -/
theorem State.Over.assembles (h : s.Over c cells) (hp : s.phase = .ascan j) (hfuel : c.N < fuel + j) :
    ∃ t, s.AssemblesTo t ∧ t.phase = .wait ∧ t.port = s.port ++ framesFrom fuel (cells.drop j) := by
  induction fuel generalizing j s with
  | zero => exact h.assembles_end hp (by omega)
  | succ fuel ih =>
    cases hxs : cells.drop j with
    | nil => exact h.assembles_end hp (h.le_of_drop_nil hxs)
    | cons x xs =>
      obtain ⟨hj, hx, htail⟩ := h.cell_of_drop hxs
      cases hb : x.isBit with
      | false =>
        have hskip := exec_ascan_skip h.cfg hp hj hx hb
        obtain ⟨t, hto, hwait, hport⟩ := ih (h.exec hskip rfl) rfl (by omega)
        exact ⟨t, .head hskip rfl hto, hwait, by simpa [framesFrom, hb, htail] using hport⟩
      | true =>
        have hstart := exec_ascan_start h.cfg hp hj hx hb
        obtain ⟨u, j', f, d, len, hsu, hjj, hrun, hu, hgo⟩ := Assembling.collects (j := j)
          ⟨h.exec hstart rfl, rfl, rfl, holdsOctets_cleared s.frame, rfl, rfl⟩
        obtain ⟨v, huv, hv, hpv, hportv⟩ := hu.ends hgo
        obtain ⟨t, hvt, hwait, hport⟩ := ih hv hpv (by omega)
        refine ⟨t, .head hstart rfl (hsu.trans (huv.trans hvt)), hwait, ?_⟩
        rw [framesFrom_cons_bit hb (hxs ▸ hrun), List.tail_drop, hport, hportv, List.append_assoc]

end Reference

/-- Settles O34: the whole array from its first cell. -/
theorem theAssemblerEmitsTheReferenceFrames : Obligations.TheAssemblerEmitsTheReferenceFrames := by
  intro s c cells hc hanswers hthen hp hsize hcell
  have hwork : s.Over c cells := ⟨hc, hanswers, hthen, hsize, hcell⟩
  obtain ⟨t, ⟨ops, hops, hrun⟩, hwait, hport⟩ := hwork.assembles (fuel := cells.length + 1) hp (by omega)
  exact ⟨ops, t, fun i hi => isAssemblerOp_iff.1 (hops i hi), hrun, hwait, hport⟩

end Sys2Proof.Machine

/-! ## The frames of a buffer (R85, R109)

Two states that hold the same buffer in the work bank, in one phase, need agree in no more than what the worker of that
phase still reads of its own elements: its operations then lead to such states again and present the same frames. So any
state on the way of a buffer is followed by a reference state, whose way to `WAIT` is fixed by the buffer. -/

namespace Sys2Proof.Machine

/-! ### Spaces that read alike -/

/-- The two spaces read alike at every index below `size`. -/
def Memory.AgreeTo {w : Nat} (size : Nat) (m m' : Memory w) : Prop := ∀ k, k < size → m'.read k = m.read k

section Agree

variable {w size : Nat} {m m' : Memory w}

theorem Memory.AgreeTo.mono {size' : Nat} (h : m.AgreeTo size m') (hle : size' ≤ size) : m.AgreeTo size' m' :=
  fun k hk => h k (hk.trans_le hle)

theorem Memory.AgreeTo.write (h : m.AgreeTo size m') (k : Nat) (x : BitVec w) :
    (m.write k x).AgreeTo size (m'.write k x) := fun j hj => by
  rw [Memory.read_write, Memory.read_write, h j hj]

/-- The element written next after those that agree. -/
theorem Memory.AgreeTo.write_next (h : m.AgreeTo size m') (x : BitVec w) :
    (m.write size x).AgreeTo (size + 1) (m'.write size x) := fun j hj => by
  rw [Memory.read_write, Memory.read_write]
  split
  · rfl
  · exact h j (by omega)

theorem Memory.AgreeTo.writeList (h : m.AgreeTo size m') (k : Nat) (xs : List (BitVec w)) :
    (m.writeList k xs).AgreeTo size (m'.writeList k xs) := fun j hj => by
  rw [Memory.read_writeList, Memory.read_writeList, h j hj]

theorem Memory.AgreeTo.readAt (h : m.AgreeTo size m') (k : Nat) : readAt size m' k = readAt size m k := by
  unfold Machine.readAt
  split
  · rw [h k ‹_›]
  · rfl

theorem Memory.AgreeTo.readRange (h : m.AgreeTo size m') (k count : Nat) :
    readRange size m' k count = readRange size m k count := by
  induction count generalizing k with
  | zero => rfl
  | succ count ih => rw [Machine.readRange, h.readAt, ih, ← Machine.readRange]

theorem clearedFrame_agree (m m' : Memory 8) : (clearedFrame m).AgreeTo 14 (clearedFrame m') := fun o ho => by
  rw [clearedFrame_read, clearedFrame_read, if_pos ho, if_pos ho]

end Agree

/-! ### States of one buffer -/

/-- The worker's own elements that phase `p` and its successors read before they write them hold the same. -/
def State.OwnAlike (c : Config) (u s : State) : Phase → Prop
  | .wait | .done => True
  | .extract k => u.cell.AgreeTo k s.cell
  | .search _ => u.cell.AgreeTo c.N s.cell ∧ s.err = u.err
  | .decode _ =>
      u.cell.AgreeTo c.N s.cell ∧ s.start = u.start ∧ s.n = u.n ∧ s.ra = u.ra ∧ s.rb = u.rb ∧ s.err = u.err
  | .ascan _ => u.cell.AgreeTo c.N s.cell
  | .arun _ | .emit _ =>
      u.cell.AgreeTo c.N s.cell ∧ u.frame.AgreeTo 14 s.frame ∧ s.dcnt = u.dcnt ∧ s.flen = u.flen

/-- The two states are in the same phase of the same buffer. -/
structure State.Alike (c : Config) (u s : State) : Prop where
  cfg_left : u.cfg = some c
  cfg_right : s.cfg = some c
  bank : u.workBank.AgreeTo c.L s.workBank
  phase : s.phase = u.phase
  own : u.OwnAlike c s u.phase

/-- `t` is in the phase of `v` and has kept alike what this phase reads; the sink's answers at most got fewer than those
of `s`. -/
def State.Mirrors (c : Config) (s v t : State) : Prop :=
  t.phase = v.phase ∧ v.OwnAlike c t v.phase ∧ t.sinkAnswers.length ≤ s.sinkAnswers.length

section Alike

variable {c : Config} {u v s t : State}

theorem readCell_congr (h : u.cell.AgreeTo c.N s.cell) (k : Nat) : readCell c s k = readCell c u k := by
  rw [readCell, h.readAt, ← readCell]

theorem pre_congr_agree (h : u.cell.AgreeTo c.N s.cell) (i : Nat) : pre c s i = pre c u i := by
  suffices ∀ offs lo hi, preScan c s i offs lo hi = preScan c u i offs lo hi from this _ _ _
  intro offs
  induction offs with
  | nil => exact fun _ _ => rfl
  | cons o offs ih => intro lo hi; simp only [preScan, readCell_congr h, ih]

theorem runContinues_congr (h : u.cell.AgreeTo c.N s.cell) (hd : s.dcnt = u.dcnt) (hl : s.flen = u.flen) (j : Nat) :
    runContinues c s j = runContinues c u j := by
  rw [runContinues, readCell_congr h, hd, hl, ← runContinues]

theorem State.presented_congr (h : u.frame.AgreeTo 14 s.frame) (hl : s.flen = u.flen) : s.presented = u.presented := by
  have hoct : readRange frameOctets s.frame 0 frameOctets = readRange frameOctets u.frame 0 frameOctets :=
    h.readRange 0 14
  rw [State.presented, hoct, hl, ← State.presented]

/-! ### The operations, one by one -/

theorem State.Alike.extract (h : u.Alike c s) (hu : exec .extract u = .next v) :
    ∃ t, exec .extract s = .next t ∧ s.Mirrors c v t := by
  obtain ⟨k, hp, hu⟩ := effect_in_session h.cfg_left (execExtract_next hu)
  have hcell : u.OwnAlike c s (.extract k) := hp ▸ h.own
  have hps := h.phase.trans hp
  rcases hu with ⟨hk, i, q, hi, hq, hri, hrq, rfl⟩ | ⟨hk, rfl⟩
  · exact ⟨_, exec_extract_pair h.cfg_right hps hk ((h.bank _ hi).trans hri) ((h.bank _ hq).trans hrq), rfl,
      Memory.AgreeTo.write_next hcell _, le_rfl⟩
  · exact ⟨_, exec_extract_end h.cfg_right hps hk, rfl, ⟨Memory.AgreeTo.mono hcell hk, rfl⟩, le_rfl⟩

theorem State.Alike.search (h : u.Alike c s) (hu : exec .search u = .next v) :
    ∃ t, exec .search s = .next t ∧ s.Mirrors c v t := by
  obtain ⟨i, hp, hu⟩ := effect_in_session h.cfg_left (execSearch_next hu)
  obtain ⟨hcell, herr⟩ : u.OwnAlike c s (.search i) := hp ▸ h.own
  have hps := h.phase.trans hp
  rcases hu with ⟨hN, rfl⟩ | ⟨hN, hpre, rfl⟩ | ⟨hN, hpre, hu⟩
  · exact ⟨_, exec_search_end h.cfg_right hps hN, rfl, hcell, le_rfl⟩
  · exact ⟨_, exec_search_next h.cfg_right hps hN ((pre_congr_agree hcell i).trans hpre), rfl, ⟨hcell, herr⟩, le_rfl⟩
  · obtain ⟨a, b, hA, hB, -, ha, hb, rfl⟩ := searchMatch_next hu
    refine ⟨_, (exec_search_eq_searchMatch h.cfg_right hps hN ((pre_congr_agree hcell i).trans hpre)).trans
      (searchMatch_ok hA hB hN ((hcell _ hA).trans ha) ((hcell _ hB).trans hb)), rfl, ?_, le_rfl⟩
    exact ⟨hcell.writeList i _, rfl, rfl, rfl, rfl, herr⟩

theorem Memory.AgreeTo.consumePair {size : Nat} {m m' : Memory 9} (h : m.AgreeTo size m') (p out : Nat) (bit : Bool) :
    (m.consumePair p out bit).AgreeTo size (m'.consumePair p out bit) :=
  ((h.write p _).write (p + 1) _).write out _

theorem State.Alike.decode (h : u.Alike c s) (hu : exec .decode u = .next v) :
    ∃ t, exec .decode s = .next t ∧ s.Mirrors c v t := by
  obtain ⟨p, hp, hu⟩ := effect_in_session h.cfg_left (execDecode_next hu)
  obtain ⟨hcell, hst, hn, hra, hrb, herr⟩ : u.OwnAlike c s (.decode p) := hp ▸ h.own
  have hc := h.cfg_right
  have hps := h.phase.trans hp
  rcases hu with ⟨hN, rfl⟩ | ⟨hN, x, y, a, b, hx, hy, ha, hb, hu⟩
  · exact ⟨_, exec_decode_end hc hps hN, rfl, ⟨hcell, rfl⟩, le_rfl⟩
  · have hx' : s.CellIs p (.mag x) := (hcell p (by omega)).trans hx
    have hy' : s.CellIs (p + 1) (.mag y) := (hcell _ hN).trans hy
    rw [← hra] at ha
    rw [← hrb] at hb
    rcases hu with ⟨bit, hcls, hu⟩ | ⟨hcls, e, he, ⟨hE, hu⟩ | ⟨hE, hu⟩⟩
    · obtain ⟨st, m, hst', hm, -, hsm, rfl⟩ := decodeBit_next hu
      exact ⟨_, exec_decode_clear hc hps hN hx' hy' ha hb (hst.trans hst') (hn.trans hm) hsm hcls, rfl,
        ⟨hcell.consumePair p _ bit, hst, rfl, rfl, rfl, herr⟩, le_rfl⟩
    · obtain ⟨st, m, hst', hm, hsm, rfl⟩ := decodeAbort_next hu
      exact ⟨_, exec_decode_abort hc hps hN hx' hy' ha hb (hst.trans hst') (hn.trans hm) hsm hcls (herr.trans he) hE,
        rfl, ⟨hcell.write _ _, rfl⟩, le_rfl⟩
    · obtain ⟨st, m, hst', hm, -, hsm, rfl⟩ := decodeBit_next hu
      exact ⟨_, exec_decode_tolerate hc hps hN hx' hy' ha hb (hst.trans hst') (hn.trans hm) hsm hcls (herr.trans he) hE,
        rfl, ⟨hcell.consumePair p _ false, hst, rfl, rfl, rfl, rfl⟩, le_rfl⟩

theorem State.Alike.ascan (h : u.Alike c s) (hu : exec .ascan u = .next v) :
    ∃ t, exec .ascan s = .next t ∧ s.Mirrors c v t := by
  obtain ⟨j, hp, hu⟩ := effect_in_session h.cfg_left (execAscan_next hu)
  have hcell : u.cell.AgreeTo c.N s.cell := (hp ▸ h.own : u.OwnAlike c s (.ascan j))
  have hps := h.phase.trans hp
  rcases hu with ⟨hN, rfl⟩ | ⟨hN, x, hx, ⟨hbit, rfl⟩ | ⟨hbit, rfl⟩⟩
  · exact ⟨_, exec_ascan_end h.cfg_right hps hN, rfl, trivial, le_rfl⟩
  · have hframe := clearedFrame_agree u.frame s.frame
    have hnext := exec_ascan_start h.cfg_right hps hN ((hcell j hN).trans hx) hbit
    -- the cleared registers as variables, so that they are compared unevaluated
    generalize clearedFrame s.frame = fr' at hframe hnext
    generalize clearedFrame u.frame = fr at hframe ⊢
    exact ⟨_, hnext, rfl, ⟨hcell, hframe, rfl, rfl⟩, le_rfl⟩
  · exact ⟨_, exec_ascan_skip h.cfg_right hps hN ((hcell j hN).trans hx) hbit, rfl, hcell, le_rfl⟩

/-- A collected bit sets the same frame bit in frame registers that read alike. -/
theorem setBit_congr {d : Nat} {bit : Bool} (h : u.frame.AgreeTo 14 s.frame)
    (hu : (if bit then setFbit u d else .ok u) = .ok v) :
    ∃ fr fr' : Memory 8, fr.AgreeTo 14 fr' ∧ v = { u with frame := fr } ∧
      (if bit then setFbit s d else .ok s) = .ok { s with frame := fr' } := by
  cases bit with
  | false =>
    cases hu
    exact ⟨_, _, h, rfl, rfl⟩
  | true =>
    obtain ⟨hd, o, ho, rfl⟩ := setFbit_eq_ok.1 hu
    exact ⟨_, _, h.write _ _, rfl, setFbit_eq_ok.2 ⟨hd, o, (h _ (by omega)).trans ho, rfl⟩⟩

theorem resolveLen_congr {d : Nat} (h : u.frame.AgreeTo 14 s.frame) (hl : s.flen = u.flen)
    (hu : resolveLen d u = .ok v) :
    ∃ len, v = { u with flen := len } ∧ resolveLen d s = .ok { s with flen := len } := by
  rcases resolveLen_eq_ok.1 hu with ⟨hd, rfl⟩ | ⟨hd, o, ho, rfl⟩
  · exact ⟨_, rfl, resolveLen_eq_ok.2 (.inl ⟨hd, by rw [← hl]⟩)⟩
  · exact ⟨_, rfl, resolveLen_eq_ok.2 (.inr ⟨hd, o, (h 0 (by omega)).trans ho, rfl⟩)⟩

theorem State.Alike.arun (h : u.Alike c s) (hu : exec .arun u = .next v) :
    ∃ t, exec .arun s = .next t ∧ s.Mirrors c v t := by
  obtain ⟨j, hp, hgo, hu⟩ := effect_in_session h.cfg_left (execArun_next hu)
  obtain ⟨hcell, hframe, hd, hl⟩ : u.OwnAlike c s (.arun j) := hp ▸ h.own
  obtain ⟨x, hx, hu⟩ := readThen_eq_next.1 hu
  obtain ⟨d, hdu, hu⟩ := readThen_eq_next.1 hu
  obtain ⟨u₁, hu₁, hu⟩ := readThen_eq_next.1 hu
  obtain ⟨u₂, hu₂, hu⟩ := readThen_eq_next.1 hu
  obtain ⟨fr, fr', hfr, rfl, hs₁⟩ := setBit_congr hframe hu₁
  obtain ⟨len, rfl, hs₂⟩ := resolveLen_congr (u := { u with frame := fr }) (s := { s with frame := fr' }) hfr hl hu₂
  cases hu
  refine ⟨{ s with frame := fr', flen := len, dcnt := some (d + 1), phase := .arun (j + 1) }, ?_, rfl,
    ⟨hcell, hfr, rfl, rfl⟩, le_rfl⟩
  rw [exec_arun_eq_collectBit h.cfg_right (h.phase.trans hp) ((runContinues_congr hcell hd hl j).trans hgo), collectBit,
    readCell_congr hcell, hx, readThen_ok, hd, hdu, readThen_ok, hs₁, readThen_ok, hs₂, readThen_ok]

theorem State.Alike.aend (h : u.Alike c s) (hu : exec .aend u = .next v) :
    ∃ t, exec .aend s = .next t ∧ s.Mirrors c v t := by
  rcases execAend_next hu with ⟨hn, -⟩ | ⟨c', j, d, len, hc', hp, hgo, hdu, hlu, hu⟩
  · simp [h.cfg_left] at hn
  · obtain rfl : c = c' := by simpa [h.cfg_left] using hc'
    obtain ⟨hcell, hframe, hd, hl⟩ : u.OwnAlike c s (.arun j) := hp ▸ h.own
    have hgo' := (runContinues_congr hcell hd hl j).trans hgo
    have hps := h.phase.trans hp
    rcases hu with ⟨hdl, rfl⟩ | ⟨hdl, rfl⟩
    · exact ⟨_, exec_aend_accept h.cfg_right hps hgo' (hd.trans hdu) (hl.trans hlu) hdl, rfl,
        ⟨hcell, hframe, hd, hl⟩, le_rfl⟩
    · exact ⟨_, exec_aend_drop h.cfg_right hps hgo' (hd.trans hdu) (hl.trans hlu) hdl, rfl, hcell, le_rfl⟩

/-- Before sinks that both accept, the same frame is presented. -/
theorem State.Alike.emit (h : u.Alike c s) (hua : u.sinkAccepts = true) (hsa : s.sinkAccepts = true)
    (hu : exec .emit u = .next v) :
    ∃ t f, exec .emit s = .next t ∧ s.Mirrors c v t ∧ v.port = u.port ++ [f] ∧ t.port = s.port ++ [f] := by
  obtain ⟨j, hp, ⟨hwait, -⟩ | ⟨-, octets, len, hoct, hlen, rfl⟩⟩ := effect_in_session h.cfg_left (execEmit_next hu)
  · simp [hua] at hwait
  · obtain ⟨hcell, hframe, -, hl⟩ : u.OwnAlike c s (.emit j) := hp ▸ h.own
    have hf : s.presented = .ok ⟨octets, len⟩ :=
      (State.presented_congr hframe hl).trans (presented_eq_ok.2 ⟨hoct, hlen⟩)
    exact ⟨_, _, exec_emit_accept h.cfg_right (h.phase.trans hp) hsa hf, ⟨rfl, hcell, by simp⟩, rfl, rfl⟩

/-! ### One operation of the worker -/

theorem State.SameHandoff.workBank (h : s.SameHandoff t) : t.workBank = s.workBank := by
  rw [State.workBank, h.land, h.bank, ← State.workBank]

theorem State.Alike.of_mirrors {i : Instr} (h : u.Alike c s) (hi : i.isWorker = true) (htake : i ≠ .take)
    (hu : exec i u = .next v) (hs : exec i s = .next t) (hm : s.Mirrors c v t) : v.Alike c t := by
  obtain ⟨hphase, hown, -⟩ := hm
  have hhu := State.SameHandoff.of_worker hi htake hu
  have hhs := State.SameHandoff.of_worker hi htake hs
  exact ⟨hhu.cfg.trans h.cfg_left, hhs.cfg.trans h.cfg_right, by rw [hhu.workBank, hhs.workBank]; exact h.bank,
    hphase, hown⟩

/-- What the worker does in one of the states it does in the other, before sinks that both accept. -/
theorem State.Alike.exec {i : Instr} (h : u.Alike c s) (hi : i.isWorker = true) (htake : i ≠ .take)
    (hsink : i = .emit → u.sinkAccepts = true ∧ s.sinkAccepts = true) (hu : exec i u = .next v) :
    ∃ t fs, exec i s = .next t ∧ s.Mirrors c v t ∧ v.port = u.port ++ fs ∧ t.port = s.port ++ fs := by
  have quiet : i ≠ .emit → (∃ t, Machine.exec i s = .next t ∧ s.Mirrors c v t) →
      ∃ t fs, Machine.exec i s = .next t ∧ s.Mirrors c v t ∧ v.port = u.port ++ fs ∧ t.port = s.port ++ fs :=
    fun hne ⟨t, ht, hm⟩ => ⟨t, [], ht, hm, by simp [port_of_ne_emit hne hu], by simp [port_of_ne_emit hne ht]⟩
  cases i with
  | reset | deliver | cancel => cases hi
  | take => exact absurd rfl htake
  | extract => exact quiet (by simp) (h.extract hu)
  | search => exact quiet (by simp) (h.search hu)
  | decode => exact quiet (by simp) (h.decode hu)
  | ascan => exact quiet (by simp) (h.ascan hu)
  | arun => exact quiet (by simp) (h.arun hu)
  | aend => exact quiet (by simp) (h.aend hu)
  | emit =>
    obtain ⟨hua, hsa⟩ := hsink rfl
    obtain ⟨t, f, hemit⟩ := h.emit hua hsa hu
    exact ⟨t, [f], hemit⟩

theorem State.Alike.sameWork (h : u.Alike c s) (hw : s.SameWork t) : u.Alike c t where
  cfg_left := h.cfg_left
  cfg_right := hw.cfg.trans h.cfg_right
  bank := hw.workBank ▸ h.bank
  phase := hw.phase.trans h.phase
  own := by
    have hown := h.own
    generalize u.phase = p at hown ⊢
    cases p with
    | wait | done => trivial
    | extract | search | decode | ascan | arun | emit =>
      simpa only [State.OwnAlike, hw.cell, hw.start, hw.n, hw.ra, hw.rb, hw.err, hw.frame, hw.dcnt, hw.flen] using hown

end Alike

/-! ### The reference's way to `WAIT` -/

/-- The state before a sink that accepts every record. -/
def State.accepting (s : State) : State := { s with sinkAnswers := [], sinkThen := true }

/-- The worker alone, before a sink that accepts every record, goes from `u` to `WAIT` and presents `frames`. -/
inductive Presents (c : Config) : State → List FrameRecord → Prop
  | wait {u : State} (hp : u.phase = .wait) : Presents c u []
  | step {u v : State} {i : Instr} {fs frames : List FrameRecord} (hi : i.isWorker = true) (htake : i ≠ .take)
      (h : exec i u.accepting = .next v) (hport : v.port = u.port ++ fs)
      (hlt : stepsLeft c v.phase < stepsLeft c u.phase) (hrest : Presents c v frames) : Presents c u (fs ++ frames)

section Way

variable {c : Config} {u v s t : State}

/-- R104's measures drop along the order of the phases, the cursors within the invariant's bounds. -/
theorem stepsLeft_lt_of_follows {p q : Phase} (hinv : PhaseInv c s p) (hp : p ≠ .wait) (h : p.follows q) :
    stepsLeft c q < stepsLeft c p := by
  cases p with
  | wait => exact absurd rfl hp
  | done => exact h.elim
  | extract k =>
    obtain ⟨hk, -⟩ := hinv
    rcases h with rfl | rfl <;> simp only [stepsLeft] <;> omega
  | search i =>
    obtain ⟨hi, -⟩ := hinv
    rcases h with rfl | rfl | rfl <;> simp only [stepsLeft] <;> omega
  | decode p =>
    obtain ⟨-, -, -, -, -, -, -, -, -, -, -, hN, -⟩ := hinv
    rcases h with rfl | rfl <;> simp only [stepsLeft] <;> omega
  | ascan j =>
    obtain ⟨hj, -⟩ := hinv
    rcases h with rfl | rfl | rfl <;> simp only [stepsLeft] <;> omega
  | arun j =>
    obtain ⟨hj, -⟩ := hinv
    rcases h with rfl | rfl | rfl <;> simp only [stepsLeft] <;> omega
  | emit j =>
    obtain ⟨hj, -⟩ := hinv
    obtain rfl := h
    simp only [stepsLeft]
    omega

/-- `DONE` is entered from `WAIT` alone. -/
theorem Phase.follows.ne_done {p q : Phase} (h : p.follows q) (hp : p ≠ .wait) : q ≠ .done := by
  rintro rfl
  cases p <;> simp_all [Phase.follows]

theorem isWorker_of_workerEnabled {i : Instr} (h : workerEnabled c s i) : i.isWorker = true := by
  cases i with
  | reset | deliver | cancel => exact h.elim
  | take | extract | search | decode | ascan | arun | aend | emit => rfl

theorem exists_port_append {i : Instr} (h : exec i s = .next t) : ∃ fs, t.port = s.port ++ fs := by
  by_cases hi : i = .emit
  · subst hi
    rcases port_of_emit h with ⟨-, hport⟩ | ⟨-, f, -, hport⟩
    · exact ⟨[], by simp [hport]⟩
    · exact ⟨[f], hport⟩
  · exact ⟨[], by simp [port_of_ne_emit hi h]⟩

/-- Every state the invariant allows, `DONE` apart, has such a way: its next operation is enabled, and comes nearer. -/
theorem exists_presents (hinv : Invariant u) (hc : u.cfg = some c) (hdone : u.phase ≠ .done) :
    ∃ frames, Presents c u frames := by
  induction hm : stepsLeft c u.phase using Nat.strong_induction_on generalizing u with
  | _ m ih =>
    by_cases hw : u.phase = .wait
    · exact ⟨[], .wait hw⟩
    · have hinv' : Invariant u.accepting := hinv.congr (by constructor <;> rfl) (by constructor <;> rfl)
      obtain ⟨i, hen⟩ : ∃ i, workerEnabled c u.accepting i :=
        (exists_workerEnabled_iff hinv' hc).2 (by rintro (h | ⟨h, -⟩ | ⟨-, h⟩) <;> contradiction)
      obtain ⟨v, hv⟩ := exec_ok_of_workerEnabled hinv' hc hen
      have hi := isWorker_of_workerEnabled hen
      have htake : i ≠ .take := by rintro rfl; exact hw hen.1
      have hfollows := phasesFollowTheirOrder i u.accepting v c hc hen hv
      have hlt := stepsLeft_lt_of_follows (hinv'.session c hc).phase hw hfollows
      obtain ⟨fs, hport⟩ := exists_port_append hv
      obtain ⟨frames, hrest⟩ := ih _ (hm ▸ hlt) (hinv'.exec hv)
        ((State.SameHandoff.of_worker hi htake hv).cfg.trans hc) (hfollows.ne_done hw) rfl
      exact ⟨fs ++ frames, .step hi htake hv hport hlt hrest⟩

/-! ### Every state on the way -/

/-- The state is alike to a reference that has the rest of `port` still to present. -/
def OnCourse (c : Config) (port : List FrameRecord) (s : State) : Prop :=
  ∃ u frames, u.Alike c s ∧ Presents c u frames ∧ s.port ++ frames = port

theorem OnCourse.advances {port : List FrameRecord} (h : OnCourse c port s) (hw : s.phase ≠ .wait) :
    Advances c (OnCourse c port) s := by
  obtain ⟨u, frames, hus, hp, rfl⟩ := h
  have hus' : u.accepting.Alike c s := ⟨hus.cfg_left, hus.cfg_right, hus.bank, hus.phase, hus.own⟩
  cases hp with
  | wait hp => exact absurd (hus.phase.trans hp) hw
  | @step _ v i fs frames hi htake h hport hlt hrest =>
    by_cases hwait : i = .emit ∧ s.sinkAccepts = false
    · obtain ⟨rfl, ha⟩ := hwait
      obtain ⟨j, hpj, -⟩ := effect_in_session hus'.cfg_left (execEmit_next h)
      refine ⟨.emit, s.sinkAsked, rfl, exec_emit_wait hus.cfg_right (hus'.phase.trans hpj) ha,
        ⟨u, _, hus.sameWork (by constructor <;> simp), .step hi htake h hport hlt hrest, rfl⟩, fun hthen => ?_⟩
      have := sinkAsked_length_lt hthen ha
      simp only [workLeft, State.sinkAsked_phase]
      omega
    · obtain ⟨t, fs', ht, hm, hv, htp⟩ := hus'.exec hi htake (fun hi => ⟨rfl, by simpa [hi] using hwait⟩) h
      obtain rfl : fs = fs' := List.append_cancel_left (hport.symm.trans hv)
      refine ⟨i, t, hi, ht, ⟨v, frames, hus'.of_mirrors hi htake h ht hm, hrest, by simp [htp]⟩, fun _ => ?_⟩
      obtain ⟨hphase, -, hlen⟩ := hm
      exact workLeft_lt hus.phase (hphase ▸ hlt) hlen

theorem onTheWay_onCourse (c : Config) (port : List FrameRecord) : OnTheWay c (OnCourse c port) where
  cfg := fun ⟨_, _, hus, _⟩ => hus.cfg_right
  sameWork := fun ⟨u, frames, hus, hp, hport⟩ hw => ⟨u, frames, hus.sameWork hw, hp, by rw [hw.port, hport]⟩
  advances := OnCourse.advances

/-- A state alike to a reference finishes with the reference's frames. -/
theorem State.Alike.finishesWith {frames : List FrameRecord} (h : u.Alike c s) (hp : Presents c u frames) :
    s.FinishesWith frames := by
  refine (onTheWay_onCourse c (s.port ++ frames)).finishesWith ⟨u, frames, h, hp, rfl⟩ fun t ht hw => ?_
  obtain ⟨v, rest, hvt, hrest, hport⟩ := ht
  cases hrest with
  | wait => simpa using hport
  | step _ _ _ _ hlt _ => simp [← hvt.phase, hw, stepsLeft] at hlt

end Way

/-! ### The reference of a buffer -/

/-- A session in which the worker has just taken `bytes`, and has no element of its own written yet. -/
def State.taken (c : Config) (bytes : List Byte) : State :=
  { State.powerOn with cfg := some c, bank1 := Memory.writeList [] 0 bytes, phase := .extract 0 }

theorem Memory.Space.nil (w size : Nat) : Memory.Space size ([] : Memory w) := ⟨rfl, fun _ _ => rfl⟩

theorem taken_workBank_read {c : Config} {bytes : List Byte} {k : Nat} (hk : k < bytes.length) :
    (State.taken c bytes).workBank.read k = bytes[k]? := by
  show (Memory.writeList [] 0 bytes).read k = bytes[k]?
  rw [Memory.read_writeList, if_pos (by omega), Nat.sub_zero]

theorem invariant_taken {c : Config} {bytes : List Byte} (hlegal : c.legal = true) (hlen : bytes.length = c.L) :
    Invariant (State.taken c bytes) := by
  have hbank : (Memory.writeList [] 0 bytes).Space c.L := (Memory.Space.nil 8 c.L).writeList (by omega)
  have hfull : (Memory.writeList [] 0 bytes).FullTo c.L := hlen ▸ Memory.fullTo_writeList [] bytes
  have hown : WorkInv c (State.taken c bytes) := ⟨⟨Memory.Space.nil 9 c.N, nofun⟩, Memory.Space.nil 8 14,
    Nat.zero_le _, hfull, fun _ hq => absurd hq (Nat.not_lt_zero _)⟩
  refine .of_parts rfl hlegal ⟨fun b => ?_, nofun⟩ hown
  cases b with
  | bank0 => exact Memory.Space.nil 8 c.L
  | bank1 => exact hbank

/-- Settles O44: every state with the buffer in its work bank is alike to the buffer's reference state. -/
theorem framesAreAFunctionOfTheDeliveredBytes : Obligations.FramesAreAFunctionOfTheDeliveredBytes := by
  intro c bytes hlegal hlen
  obtain ⟨frames, hp⟩ := exists_presents (invariant_taken hlegal hlen) rfl (by simp [State.taken])
  refine ⟨frames, fun s _ hc hphase hbank => State.Alike.finishesWith (u := .taken c bytes) ?_ hp⟩
  exact ⟨rfl, hc, fun k hk => by rw [hbank k hk, taken_workBank_read (hlen ▸ hk)], hphase,
    fun _ hq => absurd hq (Nat.not_lt_zero _)⟩

end Sys2Proof.Machine

/-! ## The handoff (R77 to R85)

The forward lemmas of DELIVER, CANCEL and TAKE, and what the handoff's elements do along a run. -/

namespace Sys2Proof.Machine

section Forward

variable {c : Config} {s : State} {data : List Byte}

/-! ### DELIVER (R77) -/

theorem exec_deliver_length (hc : s.cfg = some c) (hl : data.length ≠ c.L) :
    exec (.deliver data) s = .next (s.marked .deliverLength) := by
  simp [exec, execDeliver, hc, hl, refuse]

theorem exec_deliver_drop (hc : s.cfg = some c) (hl : data.length = c.L) (he : s.exitf = true) :
    exec (.deliver data) s = .next (s.record .deliveryDropped) := by
  simp [exec, execDeliver, hc, hl, he]

theorem exec_deliver_fill (hc : s.cfg = some c) (hl : data.length = c.L) (he : s.exitf = false) :
    exec (.deliver data) s = .next (s.setBank s.land (s.landBank.writeList 0 data)).signalReady := by
  simp [exec, execDeliver, hc, hl, he]

/-- The landing bank reads as the data within it, and as before past it. -/
theorem read_delivered (m : Memory 8) (data : List Byte) (k : Nat) :
    (m.writeList 0 data).read k = if k < data.length then data[k]? else m.read k := by
  simp [Memory.read_writeList]

/-- The readiness signal is raised, or the overwriting recorded. -/
theorem State.signalReady_setBank (b : BankSel) (m : Memory 8) :
    (s.setBank b m).signalReady =
      if s.pending then { s.setBank b m with events := s.events ++ [.bufferOverwrite] }
      else { s.setBank b m with pending := true } := by
  rw [State.signalReady, State.setBank_pending, ← State.setBank_events s b m]
  rfl

/-! ### CANCEL and TAKE (R78, R79) -/

theorem exec_cancel (hc : s.cfg = some c) : exec .cancel s = .next { s with exitf := true } := session_some hc _

theorem exec_take_exit (hc : s.cfg = some c) (hp : s.phase = .wait) (he : s.exitf = true) :
    exec .take s = .next { s with phase := .done } := by
  simp [exec, execTake, hc, hp, he]

theorem exec_take_swap (hc : s.cfg = some c) (hp : s.phase = .wait) (he : s.exitf = false) (hpend : s.pending = true) :
    exec .take s = .next { s with land := s.land.other, pending := false, phase := .extract 0 } := by
  simp [exec, execTake, hc, hp, he, hpend]

theorem exec_take_wait (hc : s.cfg = some c) (hp : s.phase = .wait) (he : s.exitf = false) (hpend : s.pending = false) :
    exec .take s = .next s := by
  simp [exec, execTake, hc, hp, he, hpend]

end Forward

/-- Settles O3: the three forward lemmas of DELIVER, in the order of its tests. -/
theorem deliverFillsTheLandingBank : Obligations.DeliverFillsTheLandingBank := by
  intro data s
  refine ⟨fun hc => exec_eq_marked hc (by simp), fun c hc => ⟨exec_deliver_length hc, exec_deliver_drop hc, ?_⟩⟩
  intro hl he
  refine ⟨s.landBank.writeList 0 data, fun k hk => ?_, fun k hk => ?_, ?_⟩
  · rw [read_delivered, if_pos (hl ▸ hk)]
  · rw [read_delivered, if_neg (by omega), State.landBank]
  · rw [exec_deliver_fill hc hl he, State.signalReady_setBank]

/-- Settles O4: within a session CANCEL has one branch. -/
theorem cancelSetsTheExitFlag : Obligations.CancelSetsTheExitFlag := fun _ =>
  ⟨fun hc => exec_eq_marked hc (by simp), fun _ hc => exec_cancel hc⟩

/-- Settles O5: the three forward lemmas of TAKE. -/
theorem takeSwapsTheBanksOrTerminates : Obligations.TakeSwapsTheBanksOrTerminates := by
  intro s c hc hp
  refine ⟨exec_take_exit hc hp, exec_take_swap hc hp, fun he hpend t h => ?_⟩
  exact Host.Outcome.next.inj (h.symm.trans (exec_take_wait hc hp he hpend))

/-- Settles O9: each branch of DELIVER answers a next state. -/
theorem deliverNeverWaits : Obligations.DeliverNeverWaits := fun s _ data _ => exec_deliver_ok data s

/-! ### DONE (R80) -/

theorem legal_iff {l e a b : Nat} :
    Config.legal { L := l, E := e, seedA := a, seedB := b } = true ↔
      2 ≤ l ∧ l % 2 = 0 ∧ e ≤ 255 ∧ a ≤ 15 ∧ b ≤ 15 := by
  simp [Config.legal, and_assoc]

/-- The terminated worker has no operation, so none is a step. -/
theorem exec_ne_next_of_done {c : Config} {i : Instr} {s : State} (hc : s.cfg = some c) (hp : s.phase = .done)
    (hi : i.isWorker = true) (t : State) : exec i s ≠ .next t := fun h => by
  have hop := workerOp_of_exec hc hi h
  simp [workerOp, hc, hp] at hop

/-- Settles O7: in DONE the invariant holds the exit flag, the worker has no operation, and the environment's keep the
worker's work. -/
theorem doneIsLeftOnlyByReset : Obligations.DoneIsLeftOnlyByReset := by
  intro s c hinv hc hp
  have hexit : s.exitf = true := (hp ▸ (hinv.session c hc).phase : PhaseInv c s .done)
  have hworker : ∀ i, i.isWorker = true → ∀ t, exec i s ≠ .next t := fun i => exec_ne_next_of_done hc hp
  refine ⟨hworker, fun data hl => exec_deliver_drop hc hl hexit, exec_cancel_ok s, fun i t hreset h => ?_,
    fun l e a b hlegal => ?_⟩
  · cases hi : i.isWorker with
    | true => exact absurd h (hworker i hi t)
    | false =>
      have hw := State.SameWork.of_environment hi hreset h
      exact ⟨hw.phase.trans hp, hw.port⟩
  · obtain ⟨t, h⟩ := exec_reset_ok l e a b s
    rcases execReset_next h with ⟨hill, -⟩ | ⟨-, rfl⟩
    · simp [legal_iff.2 hlegal] at hill
    · exact ⟨_, h, rfl⟩

/-! ### The readiness signal (R81) -/

/-- DELIVER leaves the signal or finds it 0. -/
theorem pending_of_deliver {data : List Byte} {s t : State} (h : exec (.deliver data) s = .next t)
    (hne : t.pending ≠ s.pending) : s.pending = false := by
  rcases execDeliver_next h with ⟨-, rfl⟩ | ⟨_, -, ⟨-, rfl⟩ | ⟨-, -, rfl⟩ | ⟨-, -, rfl⟩⟩
  · exact absurd rfl hne
  · exact absurd rfl hne
  · exact absurd rfl hne
  · simpa using hne

/-- TAKE leaves the signal or finds it 1. -/
theorem pending_of_take {s t : State} (h : exec .take s = .next t) (hne : t.pending ≠ s.pending) :
    s.pending = true := by
  rcases execTake_next h with ⟨-, rfl⟩ | ⟨_, -, -, ⟨-, rfl⟩ | ⟨-, hpend, -⟩ | ⟨-, -, rfl⟩⟩
  · exact absurd rfl hne
  · exact absurd rfl hne
  · exact hpend
  · exact absurd rfl hne

/-- Settles O8: the other operations are no writers of the signal (O14's theorem), and a legal RESET clears it. -/
theorem onlyDeliverRaisesAndOnlyTakeLowersPending : Obligations.OnlyDeliverRaisesAndOnlyTakeLowersPending := by
  intro i s t h
  refine ⟨fun hne => ?_, fun l e a b hi hlegal => ?_⟩
  · cases i with
    | reset l e a b => exact .inr (.inr ⟨l, e, a, b, rfl⟩)
    | deliver data => exact .inl ⟨data, rfl, pending_of_deliver h hne⟩
    | take => exact .inr (.inl ⟨rfl, pending_of_take h hne⟩)
    | cancel | extract | search | decode | ascan | arun | aend | emit =>
      obtain ⟨-, -, -, -, hpend, -⟩ := eachElementHasOnlyItsWriters _ s t (by simp) h
      exact absurd (hpend (by simp) (by simp)) hne
  · subst hi
    rcases execReset_next h with ⟨hill, -⟩ | ⟨-, rfl⟩
    · simp [hlegal] at hill
    · rfl

/-! ### The work bank (R83, R85) -/

/-- Settles O12: neither the landing bank's choice nor the other bank has a writer but TAKE and RESET (O14's theorem). -/
theorem theWorkBankIsASnapshot : Obligations.TheWorkBankIsASnapshot := by
  intro i s t htake hreset h
  obtain ⟨-, -, hbank, hland, -⟩ := eachElementHasOnlyItsWriters i s t hreset h
  refine ⟨hland htake, ?_⟩
  rw [State.workBank, hland htake, hbank, ← State.workBank]

/-- The first operation of a run that ends. -/
theorem runOps_cons_next {i : Instr} {is : List Instr} {s t : State} (h : runOps (i :: is) s = .next t) :
    ∃ u, exec i s = .next u ∧ runOps is u = .next t := by
  rw [runOps] at h
  split at h
  · exact ⟨_, ‹_›, h⟩
  all_goals cases h

/-- What every operation of a run keeps, the run keeps up to its last operation. -/
theorem runOps_last {P : State → Prop} {is : List Instr} {i : Instr} {s t : State}
    (hkeep : ∀ j ∈ is, ∀ u v, P u → exec j u = .next v → P v) (hs : P s) (h : runOps (is ++ [i]) s = .next t) :
    ∃ u, P u ∧ exec i u = .next t := by
  induction is generalizing s with
  | nil => exact ⟨s, hs, (runOps_singleton i s).symm.trans h⟩
  | cons j is ih =>
    obtain ⟨u, hu, h⟩ := runOps_cons_next h
    exact ih (fun j' hj' => hkeep j' (List.mem_cons_of_mem j hj')) (hkeep j List.mem_cons_self s u hs hu) h

/-- A buffer waits to be taken: the landing bank holds `data`, the signal is raised and the exit flag is clear. -/
structure State.Offers (c : Config) (data : List Byte) (s : State) : Prop where
  cfg : s.cfg = some c
  exitf : s.exitf = false
  pending : s.pending = true
  bank : ∀ k, k < c.L → s.landBank.read k = data[k]?

section Offers

variable {c : Config} {data : List Byte} {s t : State}

theorem State.Offers.of_deliver (hc : s.cfg = some c) (hl : data.length = c.L) (he : s.exitf = false) :
    (s.setBank s.land (s.landBank.writeList 0 data)).signalReady.Offers c data where
  cfg := by simpa using hc
  exitf := by simpa using he
  pending := State.signalReady_pending _
  bank k hk := by
    rw [State.landBank, State.signalReady_bank, State.signalReady_land, State.setBank_land, State.bank_setBank_same,
      read_delivered, if_pos (hl ▸ hk)]

theorem State.Offers.congr (h : s.Offers c data) (hh : s.SameHandoff t) : t.Offers c data where
  cfg := hh.cfg.trans h.cfg
  exitf := hh.exitf.trans h.exitf
  pending := hh.pending.trans h.pending
  bank := by
    rw [State.landBank, hh.land, hh.bank]
    exact h.bank

/-- The TAKE hands the landing bank over as the work bank. -/
theorem State.Offers.take (h : s.Offers c data) (ht : exec .take s = .next t) :
    t.phase = .extract 0 ∧ t.pending = false ∧ ∀ k, k < c.L → t.workBank.read k = data[k]? := by
  have hpend := h.pending
  have hexit := h.exitf
  rcases execTake_next ht with ⟨hn, -⟩ | ⟨_, -, -, ⟨he, -⟩ | ⟨-, -, rfl⟩ | ⟨-, hp, -⟩⟩
  · simp [h.cfg] at hn
  · simp [hexit] at he
  · refine ⟨rfl, rfl, fun k hk => ?_⟩
    show (s.bank s.land.other.other).read k = data[k]?
    rw [BankSel.other_other]
    exact h.bank k hk
  · simp [hpend] at hp

end Offers

/-- Settles O10: DELIVER offers its data, the worker's operations keep the offer, and TAKE hands it over. -/
theorem theLastDeliveryIsTheOneTaken : Obligations.TheLastDeliveryIsTheOneTaken := by
  intro s t c data ops hc hl he hops h
  obtain ⟨u, hu, h⟩ := runOps_cons_next h
  cases (exec_deliver_fill hc hl he).symm.trans hu
  have hkeep : ∀ i ∈ ops, ∀ u v, u.Offers c data → exec i u = .next v → v.Offers c data := by
    intro i hi u v hu hv
    obtain ⟨htake, hcancel, hdeliver, hreset⟩ := hops i hi
    cases i with
    | reset l e a b => exact absurd rfl (hreset l e a b)
    | deliver d => exact absurd rfl (hdeliver d)
    | cancel => exact absurd rfl hcancel
    | take => exact absurd rfl htake
    | extract | search | decode | ascan | arun | aend | emit => exact hu.congr (.of_worker rfl htake hv)
  obtain ⟨v, hv, ht⟩ := runOps_last hkeep (.of_deliver hc hl he) h
  exact hv.take ht

/-! ### The slot (R84) -/

theorem State.Offers.slot {c : Config} {data : List Byte} {s : State} (h : s.Offers c data) (hl : data.length = c.L) :
    s.slot c = some (data.map some) := by
  rw [State.slot, if_pos h.pending, Option.some.injEq]
  refine List.ext_getElem (by simp [hl]) fun k hk _ => ?_
  have hk : k < c.L := by simpa using hk
  simp [h.bank k hk, hl ▸ hk]

theorem State.slot_eq_some {c : Config} {s : State} {x : List (Option Byte)} (h : s.slot c = some x) :
    s.pending = true ∧ (List.range c.L).map s.landBank.read = x := by
  rw [State.slot] at h
  split at h
  · exact ⟨‹_›, Option.some.inj h⟩
  · cases h

/-- Settles O11: DELIVER fills the slot, TAKE empties it into the work bank, and a TAKE that ends the worker leaves it. -/
theorem theHandoffIsACapacityOneChannel : Obligations.TheHandoffIsACapacityOneChannel := by
  intro s c hc
  refine ⟨fun data hl he => ?_, fun x hp he hslot => ?_, fun hp he => ?_⟩
  · exact ⟨_, exec_deliver_fill hc hl he, (State.Offers.of_deliver hc hl he).slot hl⟩
  · obtain ⟨hpend, rfl⟩ := State.slot_eq_some hslot
    refine ⟨_, exec_take_swap hc hp he hpend, ?_, rfl⟩
    show (List.range c.L).map (s.bank s.land.other.other).read = _
    rw [BankSel.other_other, ← State.landBank]
  · exact ⟨_, exec_take_exit hc hp he, rfl, rfl⟩

/-! ### The wake conditions (R92, R107) -/

/-- The two wake conditions changed, as other contents of a handoff that is still the one of `s`. -/
theorem State.SameHandoff.wake_eq {s t : State} (h : s.SameHandoff t) (x p : Bool) :
    { t with exitf := x, pending := p } = t.withHandoff s.bank0 s.bank1 p x := by
  rw [State.withHandoff, ← h.bank0, ← h.bank1]

/-- Settles O46: of the handoff a worker operation other than TAKE reads the work bank alone, and the operation keeps the
handoff. -/
theorem onlyTakeSeesTheWakeConditions : Obligations.OnlyTakeSeesTheWakeConditions := by
  intro i s t x p hi htake h
  rw [(State.SameHandoff.refl s).wake_eq, (State.SameHandoff.of_worker hi htake h).wake_eq]
  exact exec_withHandoff _ _ _ _ hi htake rfl h

end Sys2Proof.Machine

/-! ## Exceptions (R86 to R93)

No operation and no step faults where the invariant holds, each fault has a state that raises it, and a worker with
nothing to do changes nothing; the trace, the port and the marks, which record all this, are never read. -/

namespace Sys2Proof.Machine

/-! ### No fault is reachable (R88) -/

section Safety

variable {c : Config} {i : Instr} {s : State} {f : Fault}

/-- A worker operation that is not enabled reads nothing but the run's test, so a fault is an enabled one's. -/
theorem workerEnabled_of_fault (hinv : Invariant s) (hc : s.cfg = some c) (hi : i.isWorker = true)
    (h : exec i s = .fault f) : workerEnabled c s i := by
  have hrun : ∀ {j}, s.phase = .arun j → ∃ go, runContinues c s j = .ok go := fun hp =>
    runContinues_ok (hp ▸ (hinv.session c hc).phase)
  cases i with
  | reset | deliver | cancel => cases hi
  | take =>
    simp only [exec, execTake, session_some hc] at h
    split at h
    · split at h
      · cases h
      · split at h <;> cases h
    · cases h
  | extract | search | decode | ascan =>
    simp only [exec, execExtract, execSearch, execDecode, execAscan, session_some hc] at h
    split at h
    · exact ⟨_, ‹_›⟩
    · cases h
  | arun =>
    simp only [exec, execArun, session_some hc] at h
    split at h
    · next j hp =>
      obtain ⟨_ | _, hgo⟩ := hrun hp
      · simp [hgo] at h
      · exact ⟨j, hp, hgo⟩
    · cases h
  | aend =>
    simp only [exec, execAend, session_some hc] at h
    split at h
    · next j hp =>
      obtain ⟨_ | _, hgo⟩ := hrun hp
      · exact ⟨j, hp, hgo⟩
      · simp [hgo] at h
    · cases h
  | emit =>
    simp only [exec, execEmit, session_some hc] at h
    split at h
    · split at h
      · exact ⟨_, ‹_›, ‹_›⟩
      · cases h
    · cases h

/-- Where the invariant holds, no operation of any agent faults, enabled or not. -/
theorem exec_ne_fault (hinv : Invariant s) (i : Instr) (f : Fault) : exec i s ≠ .fault f := by
  intro h
  obtain ⟨t, ht⟩ : ∃ t, exec i s = .next t := by
    cases i with
    | reset l e a b => exact exec_reset_ok l e a b s
    | deliver data => exact exec_deliver_ok data s
    | cancel => exact exec_cancel_ok s
    | take | extract | search | decode | ascan | arun | aend | emit =>
      cases hc : s.cfg with
      | none => exact ⟨_, exec_eq_marked hc (by simp)⟩
      | some c => exact exec_ok_of_workerEnabled hinv hc (workerEnabled_of_fault hinv hc rfl h)
  cases ht.symm.trans h

/-- The choice of the worker's operation reads the run's test alone. -/
theorem workerOp_ok (hinv : Invariant s) : ∃ op, workerOp s = .ok op := by
  unfold workerOp
  split
  · exact ⟨_, rfl⟩
  · next c hc =>
    cases hp : s.phase with
    | arun j =>
      obtain ⟨go, hgo⟩ := runContinues_ok (hp ▸ (hinv.session c hc).phase : PhaseInv c s (.arun j))
      exact ⟨some (if go then .arun else .aend), by simp only [hgo]⟩
    | wait | extract | search | decode | ascan | emit | done => exact ⟨_, rfl⟩

/-- Taking records off the schedule keeps the invariant, which does not speak of it. -/
theorem Invariant.withScript (hinv : Invariant s) (script : List Byte) : Invariant { s with script := script } :=
  hinv.congr (by constructor <;> rfl) (by constructor <;> rfl)

theorem step_ne_fault (hinv : Invariant s) (f : Fault) : step s ≠ .fault f := by
  intro h
  unfold step at h
  split at h
  · obtain ⟨op, hop⟩ := workerOp_ok hinv
    rw [stepWorker, hop, readThen_ok] at h
    cases op with
    | some i => exact exec_ne_fault hinv i f h
    | none => cases h
  · unfold stepScript at h
    split at h
    · exact exec_ne_fault (hinv.withScript _) _ f h
    · cases h
    · cases h

theorem runSteps_ne_fault (hinv : Invariant s) (k : Nat) (f : Fault) : runSteps k s ≠ .fault f := by
  induction k generalizing s with
  | zero => nofun
  | succ k ih =>
    rw [runSteps]
    split
    · next t ht => exact ih (everyStepKeepsTheInvariant s t hinv ht)
    · next g hg => exact absurd hg (step_ne_fault hinv g)
    · nofun

end Safety

/-- Settles O41: the invariant holds before the first RESET, every step keeps it, and where it holds no step faults. -/
theorem noReachableStepFaults : Obligations.NoReachableStepFaults :=
  ⟨fun _ f hinv => step_ne_fault hinv f, fun _ _ _ k f =>
    runSteps_ne_fault (.of_blank (fun _ hc => by cases hc) rfl rfl rfl rfl rfl rfl) k f⟩

/-! ### What raises each fault (R88) -/

section Faults

variable {c : Config} {s : State} {k : Nat}

theorem readCell_unwritten (hk : k < c.N) (h : s.cell.read k = none) : readCell c s k = .error .unwrittenRead := by
  simp [readCell, readAt, hk, h]

theorem readCell_reserved {w : BitVec 9} (hk : k < c.N) (h : s.cell.read k = some w) (hw : Cell.ofBits w = none) :
    readCell c s k = .error .reservedCell := by
  simp [readCell, readAt_of_read hk h, cellOfBits, hw]

theorem readVal_not_mag {x : Cell} (hk : k < c.N) (h : s.CellIs k x) (hx : ∀ v, x ≠ .mag v) :
    readVal c s k = .error .valNotMag := by
  rw [readVal, h.readCell hk]
  cases x with
  | mag v => exact absurd rfl (hx v)
  | zero | one | invalid | consumed => rfl

theorem writeCell_out_of_range (x : Cell) (hk : c.N ≤ k) : writeCell c s k x = .error .indexRange := by
  simp [writeCell, writeAt, Nat.not_lt.2 hk]

theorem exec_ascan_read_fault {f : Fault} (hc : s.cfg = some c) (hp : s.phase = .ascan k) (hk : k < c.N)
    (h : readCell c s k = .error f) : exec .ascan s = .fault f := by
  simp [exec, execAscan, hc, hp, Nat.not_le.2 hk, h]

theorem exec_decode_read_fault {f : Fault} (hc : s.cfg = some c) (hp : s.phase = .decode k) (hk : k + 1 < c.N)
    (h : readVal c s k = .error f) : exec .decode s = .fault f := by
  simp [exec, execDecode, hc, hp, Nat.not_le.2 hk, h]

/-- The pair lies in the array, its output position does not. -/
theorem decodeBit_out_of_range {p st m : Nat} {bit : Bool} (hst : s.start = some st) (hm : s.n = some m)
    (hp : p + 1 < c.N) (hsm : c.N ≤ st + m) : decodeBit c p bit s = .fault .indexRange := by
  have h₁ := writeCell_eq_ok (s := s) (x := .consumed) |>.2 ⟨Nat.lt_of_succ_lt hp, rfl⟩
  have h₂ := fun t => writeCell_eq_ok (s := t) (x := .consumed) |>.2 ⟨hp, rfl⟩
  simp [decodeBit, hst, hm, h₁, h₂, writeCell_out_of_range _ hsm]

theorem decodeAbort_out_of_range {p e st m : Nat} (hst : s.start = some st) (hm : s.n = some m)
    (hsm : c.N ≤ st + m) : decodeAbort c p e s = .fault .indexRange := by
  simp [decodeAbort, hst, hm, writeCell_out_of_range _ hsm]

/-- Whatever the pair classifies as, DECODE writes the output position. -/
theorem exec_decode_out_of_range {st m e : Nat} {x y a b : Byte} (hc : s.cfg = some c) (hp : s.phase = .decode k)
    (hk : k + 1 < c.N) (hx : s.CellIs k (.mag x)) (hy : s.CellIs (k + 1) (.mag y)) (ha : s.ra = some a)
    (hb : s.rb = some b) (he : s.err = some e) (hst : s.start = some st) (hm : s.n = some m) (hsm : c.N ≤ st + m) :
    exec .decode s = .fault .indexRange := by
  simp only [exec, execDecode, session_some hc, hp, Nat.not_le.2 hk, if_false, hx.readVal (c := c) (by omega),
    hy.readVal hk, ha, hb, readReg_some, readThen_ok]
  split
  · rw [decodeAmbig, he, readReg_some, readThen_ok]
    split
    · exact decodeAbort_out_of_range hst hm hsm
    · exact decodeBit_out_of_range hst hm hk hsm
  · exact decodeBit_out_of_range hst hm hk hsm
  · exact decodeBit_out_of_range hst hm hk hsm

end Faults

/-- Settles O48: the first read or write that fails gives the reason. -/
theorem readsWithoutMeaningFault : Obligations.ReadsWithoutMeaningFault := by
  intro s c k hc
  refine ⟨fun hp hk h => exec_ascan_read_fault hc hp hk (readCell_unwritten hk h),
    fun w hp hk h hw => exec_ascan_read_fault hc hp hk (readCell_reserved hk h hw),
    fun x hp hk h hx => exec_decode_read_fault hc hp hk (readVal_not_mag (Nat.lt_of_succ_lt hk) h hx), ?_⟩
  rintro st m hp hk ⟨x, hx⟩ ⟨y, hy⟩ ⟨a, ha⟩ ⟨b, hb⟩ ⟨e, he⟩ hst hm hsm
  exact exec_decode_out_of_range hc hp hk hx hy ha hb he hst hm hsm

/-! ### A worker that waits (R91, R92, R99, R102) -/

/-- Settles O6: the forward lemma of a TAKE that nothing wakes. -/
theorem takeWaitsWhileNothingWakesIt : Obligations.TakeWaitsWhileNothingWakesIt :=
  fun _ _ hc hp hpend he => exec_take_wait hc hp he hpend

theorem runSteps_of_step_self {s : State} (h : step s = .next s) (k : Nat) : runSteps k s = .next s := by
  induction k with
  | zero => rfl
  | succ k ih => simpa only [runSteps, h] using ih

theorem workerOp_emit {c : Config} {j : Nat} {s : State} (hc : s.cfg = some c) (hp : s.phase = .emit j) :
    workerOp s = .ok (some .emit) := by
  simp [workerOp, hc, hp]

/-- A sink with no answers left to give but "not yet" leaves the waiting EMIT as it is. -/
theorem exec_emit_stuck {c : Config} {j : Nat} {s : State} (hc : s.cfg = some c) (hp : s.phase = .emit j)
    (hans : s.sinkAnswers = []) (hthen : s.sinkThen = false) : exec .emit s = .next s := by
  have hno : s.sinkAccepts = false := by simp [State.sinkAccepts, hans, hthen]
  rw [exec_emit_wait hc hp hno, State.sinkAsked, hans, List.tail_nil, ← hans]

/-- Settles O31: an EMIT before a sink that does not accept waits, and a step that changes nothing stays one. -/
theorem aStuckWorkerHoldsItsFrame : Obligations.AStuckWorkerHoldsItsFrame := by
  intro s c j hc hp
  refine ⟨exec_emit_wait hc hp, fun hscript hans hthen k => ?_, fun data => exec_deliver_ok data s, exec_cancel_ok s⟩
  exact runSteps_of_step_self
    ((step_of_workerOp hscript (workerOp_emit hc hp)).trans (exec_emit_stuck hc hp hans hthen)) k

theorem step_done {c : Config} {s : State} (hc : s.cfg = some c) (hscript : s.script = []) (hp : s.phase = .done) :
    step s = .next s := by
  simp [step, hscript, stepWorker, workerOp, hc, hp]

/-- Settles O38: the enabled operation is the worker's; at rest there is none, or a TAKE that waits. -/
theorem aSilentEnvironmentLeavesTheWorkerRunning : Obligations.ASilentEnvironmentLeavesTheWorkerRunning := by
  intro s c hc hscript
  refine ⟨fun i hen => step_of_workerOp hscript (workerOp_of_workerEnabled hc hen), ?_⟩
  rintro ⟨hp | ⟨hp, hpend, he⟩, -⟩
  · exact step_done hc hscript hp
  · exact (step_of_workerOp hscript (workerOp_wait hc hp)).trans (exec_take_wait hc hp he hpend)

/-! ### Trace, port and marks are never read (R26, R87)

Every operation commutes with putting other entries before those of the three logs: the equation holds of its whole
answer, faults and refusals included. -/

/-- The trace, the port's records and the refusal marks. -/
structure Logs where
  events : List Event
  port : List FrameRecord
  refusals : List RefusalMark

/-- The state with other entries before those of its own logs. -/
def State.prepend (l : Logs) (s : State) : State :=
  { s with events := l.events ++ s.events, port := l.port ++ s.port, refusals := l.refusals ++ s.refusals }

/-- An answer with its next state, if it has one, changed. -/
def mapNext (g : State → State) : Result → Result
  | .next s => .next (g s)
  | .fault f => .fault f
  | .refused r => .refused r

theorem mapNext_eq_next {g : State → State} {r : Result} {t : State} :
    mapNext g r = .next t ↔ ∃ u, r = .next u ∧ g u = t := by
  cases r <;> simp [mapNext]

theorem mapNext_readThen {α : Type} (g : State → State) (x : Except Fault α) (k : α → Result) :
    mapNext g (readThen x k) = readThen x fun a => mapNext g (k a) := by
  cases x <;> rfl

theorem mapNext_ite (g : State → State) (p : Prop) [Decidable p] (x y : Result) :
    mapNext g (if p then x else y) = if p then mapNext g x else mapNext g y :=
  apply_ite _ p x y

theorem readThen_map {α β : Type} (g : α → β) (x : Except Fault α) (k : β → Result) :
    readThen (x.map g) k = readThen x fun a => k (g a) := by
  cases x <;> rfl

theorem readThen_congr {α : Type} {x : Except Fault α} {k k' : α → Result} (h : ∀ a, k a = k' a) :
    readThen x k = readThen x k' := by
  rw [funext h]

section Prepend

variable {c : Config} (l : Logs) (s : State)

theorem State.prepend_phase : (s.prepend l).phase = s.phase := rfl

theorem State.prepend_record (e : Event) : (s.prepend l).record e = (s.record e).prepend l := by
  simp [State.prepend, State.record]

theorem State.prepend_signalReady : (s.prepend l).signalReady = s.signalReady.prepend l := by
  cases hp : s.pending <;> simp [State.signalReady, State.prepend, State.record, hp]

theorem State.prepend_landBank : (s.prepend l).landBank = s.landBank := rfl

theorem State.prepend_setBank (b : BankSel) (m : Memory 8) : (s.prepend l).setBank b m = (s.setBank b m).prepend l := by
  cases b <;> rfl

theorem refuse_prepend (m : RefusalMark) : refuse m (s.prepend l) = mapNext (State.prepend l) (refuse m s) := by
  simp [refuse, State.prepend, mapNext]

/-- An operation commutes with other entries if its body within the session does. -/
theorem session_prepend {k k' : Config → Result} (h : ∀ c, k' c = mapNext (State.prepend l) (k c)) :
    session (s.prepend l) k' = mapNext (State.prepend l) (session s k) := by
  cases hc : s.cfg with
  | none => rw [session_none hc, session_none (show (s.prepend l).cfg = none from hc), refuse_prepend]
  | some c => rw [session_some hc, session_some (show (s.prepend l).cfg = some c from hc), h]

/-! #### Writes -/

theorem writeCell_prepend (k : Nat) (x : Cell) :
    writeCell c (s.prepend l) k x = (writeCell c s k x).map (State.prepend l) := by
  by_cases h : k < c.N <;> simp [writeCell, writeAt, h, State.prepend, Except.map]

theorem fillCells_prepend (k count : Nat) (x : Cell) :
    fillCells c (s.prepend l) k count x = (fillCells c s k count x).map (State.prepend l) := by
  by_cases h : k + count ≤ c.N <;> simp [fillCells, fillAt, h, State.prepend, Except.map]

theorem setFbit_prepend (d : Nat) : setFbit (s.prepend l) d = (setFbit s d).map (State.prepend l) := by
  unfold setFbit
  rw [show readOctet (s.prepend l) (d / 8) = readOctet s (d / 8) from rfl]
  cases readOctet s (d / 8) with
  | error f => rfl
  | ok v => by_cases h : d / 8 < frameOctets <;> simp [writeOctet, writeAt, h, State.prepend, Except.map]

theorem resolveLen_prepend (d : Nat) : resolveLen d (s.prepend l) = (resolveLen d s).map (State.prepend l) := by
  unfold resolveLen
  rw [show readOctet (s.prepend l) 0 = readOctet s 0 from rfl]
  split
  · cases readOctet s 0 <;> rfl
  · rfl

/-! #### Bodies of operations -/

theorem searchMatch_prepend (i : Nat) :
    searchMatch c i (s.prepend l) = mapNext (State.prepend l) (searchMatch c i s) := by
  simp only [searchMatch, mapNext_readThen, fillCells_prepend, readThen_map]
  rfl

theorem decodeBit_prepend (p : Nat) (bit : Bool) :
    decodeBit c p bit (s.prepend l) = mapNext (State.prepend l) (decodeBit c p bit s) := by
  simp only [decodeBit, mapNext_readThen, writeCell_prepend, readThen_map]
  rfl

theorem decodeAbort_prepend (p e : Nat) :
    decodeAbort c p e (s.prepend l) = mapNext (State.prepend l) (decodeAbort c p e s) := by
  simp only [decodeAbort, mapNext_readThen, writeCell_prepend, readThen_map]
  simp [mapNext, State.prepend, State.record]

theorem decodeAmbig_prepend (p : Nat) :
    decodeAmbig c p (s.prepend l) = mapNext (State.prepend l) (decodeAmbig c p s) := by
  simp only [decodeAmbig, mapNext_readThen, mapNext_ite, decodeAbort_prepend, ← decodeBit_prepend,
    ← State.prepend_record]
  rfl

theorem decodeClear_prepend (p : Nat) (bit : Bool) (x y : Byte) :
    decodeClear c p bit x y (s.prepend l) = mapNext (State.prepend l) (decodeClear c p bit x y s) :=
  decodeBit_prepend l { s with ra := some x, rb := some y } p bit

theorem collectBit_prepend (j : Nat) :
    collectBit c j (s.prepend l) = mapNext (State.prepend l) (collectBit c j s) := by
  have hset : ∀ (x : Cell) d, (if x.isOne then setFbit (s.prepend l) d else .ok (s.prepend l)) =
      (if x.isOne then setFbit s d else .ok s).map (State.prepend l) := fun x d => by
    rw [setFbit_prepend]
    split <;> rfl
  simp only [collectBit, mapNext_readThen, hset, resolveLen_prepend, readThen_map]
  rfl

theorem endRun_prepend (j : Nat) : endRun j (s.prepend l) = mapNext (State.prepend l) (endRun j s) := by
  simp only [endRun, mapNext_readThen, mapNext_ite]
  simp [mapNext, State.prepend, State.record]

/-! #### Operations -/

theorem execReset_prepend (len e a b : Nat) :
    execReset len e a b (s.prepend l) = mapNext (State.prepend l) (execReset len e a b s) := by
  simp only [execReset, mapNext_ite, refuse_prepend]
  rfl

theorem execDeliver_prepend (data : List Byte) :
    execDeliver data (s.prepend l) = mapNext (State.prepend l) (execDeliver data s) := by
  refine session_prepend l s fun c => ?_
  simp only [mapNext_ite, refuse_prepend, State.prepend_record, State.prepend_landBank, State.prepend_setBank,
    State.prepend_signalReady]
  rfl

theorem execCancel_prepend : execCancel (s.prepend l) = mapNext (State.prepend l) (execCancel s) :=
  session_prepend l s fun _ => rfl

theorem execTake_prepend : execTake (s.prepend l) = mapNext (State.prepend l) (execTake s) := by
  refine session_prepend l s fun c => ?_
  rw [State.prepend_phase]
  cases s.phase with
  | wait =>
    simp only [mapNext_ite]
    rfl
  | _ => rfl

theorem execExtract_prepend : execExtract (s.prepend l) = mapNext (State.prepend l) (execExtract s) := by
  refine session_prepend l s fun c => ?_
  rw [State.prepend_phase]
  cases s.phase with
  | extract k =>
    simp only [mapNext_ite, mapNext_readThen, writeCell_prepend, readThen_map]
    rfl
  | _ => rfl

theorem execSearch_prepend : execSearch (s.prepend l) = mapNext (State.prepend l) (execSearch s) := by
  refine session_prepend l s fun c => ?_
  rw [State.prepend_phase]
  cases s.phase with
  | search i =>
    simp only [mapNext_ite, mapNext_readThen, searchMatch_prepend, pre_congr (s := s) (t := s.prepend l) rfl]
    rfl
  | _ => rfl

theorem execDecode_prepend : execDecode (s.prepend l) = mapNext (State.prepend l) (execDecode s) := by
  refine session_prepend l s fun c => ?_
  rw [State.prepend_phase]
  cases s.phase with
  | decode p =>
    simp only [mapNext_ite, mapNext_readThen]
    split
    · simp [mapNext, State.prepend, State.record]
    · refine readThen_congr fun x => readThen_congr fun y => readThen_congr fun a => readThen_congr fun b => ?_
      cases cls a b x y with
      | one => exact decodeClear_prepend l s p true x y
      | zero => exact decodeClear_prepend l s p false x y
      | ambig => exact decodeAmbig_prepend l s p
  | _ => rfl

theorem execAscan_prepend : execAscan (s.prepend l) = mapNext (State.prepend l) (execAscan s) := by
  refine session_prepend l s fun c => ?_
  rw [State.prepend_phase]
  cases s.phase with
  | ascan j =>
    simp only [mapNext_ite, mapNext_readThen]
    rfl
  | _ => rfl

theorem execArun_prepend : execArun (s.prepend l) = mapNext (State.prepend l) (execArun s) := by
  refine session_prepend l s fun c => ?_
  rw [State.prepend_phase]
  cases s.phase with
  | arun j =>
    simp only [mapNext_ite, mapNext_readThen, collectBit_prepend]
    rfl
  | _ => rfl

theorem execAend_prepend : execAend (s.prepend l) = mapNext (State.prepend l) (execAend s) := by
  refine session_prepend l s fun c => ?_
  rw [State.prepend_phase]
  cases s.phase with
  | arun j =>
    simp only [mapNext_ite, mapNext_readThen, endRun_prepend]
    rfl
  | _ => rfl

theorem execEmit_prepend : execEmit (s.prepend l) = mapNext (State.prepend l) (execEmit s) := by
  refine session_prepend l s fun c => ?_
  rw [State.prepend_phase]
  cases s.phase with
  | emit j =>
    simp only [mapNext_ite, mapNext_readThen]
    exact ite_congr rfl (fun _ => readThen_congr fun f => by simp [mapNext, State.prepend]) fun _ => rfl
  | _ => rfl

/-- No operation reads the logs. -/
theorem exec_prepend (i : Instr) : exec i (s.prepend l) = mapNext (State.prepend l) (exec i s) := by
  cases i with
  | reset len e a b => exact execReset_prepend l s len e a b
  | deliver data => exact execDeliver_prepend l s data
  | cancel => exact execCancel_prepend l s
  | take => exact execTake_prepend l s
  | extract => exact execExtract_prepend l s
  | search => exact execSearch_prepend l s
  | decode => exact execDecode_prepend l s
  | ascan => exact execAscan_prepend l s
  | arun => exact execArun_prepend l s
  | aend => exact execAend_prepend l s
  | emit => exact execEmit_prepend l s

end Prepend

/-- The state with empty logs. -/
def State.bare (s : State) : State := { s with events := [], port := [], refusals := [] }

theorem State.bare_prepend (s : State) (l : Logs) :
    s.bare.prepend l = { s with events := l.events, port := l.port, refusals := l.refusals } := by
  simp [State.prepend, State.bare]

/-- Settles O47: what an operation appends is what it leaves in empty logs, and every log is one put before those. -/
theorem tracePortAndMarksAreNeverRead : Obligations.TracePortAndMarksAreNeverRead := by
  intro i s t h
  have hown : s.bare.prepend ⟨s.events, s.port, s.refusals⟩ = s := s.bare_prepend _
  rw [← hown, exec_prepend] at h
  obtain ⟨u, hu, rfl⟩ := mapNext_eq_next.1 h
  refine ⟨u.events, u.port, u.refusals, rfl, rfl, rfl, fun ev po re => ?_⟩
  rw [← s.bare_prepend ⟨ev, po, re⟩, exec_prepend, hu]
  rfl

end Sys2Proof.Machine

/-! ## Resets, and what a fair worker does (R100 to R104)

RESET and the operations before the first one, the bound on the worker's steps within a buffer, and the runs of R103:
what a step of a valid run can do, that an enabled operation is performed before the worker moves otherwise, and so that
each buffer is finished and each pending one taken. -/

namespace Sys2Proof.Machine

/-! ### RESET (R100, R101) -/

/-- Settles O1: the two branches of RESET, a record's legality written out. -/
theorem resetStartsASession : Obligations.ResetStartsASession := by
  intro l e a b s
  obtain ⟨t, h⟩ := exec_reset_ok l e a b s
  rcases execReset_next h with ⟨hill, rfl⟩ | ⟨hlegal, rfl⟩
  · exact ⟨fun hl => by simp [legal_iff.2 hl] at hill, fun _ => h⟩
  · exact ⟨fun _ => h, fun hn => absurd (legal_iff.1 hlegal) hn⟩

/-- Settles O2: every operation but RESET runs within a session, and there is none. -/
theorem nothingElseRunsBeforeTheFirstReset : Obligations.NothingElseRunsBeforeTheFirstReset :=
  fun _ _ hc hi => exec_eq_marked hc hi

/-! ### The steps left of a buffer (R104) -/

section Progress

variable {c : Config} {i j : Instr} {s t u : State}

/-- At most one worker operation is enabled (R42). -/
theorem workerEnabled_unique (hc : s.cfg = some c) (hi : workerEnabled c s i) (hj : workerEnabled c s j) : i = j := by
  have hop := workerOp_of_workerEnabled hc hi
  rw [workerOp_of_workerEnabled hc hj] at hop
  simpa using hop.symm

/-- In `WAIT` no other worker operation than TAKE is enabled. -/
theorem phase_ne_wait_of_workerEnabled (hc : s.cfg = some c) (htake : i ≠ .take) (hen : workerEnabled c s i) :
    s.phase ≠ .wait := fun hp => by
  have hop := workerOp_of_workerEnabled hc hen
  rw [workerOp_wait hc hp] at hop
  exact htake (by simpa using hop.symm)

/-- With no schedule, and a sink that ends by accepting, the worker is back in `WAIT` within what is left to do. -/
theorem OnTheWay.exists_runSteps_wait_le {P : State → Prop} (H : OnTheWay c P) (hs : P s) (hscript : s.script = [])
    (hsink : s.sinkThen = true) : ∃ k t, k ≤ workLeft c s ∧ runSteps k s = .next t ∧ t.phase = .wait := by
  induction hm : workLeft c s using Nat.strong_induction_on generalizing s with
  | _ m ih =>
    by_cases hw : s.phase = .wait
    · exact ⟨0, s, Nat.zero_le _, rfl, hw⟩
    · obtain ⟨i, u, hi, hu, hPu, hlt⟩ := H.advances hs hw
      have hlt : workLeft c u < m := hm ▸ hlt hsink
      obtain ⟨hscript', hsink'⟩ := sameInputs_of_worker hi hu
      obtain ⟨k, t, hk, ht, hwait⟩ := ih _ hlt hPu (hscript'.trans hscript) (hsink'.trans hsink) rfl
      refine ⟨k + 1, t, by omega, ?_, hwait⟩
      rw [runSteps, step_of_workerOp hscript (workerOp_of_exec (H.cfg hs) hi hu), hu]
      exact ht

theorem State.Alike.refl (hc : s.cfg = some c) : s.Alike c s := by
  refine ⟨hc, hc, fun _ _ => rfl, rfl, ?_⟩
  cases s.phase <;> simp [State.OwnAlike, Memory.AgreeTo]

/-- From every phase but `DONE` the worker alone is on its way to `WAIT`. -/
theorem exists_runSteps_wait_le (hinv : Invariant s) (hc : s.cfg = some c) (hdone : s.phase ≠ .done)
    (hscript : s.script = []) (hsink : s.sinkThen = true) :
    ∃ k t, k ≤ workLeft c s ∧ runSteps k s = .next t ∧ t.phase = .wait := by
  obtain ⟨frames, hway⟩ := exists_presents hinv hc hdone
  exact (onTheWay_onCourse c (s.port ++ frames)).exists_runSteps_wait_le ⟨s, frames, .refl hc, hway, rfl⟩ hscript hsink

end Progress

/-- Settles O42: the phases follow their order (O36's theorem), and along it the measures drop. -/
theorem everyWorkerStepShortensTheBuffer : Obligations.EveryWorkerStepShortensTheBuffer := by
  intro i s t c hinv hc htake hen h
  exact stepsLeft_lt_of_follows (hinv.session c hc).phase (phase_ne_wait_of_workerEnabled hc htake hen)
    (phasesFollowTheirOrder i s t c hc hen h)

/-- Settles O43: the TAKE leaves the worker in `EXTRACT(0)`, and with no answer of the sink to come what is left to do
there are `6N + 9` steps. -/
theorem aBufferIsFinishedWithinTheBound : Obligations.ABufferIsFinishedWithinTheBound := by
  intro s c hinv hc ⟨hscript, hans, hthen⟩ hp hpend hexit
  have htake := exec_take_swap hc hp hexit hpend
  refine ⟨_, (step_of_workerOp hscript (workerOp_wait hc hp)).trans htake, rfl, ?_⟩
  obtain ⟨k, t, hk, ht, hwait⟩ := exists_runSteps_wait_le (hinv.exec htake) hc (by simp) hscript hthen
  refine ⟨k, t, ?_, ht, hwait⟩
  simp only [workLeft, stepsLeft, hans, List.length_nil] at hk
  omega

/-! ### A worker that does not move -/

section Unmoved

variable {c : Config} {i : Instr} {s t u : State}

theorem State.SameWork.trans (h : s.SameWork t) (h' : t.SameWork u) : s.SameWork u where
  cfg := h'.cfg.trans h.cfg
  workBank := h'.workBank.trans h.workBank
  phase := h'.phase.trans h.phase
  cell := h'.cell.trans h.cell
  start := h'.start.trans h.start
  n := h'.n.trans h.n
  ra := h'.ra.trans h.ra
  rb := h'.rb.trans h.rb
  err := h'.err.trans h.err
  frame := h'.frame.trans h.frame
  dcnt := h'.dcnt.trans h.dcnt
  flen := h'.flen.trans h.flen
  port := h'.port.trans h.port

theorem State.SameHandoff.trans (h : s.SameHandoff t) (h' : t.SameHandoff u) : s.SameHandoff u where
  cfg := h'.cfg.trans h.cfg
  bank0 := h'.bank0.trans h.bank0
  bank1 := h'.bank1.trans h.bank1
  land := h'.land.trans h.land
  pending := h'.pending.trans h.pending
  exitf := h'.exitf.trans h.exitf

theorem State.SameHandoff.landBank (h : s.SameHandoff t) : t.landBank = s.landBank := by
  rw [State.landBank, h.land, h.bank, ← State.landBank]

theorem SameButSink.sameWork (h : s.SameButSink t) : s.SameWork t := by
  obtain ⟨_, _, rfl⟩ := SameButSink.eq h
  constructor <;> rfl

theorem SameButSink.sameHandoff (h : s.SameButSink t) : s.SameHandoff t := by
  obtain ⟨_, _, rfl⟩ := SameButSink.eq h
  constructor <;> rfl

/-- From `s` to `t` the worker has not moved: its work is the same, and what wakes it has not gone. -/
structure State.WorkerUnmoved (s t : State) : Prop where
  work : s.SameWork t
  wakes : s.wakes = true → t.wakes = true

theorem State.WorkerUnmoved.refl (s : State) : s.WorkerUnmoved s := ⟨by constructor <;> rfl, id⟩

theorem State.WorkerUnmoved.trans (h : s.WorkerUnmoved t) (h' : t.WorkerUnmoved u) : s.WorkerUnmoved u :=
  ⟨h.work.trans h'.work, h'.wakes ∘ h.wakes⟩

theorem State.WorkerUnmoved.of_same (hw : s.SameWork t) (hh : s.SameHandoff t) : s.WorkerUnmoved t :=
  ⟨hw, fun h => by rwa [State.wakes, hh.pending, hh.exitf]⟩

theorem State.WorkerUnmoved.of_sameButSink (h : s.SameButSink t) : s.WorkerUnmoved t :=
  .of_same (SameButSink.sameWork h) (SameButSink.sameHandoff h)

theorem State.WorkerUnmoved.marked (s : State) (m : RefusalMark) : s.WorkerUnmoved (s.marked m) :=
  ⟨.marked s m, id⟩

/-- A RESET moves the worker only if its record is legal. -/
theorem State.WorkerUnmoved.reset {l e a b : Nat} (h : exec (.reset l e a b) s = .next t) :
    Config.legal ⟨l, e, a, b⟩ = true ∨ s.WorkerUnmoved t := by
  rcases execReset_next h with ⟨-, rfl⟩ | ⟨hlegal, -⟩
  · exact .inr (.marked s _)
  · exact .inl hlegal

theorem State.WorkerUnmoved.deliver {data : List Byte} (h : exec (.deliver data) s = .next t) : s.WorkerUnmoved t := by
  refine ⟨.deliver h, fun hwake => ?_⟩
  rcases execDeliver_next h with ⟨-, rfl⟩ | ⟨_, -, ⟨-, rfl⟩ | ⟨-, -, rfl⟩ | ⟨-, -, rfl⟩⟩
  · exact hwake
  · exact hwake
  · exact hwake
  · simp [State.wakes]

theorem State.WorkerUnmoved.cancel (h : exec .cancel s = .next t) : s.WorkerUnmoved t := by
  refine ⟨.cancel h, fun hwake => ?_⟩
  rcases execCancel_next h with ⟨-, rfl⟩ | ⟨_, -, rfl⟩
  · exact hwake
  · simp [State.wakes]

/-- A worker operation stays enabled while the worker does not move, EMIT as long as the sink accepts. -/
theorem State.WorkerUnmoved.workerEnabled (h : s.WorkerUnmoved t)
    (hsink : i = .emit → ∀ j, t.phase = .emit j → t.sinkAccepts = true) (hen : workerEnabled c s i) :
    workerEnabled c t i := by
  have hphase := h.work.phase
  have hrun := runContinues_congr (c := c) (fun k _ => congrArg (·.read k) h.work.cell) h.work.dcnt h.work.flen
  cases i with
  | reset | deliver | cancel => exact hen.elim
  | take =>
    obtain ⟨hp, hwake⟩ := hen
    exact ⟨hphase.trans hp, by simpa [State.wakes] using h.wakes (by simpa [State.wakes] using hwake)⟩
  | extract | search | decode | ascan =>
    obtain ⟨k, hp⟩ := hen
    exact ⟨k, hphase.trans hp⟩
  | arun | aend =>
    obtain ⟨j, hp, hgo⟩ := hen
    exact ⟨j, hphase.trans hp, (hrun j).trans hgo⟩
  | emit =>
    obtain ⟨j, hp, -⟩ := hen
    exact ⟨j, hphase.trans hp, hsink rfl j (hphase.trans hp)⟩

/-- The handoff is touched by TAKE, a delivery of `L` bytes, a CANCEL and a legal RESET alone. -/
theorem State.SameHandoff.of_exec (hc : s.cfg = some c) (htake : i ≠ .take)
    (hdeliver : ∀ data, i = .deliver data → data.length ≠ c.L) (hexit : t.exitf = false)
    (hreset : ∀ l e a b, i = .reset l e a b → Config.legal ⟨l, e, a, b⟩ = false) (h : exec i s = .next t) :
    s.SameHandoff t := by
  cases i with
  | reset l e a b =>
    rcases execReset_next h with ⟨-, rfl⟩ | ⟨hlegal, -⟩
    · constructor <;> rfl
    · simp [hreset l e a b rfl] at hlegal
  | deliver data =>
    cases (exec_deliver_length hc (hdeliver data rfl)).symm.trans h
    constructor <;> rfl
  | cancel =>
    cases (exec_cancel hc).symm.trans h
    simp at hexit
  | take => exact absurd rfl htake
  | extract | search | decode | ascan | arun | aend | emit => exact .of_worker rfl htake h

end Unmoved

/-! ### Valid runs -/

section Runs

variable {r : Run} {c : Config} {i : Instr} {m k : Nat}

theorem Run.SinkAcceptsFrom.mono (h : r.SinkAcceptsFrom m) (hk : m ≤ k) : r.SinkAcceptsFrom k :=
  fun k' j hk' => h k' j (hk.trans hk')

/-- What an operation of the run does. -/
theorem Run.Valid.exec_of_op (hv : r.Valid) (ho : r.op k = some i) :
    (r.state k).enables i ∧ ∃ t, exec i (r.state k) = .next t ∧ t.SameButSink (r.state (k + 1)) := by
  have h := hv k
  rwa [ho] at h

theorem Run.Valid.sameButSink_of_idle (hv : r.Valid) (ho : r.op k = none) :
    (r.state k).SameButSink (r.state (k + 1)) := by
  have h := hv k
  rwa [ho] at h

/-- A step of a valid run is the worker's, or a legal RESET, or it does not move the worker. -/
theorem Run.Valid.step_cases (hv : r.Valid) (k : Nat) :
    (∃ i c, r.op k = some i ∧ (r.state k).cfg = some c ∧ workerEnabled c (r.state k) i) ∨ r.ResetsAt k ∨
      (r.state k).WorkerUnmoved (r.state (k + 1)) := by
  cases ho : r.op k with
  | none => exact .inr (.inr (.of_sameButSink (hv.sameButSink_of_idle ho)))
  | some i =>
    obtain ⟨hen, t, h, ht⟩ := hv.exec_of_op ho
    have hsink := State.WorkerUnmoved.of_sameButSink ht
    cases i with
    | reset l e a b =>
      rcases State.WorkerUnmoved.reset h with hlegal | hun
      · exact .inr (.inl ⟨l, e, a, b, ho, hlegal⟩)
      · exact .inr (.inr (hun.trans hsink))
    | deliver data => exact .inr (.inr ((State.WorkerUnmoved.deliver h).trans hsink))
    | cancel => exact .inr (.inr ((State.WorkerUnmoved.cancel h).trans hsink))
    | take | extract | search | decode | ascan | arun | aend | emit =>
      obtain ⟨c, hc, hen⟩ := hen
      exact .inl ⟨_, c, rfl, hc, hen⟩

/-- The invariant holds along a valid run. -/
theorem Run.Valid.invariant (hv : r.Valid) (hinv : Invariant (r.state m)) (hk : m ≤ k) : Invariant (r.state k) := by
  induction k, hk using Nat.le_induction with
  | base => exact hinv
  | succ k _ ih =>
    cases ho : r.op k with
    | none =>
      have h := hv.sameButSink_of_idle ho
      exact ih.congr (SameButSink.sameWork h) (SameButSink.sameHandoff h)
    | some i =>
      obtain ⟨-, t, h, ht⟩ := hv.exec_of_op ho
      exact (ih.exec h).congr (SameButSink.sameWork ht) (SameButSink.sameHandoff ht)

/-- In a run that is fair to the worker an enabled operation is the worker's next move, unless a legal RESET comes
first: until then it stays enabled, and no other is. -/
theorem Run.Valid.exists_next_move (hv : r.Valid) (hfair : r.WeaklyFair .wrk) (hc : (r.state m).cfg = some c)
    (hen : workerEnabled c (r.state m) i) (hsink : i = .emit → r.SinkAcceptsFrom m) :
    ∃ k, m ≤ k ∧ (r.state m).WorkerUnmoved (r.state k) ∧ (r.op k = some i ∨ r.ResetsAt k) := by
  by_contra hno
  have hcfg : ∀ k, (r.state m).WorkerUnmoved (r.state k) → (r.state k).cfg = some c := fun k h => h.work.cfg.trans hc
  have henabled : ∀ k, m ≤ k → (r.state m).WorkerUnmoved (r.state k) → workerEnabled c (r.state k) i :=
    fun k hk h => h.workerEnabled (fun hi j => hsink hi k j hk) hen
  have hstay : ∀ k, m ≤ k → (r.state m).WorkerUnmoved (r.state k) := by
    intro k hk
    induction k, hk using Nat.le_induction with
    | base => exact .refl _
    | succ k hk ih =>
      rcases hv.step_cases k with ⟨j, c', ho, hc', hj⟩ | hreset | hun
      · obtain rfl : c = c' := by simpa [hcfg k ih] using hc'
        obtain rfl := workerEnabled_unique hc' (henabled k hk ih) hj
        exact absurd ⟨k, hk, ih, .inl ho⟩ hno
      · exact absurd ⟨k, hk, ih, .inr hreset⟩ hno
      · exact ih.trans hun
  have hi := isWorker_of_workerEnabled hen
  obtain ⟨k, j, hk, hj, hcode, ho⟩ := hfair i.code m fun k hk =>
    ⟨i, hi, rfl, (enables_worker hi).2 ⟨c, hcfg k (hstay k hk), henabled k hk (hstay k hk)⟩⟩
  obtain rfl := code_injective hj hi hcode
  exact hno ⟨k, hk, hstay k hk, .inl ho⟩

/-- An operation of the worker within a buffer comes nearer to `WAIT`. -/
theorem Run.Valid.stepsLeft_lt (hv : r.Valid) (hinv : Invariant (r.state k)) (hc : (r.state k).cfg = some c)
    (ho : r.op k = some i) (hi : i.isWorker = true) (hw : (r.state k).phase ≠ .wait) :
    (r.state (k + 1)).cfg = some c ∧ (r.state (k + 1)).phase ≠ .done ∧
      stepsLeft c (r.state (k + 1)).phase < stepsLeft c (r.state k).phase := by
  obtain ⟨hen, t, h, ht⟩ := hv.exec_of_op ho
  obtain ⟨c', hc', hen⟩ := (enables_worker hi).1 hen
  obtain rfl : c = c' := by simpa [hc] using hc'
  have htake : i ≠ .take := by
    rintro rfl
    exact hw hen.1
  have hfollows := phasesFollowTheirOrder i _ t c hc hen h
  have hsame := SameButSink.sameWork ht
  rw [hsame.cfg, hsame.phase]
  exact ⟨(State.SameHandoff.of_worker hi htake h).cfg.trans hc, hfollows.ne_done hw,
    stepsLeft_lt_of_follows (hinv.session c hc).phase hw hfollows⟩

/-- From every phase but `DONE` the worker gets to `WAIT`, by R104's measures. -/
theorem Run.Valid.exists_wait (hv : r.Valid) (hfair : r.WeaklyFair .wrk) (hinv : Invariant (r.state m))
    (hc : (r.state m).cfg = some c) (hdone : (r.state m).phase ≠ .done) (hsink : r.SinkAcceptsFrom m) :
    ∃ k, m ≤ k ∧ ((r.state k).phase = .wait ∨ r.ResetsAt k) := by
  induction hn : stepsLeft c (r.state m).phase using Nat.strong_induction_on generalizing m with
  | _ n ih =>
    by_cases hw : (r.state m).phase = .wait
    · exact ⟨m, le_rfl, .inl hw⟩
    · obtain ⟨i, hen⟩ : ∃ i, workerEnabled c (r.state m) i := by
        refine (exists_workerEnabled_iff hinv hc).2 ?_
        rintro (hp | ⟨hp, -⟩ | ⟨⟨j, hp⟩, hrefuses⟩)
        · exact hdone hp
        · exact hw hp
        · simp [hsink m j le_rfl hp] at hrefuses
      obtain ⟨k, hk, hun, ho | hreset⟩ := hv.exists_next_move hfair hc hen fun _ => hsink
      · have hphase := hun.work.phase
        obtain ⟨hc', hdone', hlt⟩ := hv.stepsLeft_lt (hv.invariant hinv hk) (hun.work.cfg.trans hc) ho
          (isWorker_of_workerEnabled hen) (hphase ▸ hw)
        rw [hphase, hn] at hlt
        obtain ⟨k', hk', h⟩ := ih _ hlt (hv.invariant hinv (by omega)) hc' hdone' (hsink.mono (by omega)) rfl
        exact ⟨k', by omega, h⟩
      · exact ⟨k, hk, .inr hreset⟩

/-- A TAKE with no exit in its way hands a pending buffer over. -/
theorem Run.Valid.take_hands_over (hv : r.Valid) (ho : r.op k = some .take) (hpend : (r.state k).pending = true)
    (hexit : (r.state k).exitf = false) :
    (r.state (k + 1)).phase = .extract 0 ∧ (r.state (k + 1)).workBank = (r.state k).landBank := by
  obtain ⟨⟨c, hc, hp, -⟩, t, h, ht⟩ := hv.exec_of_op ho
  have hsame := SameButSink.sameWork ht
  cases (exec_take_swap hc hp hexit hpend).symm.trans h
  refine ⟨hsame.phase, hsame.workBank.trans ?_⟩
  show (r.state k).bank (r.state k).land.other.other = _
  rw [BankSel.other_other, ← State.landBank]

/-- One step further, the handoff is still the same unless one of its writers has come. -/
theorem Run.Valid.sameHandoff_succ (hv : r.Valid) (hc : (r.state k).cfg = some c) (htake : r.op k ≠ some .take)
    (hdeliver : ∀ data, r.op k = some (.deliver data) → data.length ≠ c.L) (hexit : (r.state (k + 1)).exitf = false)
    (hreset : ¬ r.ResetsAt k) : (r.state k).SameHandoff (r.state (k + 1)) := by
  cases ho : r.op k with
  | none => exact SameButSink.sameHandoff (hv.sameButSink_of_idle ho)
  | some i =>
    obtain ⟨-, t, h, ht⟩ := hv.exec_of_op ho
    have hsame := SameButSink.sameHandoff ht
    refine .trans (.of_exec hc (fun hi => htake (hi ▸ ho)) (fun data hi => hdeliver data (hi ▸ ho))
      (hsame.exitf ▸ hexit) (fun l e a b hi => ?_) h) hsame
    exact eq_false_of_ne_true fun hlegal => hreset ⟨l, e, a, b, hi ▸ ho, hlegal⟩

end Runs

/-! ### The worker's progress (R103, R104) -/

/-- Settles O58: the operation is the worker's next move. -/
theorem aFairWorkerMakesProgress : Obligations.AFairWorkerMakesProgress := by
  intro r m i hv hfair hi hen hsink
  obtain ⟨c, hc, hen⟩ := (enables_worker hi).1 hen
  obtain ⟨k, hk, -, h⟩ := hv.exists_next_move hfair hc hen hsink
  exact ⟨k, hk, h⟩

/-- Settles O60: each move of the worker within a buffer comes nearer to `WAIT`. -/
theorem aFairWorkerFinishesEveryBuffer : Obligations.AFairWorkerFinishesEveryBuffer :=
  fun _ _ _ hv hfair hinv hc hdone hsink => hv.exists_wait hfair hinv hc hdone hsink

/-- Settles O59: while no delivery of `L` bytes, no exit and no RESET comes, the handoff stays as it is up to the next
TAKE, and there is one, since the worker gets to `WAIT` and is then woken. -/
theorem aPendingBufferIsEventuallyTaken : Obligations.APendingBufferIsEventuallyTaken := by
  intro r c m hv hfair hinv hc hpend hsink
  by_contra hno
  have hdeliver : ∀ k, m ≤ k → ∀ data, r.op k = some (.deliver data) → data.length ≠ c.L :=
    fun k hk data ho hl => hno ⟨k, hk, .inr (.inl ⟨data, ho, hl⟩)⟩
  have hexit : ∀ k, m ≤ k → (r.state k).exitf = false :=
    fun k hk => eq_false_of_ne_true fun he => hno ⟨k, hk, .inr (.inr (.inl he))⟩
  have hreset : ∀ k, m ≤ k → ¬ r.ResetsAt k := fun k hk hr => hno ⟨k, hk, .inr (.inr (.inr hr))⟩
  have htake : ∀ k, m ≤ k → (r.state m).SameHandoff (r.state k) → r.op k ≠ some .take := fun k hk hsame ho => by
    obtain ⟨hphase, hbank⟩ := hv.take_hands_over ho (hsame.pending.trans hpend) (hexit k hk)
    exact hno ⟨k, hk, .inl ⟨ho, hphase, hbank.trans hsame.landBank⟩⟩
  have hsame : ∀ k, m ≤ k → (r.state m).SameHandoff (r.state k) := by
    intro k hk
    induction k, hk using Nat.le_induction with
    | base => exact .refl _
    | succ k hk ih =>
      exact ih.trans (hv.sameHandoff_succ (ih.cfg.trans hc) (htake k hk ih) (hdeliver k hk) (hexit _ (by omega))
        (hreset k hk))
  have hdone : (r.state m).phase ≠ .done := fun hp => by
    have he : (r.state m).exitf = true := (hp ▸ (hinv.session c hc).phase : PhaseInv c (r.state m) .done)
    simp [hexit m le_rfl] at he
  obtain ⟨k, hk, hwait | hr⟩ := hv.exists_wait hfair hinv hc hdone hsink
  · have hen : workerEnabled c (r.state k) .take := ⟨hwait, .inl ((hsame k hk).pending.trans hpend)⟩
    obtain ⟨k', hk', -, ho | hr⟩ := hv.exists_next_move hfair ((hsame k hk).cfg.trans hc) hen nofun
    · exact htake k' (hk.trans hk') (hsame k' (hk.trans hk')) ho
    · exact hreset k' (hk.trans hk') hr
  · exact hreset k hk hr

end Sys2Proof.Machine
